-- ==== Sys2Proof/Word.lean ====
section
/-! DEFINITION. The bit-vector types of MIXBLK (spec/00_scope.md rules R6 to R8): widths only. -/

namespace Sys2Proof

/-- One byte of memory or of the LCW stream. -/
abbrev Byte := BitVec 8

/-- A host register, a command word, an address, a Blowfish half (`XLEN` = `ALEN` = 32, rule R7). -/
abbrev Word := BitVec 32

/-- A `BigInt320` value, an unsigned number below 2^320 (rules R6, R32). -/
abbrev Big := BitVec 320

/-- A 4-bit register field of a command word: a number from 0 to 15 (rule R92). -/
abbrev Reg := BitVec 4

end Sys2Proof
end

