-- ==== Sys2Proof/Config.lean ====
section
/-! DEFINITION. What an implementation or a platform fixes, and the free values of the model.
The parameters `MemValid` and `HOST_BASE` are plain data (`Platform`); a free value is an
uninterpreted constant, so that nothing can be proved of it but what holds of every value. -/

namespace Sys2Proof.Config

/-- One past the largest byte address of the memory port: 2^32 (spec/10_state.md rule R37). -/
def addressLimit : Nat := 4294967296

/-- Bytes of the host register window, offsets `0x00` to `0xFF` (spec/10_state.md rule R22). -/
def windowBytes : Nat := 256

/-- What a byte of memory reads as when nothing has written it. DESIGN CHOICE (log 3), unsafe:
the spec leaves the contents of memory to the platform (spec/10_state.md rule R40). -/
def unlistedByte : Byte := 0#8

/-- What stands behind a region of addresses (spec/20_memory.md rule R68). -/
inductive RegionKind where
  /-- plain memory: a read returns the last byte written -/
  | memory
  /-- a location with side effects; handing one to the block is outside the spec -/
  | device
deriving DecidableEq, Repr

/-- A run of `size` byte addresses from `base` that the memory port can reach. -/
structure Region where
  base : Nat
  size : Nat
  kind : RegionKind
deriving DecidableEq, Repr

/-- The open parameters of the spec (spec/92_eei_decisions.md, "Open parameters, collected"):
`memMap` lists the addresses for which `MemValid` is true, `hostBase` is `HOST_BASE`. No step
changes them. -/
structure Platform where
  memMap   : List Region
  hostBase : Nat
deriving DecidableEq, Repr

/-- The platform of `State.reset`: plain memory at every address, the window at 0.
DESIGN CHOICE (logs 4, 5), unsafe: the spec leaves both open. -/
def platformAtReset : Platform :=
  { memMap := [{ base := 0, size := addressLimit, kind := .memory }], hostBase := 0 }

/-- Free value: the contents `KP` takes at draw `n`, when the spec calls it unspecified
(spec/42_blowfish.md rule R190, spec/10_state.md rules R36, R40). DESIGN CHOICE (log 6), safe. -/
opaque freeP (n : Nat) : Vector Word 18

/-- Free value: the contents `KS` takes at draw `n` (as `freeP`). DESIGN CHOICE (log 6), safe. -/
opaque freeS (n : Nat) : Vector (Vector Word 256) 4

/-- Free value: whether the byte at `addr` holds its new value after a reset cut a command short
at draw `n` (spec/70_reset_and_hazards.md rule R331). DESIGN CHOICE (log 6), safe. -/
opaque resetKeepsNew (n addr : Nat) : Bool

end Sys2Proof.Config
end

