-- ==== Sys2Proof/Syntax.lean ====
section
/-! DEFINITION. The instructions: one constructor per row of spec/opcode_table.json (27 CMD32
commands and 6 LCW stream commands), and the stream commands with all their operand bytes. -/

namespace Sys2Proof

/-- An instruction. A CMD32 command carries the fields its format uses (spec/30_encoding.md rules
R91 to R97). A stream command carries the fields of its first byte (rule R101): its meaning reads
the bytes after it as operands, because their absence is a stop of its own (spec/44_lcw.md R223). -/
inductive Instr where
  -- system, spec/45_system.md
  | sysNop
  | sysClrerr
  -- BigInt320, spec/40_bigint.md
  | biLdi (rd : Reg) (imm : BitVec 20)
  | biMov (rd ra : Reg)
  | biLdbe (rd : Reg) (len : BitVec 16)
  | biLdle (rd : Reg) (len : BitVec 16)
  | biStbe (ra : Reg) (len : BitVec 16)
  | biStle (ra : Reg) (len : BitVec 16)
  | biCmp (ra rb : Reg)
  | biAdd (rd ra rb : Reg)
  | biSub (rd ra rb : Reg)
  | biShl1 (rd ra : Reg)
  | biShr1 (rd ra : Reg)
  | biBit (ra : Reg) (idx : BitVec 16)
  | biHsb (ra : Reg)
  | biTstz (ra : Reg)
  | biMull (rd ra rb : Reg)
  | biMulh (rd ra rb : Reg)
  -- modular, spec/41_modular.md
  | modMul (rd ra rb rc : Reg)
  | modExp (rd ra rb rc : Reg)
  -- Blowfish, spec/42_blowfish.md
  | bfSetkey
  | bfEncb
  | bfDecb
  | bfEnc
  | bfDec
  | bfClrkey
  -- LCW, spec/44_lcw.md
  | lcwDec
  | rel (ccc : BitVec 3) (dddd : BitVec 4)
  | endMark
  | lit (n : BitVec 6)
  | abs (n : BitVec 6)
  | fill
  | labs
deriving DecidableEq, Repr

/-- The instructions that stand in an LCW stream; the others are CMD32 commands. -/
def Instr.isStream : Instr → Bool
  | .sysNop | .sysClrerr | .biLdi _ _ | .biMov _ _ | .biLdbe _ _ | .biLdle _ _ | .biStbe _ _
  | .biStle _ _ | .biCmp _ _ | .biAdd _ _ _ | .biSub _ _ _ | .biShl1 _ _ | .biShr1 _ _
  | .biBit _ _ | .biHsb _ | .biTstz _ | .biMull _ _ _ | .biMulh _ _ _ | .modMul _ _ _ _
  | .modExp _ _ _ _ | .bfSetkey | .bfEncb | .bfDecb | .bfEnc | .bfDec | .bfClrkey
  | .lcwDec => false
  | .rel _ _ | .endMark | .lit _ | .abs _ | .fill | .labs => true

/-- A stream command with its operands assembled (spec/30_encoding.md rules R102, R107). -/
inductive StreamCommand where
  | rel (count distance : Nat)
  | endMark
  | lit (data : List Byte)
  | abs (count pos : Nat)
  | fill (count : Nat) (value : Byte)
  | labs (count pos : Nat)
deriving DecidableEq, Repr

end Sys2Proof
end

