-- ==== Sys2Proof/Machine/State.lean ====
section
/-! DEFINITION. The state of the block, of its platform and of the host's pending actions, as plain
data; the reasons a step can stop; the state after reset (spec/10_state.md). -/

namespace Sys2Proof.Machine

/-- What `STATUS.ERR` records (spec/60_exceptions.md rule R291); `ok` is code 0. -/
inductive Err where
  | ok
  | illegal
  | operand
  | modZero
  | noKey
  | keyLen
  | length
  | range
  | overlap
  | bus
deriving DecidableEq, Repr

/-- What `STATUS.LCW_STOP` records (spec/10_state.md rule R24, spec/44_lcw.md rule R226); `unset` is
code 0, no run since reset. -/
inductive LcwStop where
  | unset
  | endMark
  | srcEnd
  | abortSrc
  | abortDst
  | abortRef
deriving DecidableEq, Repr

/-- The four bits of `FLAGS` (spec/10_state.md rule R25). -/
structure Flags where
  c  : Bool
  z  : Bool
  lt : Bool
  eq : Bool
deriving DecidableEq, Repr

/-- The fields of `STATUS` (spec/10_state.md rule R24). -/
structure Status where
  err      : Err
  errs     : Bool
  keyvalid : Bool
  lcwStop  : LcwStop
deriving DecidableEq, Repr

/-- The LCW unit's offsets while `LCW.DEC` runs: `sp` into the source region, its program counter,
and `dp` into the destination region (spec/10_state.md rule R33). -/
structure LcwRun where
  sp : Word
  dp : Word
deriving DecidableEq, Repr

/-- An action of the host or of the platform, taken between commands (log 1). -/
inductive Input where
  /-- the host reads `bytes` bytes of the register window at `addr` -/
  | read (addr bytes : Nat)
  /-- the host writes `bytes` bytes of the register window at `addr` -/
  | write (addr bytes : Nat) (data : Word)
  /-- the host reads a byte of memory -/
  | memRead (addr : Word)
  /-- the host writes a byte of memory -/
  | memWrite (addr : Word) (data : Byte)
  /-- the platform asserts reset while the block is idle -/
  | reset
  /-- the host writes `cmd` to `CMD` and reset is asserted while that command runs -/
  | resetDuring (cmd : Word)
deriving DecidableEq, Repr

/-- The whole state (spec/10_state.md rule R20 and INVENTORY.md). -/
structure State where
  /-- `B0` to `B15` (rule R32) -/
  b         : Vector Big 16
  flags     : Flags
  /-- `RESULT` (rule R26) -/
  result    : Word
  status    : Status
  srcAddr   : Word
  srcLen    : Word
  dstAddr   : Word
  dstLen    : Word
  /-- `LCW_SP` (rule R31) -/
  lcwSp     : Word
  /-- the working P-array `KP` (rule R34) -/
  kp        : Vector Word 18
  /-- the working S-boxes `KS` (rule R35) -/
  ks        : Vector (Vector Word 256) 4
  /-- the run of `LCW.DEC` in progress (rule R33) -/
  lcw       : Option LcwRun
  /-- memory in canonical form (rule R37; `memWf`) -/
  mem       : List Host.Cell
  /-- the open parameters `MemValid` and `HOST_BASE`; no step changes them -/
  platform  : Config.Platform
  /-- the model's own: the actions still to come, first one first (log 1) -/
  inputs    : List Input
  /-- the model's own: what the host's reads returned, newest first (log 1) -/
  hostReads : List Word
  /-- the model's own: how many free values have been drawn (log 6) -/
  draws     : Nat
deriving DecidableEq, Repr

/-- Why the machine stops. -/
inductive Fault where
  /-- the host accesses a memory address where no memory is; raised by the inputs `memRead` and
  `memWrite`; safe (log 7) -/
  | hostMemoryAbsent
deriving DecidableEq, Repr

/-- Why the model gives no meaning. -/
inductive Refusal where
  /-- an instruction without a meaning, by its mnemonic; raised by `exec` alone; safe -/
  | notModelled (mnemonic : String)
  /-- a window access that is not an aligned 32-bit one (spec/10_state.md rule R39: a model refuses
  it); raised by the inputs `read` and `write`; safe -/
  | hostAccessShape
  /-- a host access outside the register window, which is none to the block (spec/10_state.md rule
  R22); raised by the inputs `read` and `write`; safe (log 5) -/
  | outsideWindow
  /-- a command or the host reaches a device (spec/20_memory.md rule R68: a model refuses such a
  launch); raised by the memory commands, `memRead` and `memWrite`; safe (log 4) -/
  | deviceRegion
  /-- a stream command while no `LCW.DEC` runs, which no step does; raised by the six stream
  commands; safe (log 8) -/
  | streamCommandIdle
deriving DecidableEq, Repr

/-- The outcome of an instruction or a step. -/
abbrev Outcome := Host.Outcome State Fault Refusal

/-- The machine right after reset (spec/10_state.md rule R40, spec/70_reset_and_hazards.md rule
R330). `kp` and `ks` (log 2), the platform (logs 4, 5) and `draws` (log 6) are DESIGN CHOICES. -/
def State.reset : State where
  b := Vector.replicate 16 0#320
  flags := { c := false, z := false, lt := false, eq := false }
  result := 0#32
  status := { err := .ok, errs := false, keyvalid := false, lcwStop := .unset }
  srcAddr := 0#32
  srcLen := 0#32
  dstAddr := 0#32
  dstLen := 0#32
  lcwSp := 0#32
  kp := Vector.replicate 18 0#32
  ks := Vector.replicate 4 (Vector.replicate 256 0#32)
  lcw := none
  mem := []
  platform := Config.platformAtReset
  inputs := []
  hostReads := []
  draws := 0

end Sys2Proof.Machine
end

