-- ==== Sys2Proof/Machine/Flags.lean ====
section
/-! DEFINITION. Every flag the spec computes (spec/10_state.md rule R25, spec/40_bigint.md). -/

namespace Sys2Proof.Machine

/-- `C` of `BI.ADD`: the exact sum does not fit (spec/40_bigint.md rule R127). -/
def carryOfAdd (a b : Big) : Bool := decide (2 ^ 320 ≤ a.toNat + b.toNat)

/-- `C` of `BI.SUB`: the borrow (spec/40_bigint.md rule R128). -/
def borrowOfSub (a b : Big) : Bool := decide (a.toNat < b.toNat)

/-- `C` of `BI.SHL1`: bit 319 of the operand (spec/40_bigint.md rule R129). -/
def carryOfShl (a : Big) : Bool := a.getLsbD 319

/-- `C` of `BI.SHR1`: bit 0 of the operand (spec/40_bigint.md rule R130). -/
def carryOfShr (a : Big) : Bool := a.getLsbD 0

/-- `Z`: the 320-bit value is zero (spec/10_state.md rule R25). -/
def zeroOf (v : Big) : Bool := v == 0#320

/-- `LT` of `BI.CMP`, unsigned (spec/40_bigint.md rule R126). -/
def ltOf (a b : Big) : Bool := decide (a.toNat < b.toNat)

/-- `EQ` of `BI.CMP` (spec/40_bigint.md rule R126). -/
def eqOf (a b : Big) : Bool := a == b

/-- `C` and `Z` written, `LT` and `EQ` kept. -/
def State.setCZ (s : State) (c z : Bool) : State :=
  { s with flags := { s.flags with c := c, z := z } }

/-- `Z` alone written. -/
def State.setZ (s : State) (z : Bool) : State :=
  { s with flags := { s.flags with z := z } }

/-- `LT` and `EQ` written, `C` and `Z` kept. -/
def State.setLtEq (s : State) (lt eq : Bool) : State :=
  { s with flags := { s.flags with lt := lt, eq := eq } }

/-- `RESULT <- v` (spec/10_state.md rule R26). -/
def State.setResult (s : State) (v : Word) : State := { s with result := v }

end Sys2Proof.Machine
end

