-- ==== Sys2Proof/WellFormed.lean ====
section
/-! DEFINITION. Which terms stand for something the hardware has. -/

namespace Sys2Proof

/-- An instruction that some word or first byte encodes. Every field value of a CMD32 command is
legal (spec/30_encoding.md rules R92, R96). `LIT` with count 0 is the byte of `END`, and `ABS` with
field 62 or 63 would be the byte of `FILL` or `LABS` (rule R101). -/
def Instr.wf : Instr → Bool
  | .sysNop | .sysClrerr | .biLdi _ _ | .biMov _ _ | .biLdbe _ _ | .biLdle _ _ | .biStbe _ _
  | .biStle _ _ | .biCmp _ _ | .biAdd _ _ _ | .biSub _ _ _ | .biShl1 _ _ | .biShr1 _ _
  | .biBit _ _ | .biHsb _ | .biTstz _ | .biMull _ _ _ | .biMulh _ _ _ | .modMul _ _ _ _
  | .modExp _ _ _ _ | .bfSetkey | .bfEncb | .bfDecb | .bfEnc | .bfDec | .bfClrkey
  | .lcwDec | .rel _ _ | .endMark | .fill | .labs => true
  | .lit n => n != 0#6
  | .abs n => n != 62#6 && n != 63#6

/-- A stream command that its encoding can express (spec/30_encoding.md rules R102, R107). -/
def StreamCommand.wf : StreamCommand → Bool
  | .rel count distance => 3 ≤ count && count ≤ 10 && distance ≤ 4095
  | .endMark => true
  | .lit data => 1 ≤ data.length && data.length ≤ 63
  | .abs count pos => 3 ≤ count && count ≤ 64 && pos ≤ 65535
  | .fill count _ => count ≤ 65535
  | .labs count pos => count ≤ 65535 && pos ≤ 65535

/-- A region that lies inside the address space. -/
def Config.Region.wf (r : Config.Region) : Bool := r.base + r.size ≤ Config.addressLimit

/-- A platform the spec admits: the window base is 4-byte aligned (spec/92_eei_decisions.md, "Open
parameters, collected") and every region lies inside the address space. -/
def Config.Platform.wf (p : Config.Platform) : Bool :=
  p.hostBase % 4 == 0 && p.memMap.all Config.Region.wf

end Sys2Proof
end

