-- ==== Sys2Proof/Decode.lean ====
section
/-! DEFINITION. Decoding, total on every word and byte, and encoding, both from the tables of
spec/30_encoding.md: CMD32 words (rules R90 to R100) and LCW stream bytes (rules R101 to R107). -/

namespace Sys2Proof

/-! ### CMD32 words -/

/-- Why a word is no command (spec/30_encoding.md rule R98). -/
inductive DecodeError where
  /-- bits 31:24 are in no row of the opcode map -/
  | reservedOpcode (op : Byte)
  /-- the opcode is listed and a must-be-zero bit is 1 -/
  | mustBeZero (op : Byte)
deriving DecidableEq, Repr

/-- What the decoder reads: a command word written to `CMD`, or the first byte of a stream
command. -/
inductive Code where
  | cmd (w : Word)
  | stream (b : Byte)
deriving DecidableEq, Repr

/-- The fields of a command word (spec/30_encoding.md rules R90 to R94). -/
def fieldOp (w : Word) : Byte := w.extractLsb' 24 8
/-- Bits 23:20. -/
def fieldRd (w : Word) : Reg := w.extractLsb' 20 4
/-- Bits 19:16. -/
def fieldRa (w : Word) : Reg := w.extractLsb' 16 4
/-- Bits 15:12. -/
def fieldRb (w : Word) : Reg := w.extractLsb' 12 4
/-- Bits 11:8. -/
def fieldRc (w : Word) : Reg := w.extractLsb' 8 4
/-- Bits 19:0. -/
def fieldImm20 (w : Word) : BitVec 20 := w.extractLsb' 0 20
/-- Bits 15:0. -/
def fieldImm16 (w : Word) : BitVec 16 := w.extractLsb' 0 16

/-- `i`, if the bits that `mask` names are all 0 in `w` (spec/30_encoding.md rules R95, R98). -/
def ifZero (w mask : Word) (i : Instr) : Except DecodeError Instr :=
  if w &&& mask = 0#32 then .ok i else .error (.mustBeZero (fieldOp w))

/-- The command a word stands for (spec/30_encoding.md rules R90, R95, R97, R98). The mask of each
row holds its must-be-zero bits outside the opcode. -/
def decodeCmd (w : Word) : Except DecodeError Instr :=
  let rd := fieldRd w
  let ra := fieldRa w
  let rb := fieldRb w
  let rc := fieldRc w
  match (fieldOp w).toNat with
  | 0x00 => ifZero w 0x00FFFFFF#32 .sysNop
  | 0x01 => ifZero w 0x00FFFFFF#32 .sysClrerr
  | 0x10 => .ok (.biLdi rd (fieldImm20 w))
  | 0x11 => ifZero w 0x0000FFFF#32 (.biMov rd ra)
  | 0x12 => ifZero w 0x000F0000#32 (.biLdbe rd (fieldImm16 w))
  | 0x13 => ifZero w 0x000F0000#32 (.biLdle rd (fieldImm16 w))
  | 0x14 => ifZero w 0x00F00000#32 (.biStbe ra (fieldImm16 w))
  | 0x15 => ifZero w 0x00F00000#32 (.biStle ra (fieldImm16 w))
  | 0x18 => ifZero w 0x00F00FFF#32 (.biCmp ra rb)
  | 0x19 => ifZero w 0x00000FFF#32 (.biAdd rd ra rb)
  | 0x1A => ifZero w 0x00000FFF#32 (.biSub rd ra rb)
  | 0x1B => ifZero w 0x0000FFFF#32 (.biShl1 rd ra)
  | 0x1C => ifZero w 0x0000FFFF#32 (.biShr1 rd ra)
  | 0x1D => ifZero w 0x00F00000#32 (.biBit ra (fieldImm16 w))
  | 0x1E => ifZero w 0x00F0FFFF#32 (.biHsb ra)
  | 0x1F => ifZero w 0x00F0FFFF#32 (.biTstz ra)
  | 0x20 => ifZero w 0x00000FFF#32 (.biMull rd ra rb)
  | 0x21 => ifZero w 0x00000FFF#32 (.biMulh rd ra rb)
  | 0x28 => ifZero w 0x000000FF#32 (.modMul rd ra rb rc)
  | 0x29 => ifZero w 0x000000FF#32 (.modExp rd ra rb rc)
  | 0x30 => ifZero w 0x00FFFFFF#32 .bfSetkey
  | 0x31 => ifZero w 0x00FFFFFF#32 .bfEncb
  | 0x32 => ifZero w 0x00FFFFFF#32 .bfDecb
  | 0x33 => ifZero w 0x00FFFFFF#32 .bfEnc
  | 0x34 => ifZero w 0x00FFFFFF#32 .bfDec
  | 0x35 => ifZero w 0x00FFFFFF#32 .bfClrkey
  | 0x40 => ifZero w 0x00FFFFFF#32 .lcwDec
  | _ => .error (.reservedOpcode (fieldOp w))

/-! ### LCW stream bytes -/

/-- The stream command a first byte selects, total (spec/30_encoding.md rules R101, R103). -/
def decodeStreamByte (c : Byte) : Instr :=
  if c.extractLsb' 7 1 = 0#1 then .rel (c.extractLsb' 4 3) (c.extractLsb' 0 4)
  else if c = 0x80#8 then .endMark
  else if c = 0xFE#8 then .fill
  else if c = 0xFF#8 then .labs
  else if c.extractLsb' 6 1 = 0#1 then .lit (c.extractLsb' 0 6)
  else .abs (c.extractLsb' 0 6)

/-- The decoder. -/
def decode : Code → Except DecodeError Instr
  | .cmd w => decodeCmd w
  | .stream b => .ok (decodeStreamByte b)

/-- `LE16(x, y)`: the first byte is the less significant (spec/20_memory.md rule R65). -/
def le16 (x y : Byte) : Nat := x.toNat + 256 * y.toNat

/-- `count` of `REL` (spec/30_encoding.md rule R102). -/
def relCount (ccc : BitVec 3) : Nat := ccc.toNat + 3

/-- `distance` of `REL` (spec/30_encoding.md rule R102). -/
def relDistance (dddd : BitVec 4) (next : Byte) : Nat := dddd.toNat * 256 + next.toNat

/-- `count` of `LIT` (spec/30_encoding.md rule R102). -/
def litCount (n : BitVec 6) : Nat := n.toNat

/-- `count` of `ABS` (spec/30_encoding.md rule R102). -/
def absCount (n : BitVec 6) : Nat := n.toNat + 3

/-- The length in bytes of the stream command that begins with `c`, from that byte alone
(spec/30_encoding.md rule R104). -/
def streamLength (c : Byte) : Nat :=
  if c.toNat < 0x80 then 2
  else if c.toNat = 0x80 then 1
  else if c.toNat < 0xC0 then 1 + (c &&& 0x3F#8).toNat
  else if c.toNat < 0xFE then 3
  else if c.toNat = 0xFE then 4
  else 5

/-- The stream command at the head of a byte list, with its operands assembled, and the bytes
after it; `none` where bytes are missing (spec/30_encoding.md rules R101 to R104). -/
def parseStream (bytes : List Byte) : Option (StreamCommand × List Byte) :=
  match bytes with
  | [] => none
  | c :: rest =>
    if rest.length + 1 < streamLength c then none
    else
      let byte (k : Nat) : Byte := rest.getD (k - 1) 0#8
      let after := rest.drop (streamLength c - 1)
      match decodeStreamByte c with
      | .rel ccc dddd => some (.rel (relCount ccc) (relDistance dddd (byte 1)), after)
      | .endMark => some (.endMark, after)
      | .lit n => some (.lit (rest.take (litCount n)), after)
      | .abs n => some (.abs (absCount n) (le16 (byte 1) (byte 2)), after)
      | .fill => some (.fill (le16 (byte 1) (byte 2)) (byte 3), after)
      | .labs => some (.labs (le16 (byte 1) (byte 2)) (le16 (byte 3) (byte 4)), after)
      | .sysNop | .sysClrerr | .biLdi _ _ | .biMov _ _ | .biLdbe _ _ | .biLdle _ _ | .biStbe _ _
      | .biStle _ _ | .biCmp _ _ | .biAdd _ _ _ | .biSub _ _ _ | .biShl1 _ _ | .biShr1 _ _
      | .biBit _ _ | .biHsb _ | .biTstz _ | .biMull _ _ _ | .biMulh _ _ _ | .modMul _ _ _ _
      | .modExp _ _ _ _ | .bfSetkey | .bfEncb | .bfDecb | .bfEnc | .bfDec | .bfClrkey
      | .lcwDec => none

/-! ### Encoding -/

/-- Format `Z` (spec/30_encoding.md rules R91, R100). -/
def formatZ (op : Byte) : Word := op.setWidth 32 <<< 24

/-- Format `R` (spec/30_encoding.md rules R92, R100). -/
def formatR (op : Byte) (rd ra rb rc : Reg) : Word :=
  (op.setWidth 32 <<< 24) ||| (rd.setWidth 32 <<< 20) ||| (ra.setWidth 32 <<< 16)
    ||| (rb.setWidth 32 <<< 12) ||| (rc.setWidth 32 <<< 8)

/-- Format `I20` (spec/30_encoding.md rules R93, R100). -/
def formatI20 (op : Byte) (rd : Reg) (imm : BitVec 20) : Word :=
  (op.setWidth 32 <<< 24) ||| (rd.setWidth 32 <<< 20) ||| imm.setWidth 32

/-- Format `I16` (spec/30_encoding.md rules R94, R100). -/
def formatI16 (op : Byte) (rd ra : Reg) (imm : BitVec 16) : Word :=
  (op.setWidth 32 <<< 24) ||| (rd.setWidth 32 <<< 20) ||| (ra.setWidth 32 <<< 16)
    ||| imm.setWidth 32

/-- The word, or the first stream byte, of an instruction (spec/30_encoding.md rules R97, R100,
R101). -/
def encode : Instr → Code
  | .sysNop => .cmd (formatZ 0x00#8)
  | .sysClrerr => .cmd (formatZ 0x01#8)
  | .biLdi rd imm => .cmd (formatI20 0x10#8 rd imm)
  | .biMov rd ra => .cmd (formatR 0x11#8 rd ra 0#4 0#4)
  | .biLdbe rd len => .cmd (formatI16 0x12#8 rd 0#4 len)
  | .biLdle rd len => .cmd (formatI16 0x13#8 rd 0#4 len)
  | .biStbe ra len => .cmd (formatI16 0x14#8 0#4 ra len)
  | .biStle ra len => .cmd (formatI16 0x15#8 0#4 ra len)
  | .biCmp ra rb => .cmd (formatR 0x18#8 0#4 ra rb 0#4)
  | .biAdd rd ra rb => .cmd (formatR 0x19#8 rd ra rb 0#4)
  | .biSub rd ra rb => .cmd (formatR 0x1A#8 rd ra rb 0#4)
  | .biShl1 rd ra => .cmd (formatR 0x1B#8 rd ra 0#4 0#4)
  | .biShr1 rd ra => .cmd (formatR 0x1C#8 rd ra 0#4 0#4)
  | .biBit ra idx => .cmd (formatI16 0x1D#8 0#4 ra idx)
  | .biHsb ra => .cmd (formatR 0x1E#8 0#4 ra 0#4 0#4)
  | .biTstz ra => .cmd (formatR 0x1F#8 0#4 ra 0#4 0#4)
  | .biMull rd ra rb => .cmd (formatR 0x20#8 rd ra rb 0#4)
  | .biMulh rd ra rb => .cmd (formatR 0x21#8 rd ra rb 0#4)
  | .modMul rd ra rb rc => .cmd (formatR 0x28#8 rd ra rb rc)
  | .modExp rd ra rb rc => .cmd (formatR 0x29#8 rd ra rb rc)
  | .bfSetkey => .cmd (formatZ 0x30#8)
  | .bfEncb => .cmd (formatZ 0x31#8)
  | .bfDecb => .cmd (formatZ 0x32#8)
  | .bfEnc => .cmd (formatZ 0x33#8)
  | .bfDec => .cmd (formatZ 0x34#8)
  | .bfClrkey => .cmd (formatZ 0x35#8)
  | .lcwDec => .cmd (formatZ 0x40#8)
  | .rel ccc dddd => .stream ((ccc.setWidth 8 <<< 4) ||| dddd.setWidth 8)
  | .endMark => .stream 0x80#8
  | .lit n => .stream (0x80#8 ||| n.setWidth 8)
  | .abs n => .stream (0xC0#8 ||| n.setWidth 8)
  | .fill => .stream 0xFE#8
  | .labs => .stream 0xFF#8

/-- The bytes of a stream command (spec/30_encoding.md rule R107). -/
def StreamCommand.encode : StreamCommand → List Byte
  | .rel c d => [BitVec.ofNat 8 (((c - 3) <<< 4) ||| (d >>> 8)), BitVec.ofNat 8 d]
  | .endMark => [0x80#8]
  | .lit data => BitVec.ofNat 8 (0x80 ||| data.length) :: data
  | .abs c p => [BitVec.ofNat 8 (0xC0 ||| (c - 3)), BitVec.ofNat 8 p, BitVec.ofNat 8 (p >>> 8)]
  | .fill c v => [0xFE#8, BitVec.ofNat 8 c, BitVec.ofNat 8 (c >>> 8), v]
  | .labs c p =>
    [0xFF#8, BitVec.ofNat 8 c, BitVec.ofNat 8 (c >>> 8), BitVec.ofNat 8 p, BitVec.ofNat 8 (p >>> 8)]

/-! ### The opcode map as a table, and assembler text -/

/-- A row of the opcode map (spec/30_encoding.md rule R97). -/
structure OpRow where
  mnemonic : String
  opmatch  : Word
  mask     : Word
deriving DecidableEq, Repr

/-- The opcode map, row by row as spec/30_encoding.md rule R97 prints it. -/
def opcodeMap : List OpRow :=
  [ ⟨"SYS.NOP", 0x00000000#32, 0xFFFFFFFF#32⟩, ⟨"SYS.CLRERR", 0x01000000#32, 0xFFFFFFFF#32⟩,
    ⟨"BI.LDI", 0x10000000#32, 0xFF000000#32⟩, ⟨"BI.MOV", 0x11000000#32, 0xFF00FFFF#32⟩,
    ⟨"BI.LDBE", 0x12000000#32, 0xFF0F0000#32⟩, ⟨"BI.LDLE", 0x13000000#32, 0xFF0F0000#32⟩,
    ⟨"BI.STBE", 0x14000000#32, 0xFFF00000#32⟩, ⟨"BI.STLE", 0x15000000#32, 0xFFF00000#32⟩,
    ⟨"BI.CMP", 0x18000000#32, 0xFFF00FFF#32⟩ ] ++
  [ ⟨"BI.ADD", 0x19000000#32, 0xFF000FFF#32⟩, ⟨"BI.SUB", 0x1A000000#32, 0xFF000FFF#32⟩,
    ⟨"BI.SHL1", 0x1B000000#32, 0xFF00FFFF#32⟩, ⟨"BI.SHR1", 0x1C000000#32, 0xFF00FFFF#32⟩,
    ⟨"BI.BIT", 0x1D000000#32, 0xFFF00000#32⟩, ⟨"BI.HSB", 0x1E000000#32, 0xFFF0FFFF#32⟩,
    ⟨"BI.TSTZ", 0x1F000000#32, 0xFFF0FFFF#32⟩, ⟨"BI.MULL", 0x20000000#32, 0xFF000FFF#32⟩,
    ⟨"BI.MULH", 0x21000000#32, 0xFF000FFF#32⟩ ] ++
  [ ⟨"MOD.MUL", 0x28000000#32, 0xFF0000FF#32⟩, ⟨"MOD.EXP", 0x29000000#32, 0xFF0000FF#32⟩,
    ⟨"BF.SETKEY", 0x30000000#32, 0xFFFFFFFF#32⟩, ⟨"BF.ENCB", 0x31000000#32, 0xFFFFFFFF#32⟩,
    ⟨"BF.DECB", 0x32000000#32, 0xFFFFFFFF#32⟩, ⟨"BF.ENC", 0x33000000#32, 0xFFFFFFFF#32⟩,
    ⟨"BF.DEC", 0x34000000#32, 0xFFFFFFFF#32⟩, ⟨"BF.CLRKEY", 0x35000000#32, 0xFFFFFFFF#32⟩,
    ⟨"LCW.DEC", 0x40000000#32, 0xFFFFFFFF#32⟩ ]

/-- The mnemonic of an instruction, as spec/opcode_table.json spells it. -/
def Instr.mnemonic : Instr → String
  | .sysNop => "SYS.NOP"
  | .sysClrerr => "SYS.CLRERR"
  | .biLdi _ _ => "BI.LDI"
  | .biMov _ _ => "BI.MOV"
  | .biLdbe _ _ => "BI.LDBE"
  | .biLdle _ _ => "BI.LDLE"
  | .biStbe _ _ => "BI.STBE"
  | .biStle _ _ => "BI.STLE"
  | .biCmp _ _ => "BI.CMP"
  | .biAdd _ _ _ => "BI.ADD"
  | .biSub _ _ _ => "BI.SUB"
  | .biShl1 _ _ => "BI.SHL1"
  | .biShr1 _ _ => "BI.SHR1"
  | .biBit _ _ => "BI.BIT"
  | .biHsb _ => "BI.HSB"
  | .biTstz _ => "BI.TSTZ"
  | .biMull _ _ _ => "BI.MULL"
  | .biMulh _ _ _ => "BI.MULH"
  | .modMul _ _ _ _ => "MOD.MUL"
  | .modExp _ _ _ _ => "MOD.EXP"
  | .bfSetkey => "BF.SETKEY"
  | .bfEncb => "BF.ENCB"
  | .bfDecb => "BF.DECB"
  | .bfEnc => "BF.ENC"
  | .bfDec => "BF.DEC"
  | .bfClrkey => "BF.CLRKEY"
  | .lcwDec => "LCW.DEC"
  | .rel _ _ => "REL"
  | .endMark => "END"
  | .lit _ => "LIT"
  | .abs _ => "ABS"
  | .fill => "FILL"
  | .labs => "LABS"

/-- The pseudo-instruction `BI.ZERO rd` (spec/30_encoding.md rule R106). -/
def pseudoBiZero (rd : Reg) : Instr := .biLdi rd 0#20

/-- The pseudo-instruction `BI.ONE rd` (spec/30_encoding.md rule R106). -/
def pseudoBiOne (rd : Reg) : Instr := .biLdi rd 1#20

/-- Assembler text of a register (spec/30_encoding.md rule R105). -/
def asmReg (r : Reg) : String := "B" ++ toString r.toNat

/-- A mnemonic and its operands, separated by commas (spec/30_encoding.md rule R105). -/
def asmLine (m : String) (operands : List String) : String :=
  if operands.isEmpty then m else m ++ " " ++ String.intercalate ", " operands

/-- Assembler text of a CMD32 command, destination first, immediates in decimal
(spec/30_encoding.md rule R105); a stream command has its text with its operands
(`StreamCommand.asm`), so here it is its mnemonic alone. -/
def Instr.asm (i : Instr) : String :=
  asmLine i.mnemonic <|
    match i with
    | .biLdi rd imm => [asmReg rd, toString imm.toNat]
    | .biMov rd ra | .biShl1 rd ra | .biShr1 rd ra => [asmReg rd, asmReg ra]
    | .biLdbe r len | .biLdle r len | .biStbe r len | .biStle r len => [asmReg r, toString len.toNat]
    | .biBit ra idx => [asmReg ra, toString idx.toNat]
    | .biCmp ra rb => [asmReg ra, asmReg rb]
    | .biHsb ra | .biTstz ra => [asmReg ra]
    | .biAdd rd ra rb | .biSub rd ra rb | .biMull rd ra rb | .biMulh rd ra rb =>
      [asmReg rd, asmReg ra, asmReg rb]
    | .modMul rd ra rb rc | .modExp rd ra rb rc => [asmReg rd, asmReg ra, asmReg rb, asmReg rc]
    | .sysNop | .sysClrerr | .bfSetkey | .bfEncb | .bfDecb | .bfEnc | .bfDec | .bfClrkey | .lcwDec
    | .rel _ _ | .endMark | .lit _ | .abs _ | .fill | .labs => []

/-- A data byte as two upper-case hexadecimal digits (spec/95_test_vectors.md, section 4). -/
def asmByte (b : Byte) : String :=
  String.ofList [(Nat.digitChar (b.toNat / 16)).toUpper, (Nat.digitChar (b.toNat % 16)).toUpper]

/-- Assembler text of a stream command (spec/30_encoding.md rule R107). -/
def StreamCommand.asm : StreamCommand → String
  | .rel c d => asmLine "REL" [toString c, toString d]
  | .endMark => "END"
  | .lit data => "LIT " ++ String.intercalate " " (data.map asmByte)
  | .abs c p => asmLine "ABS" [toString c, toString p]
  | .fill c v => asmLine "FILL" [toString c, asmByte v]
  | .labs c p => asmLine "LABS" [toString c, toString p]

/-- What the decoder reads from a table row's bits: a 32-bit command word, or the first byte of a
stream command (its operand bytes are no part of what selects it). -/
def decodeTableWord (nbits w : Nat) : Option Instr :=
  if nbits = 32 then (decode (.cmd (BitVec.ofNat 32 w))).toOption
  else if nbits = 8 then (decode (.stream (BitVec.ofNat 8 w))).toOption
  else none

end Sys2Proof
end

