-- ==== Sys2Proof/Machine/Ops.lean ====
section
/-! DEFINITION. The named operations every meaning is built from: memory in canonical form, the
BigInt registers, the error record (taking an error is `State.raise`), regions and the checks a
memory command makes before its first access. -/

namespace Sys2Proof.Machine

/-! ### Memory -/

/-- The byte at address `a` (spec/20_memory.md rule R68); `Config.unlistedByte` where nothing is
listed. -/
def memRead : List Host.Cell → Nat → Byte
  | [], _ => Config.unlistedByte
  | c :: rest, a => if c.1 = a then c.2 else memRead rest a

/-- `c` put before the first cell of a greater address. -/
def memInsert (c : Host.Cell) : List Host.Cell → List Host.Cell
  | [] => [c]
  | d :: rest => if c.1 < d.1 then c :: d :: rest else d :: memInsert c rest

/-- Memory after byte `v` is written at `a`: every other address reads as before, and a byte equal
to what an unlisted address reads as is not listed. -/
def memWrite (m : List Host.Cell) (a : Nat) (v : Byte) : List Host.Cell :=
  let others := m.filter fun c => c.1 != a
  if v = Config.unlistedByte then others else memInsert (a, v) others

/-- The canonical form from address `lo` on: addresses strictly rising, inside the address space,
no cell equal to what an unlisted address reads as. -/
def memWfFrom : Nat → List Host.Cell → Bool
  | _, [] => true
  | lo, c :: rest =>
    decide (lo ≤ c.1) && decide (c.1 < Config.addressLimit) && c.2 != Config.unlistedByte
      && memWfFrom (c.1 + 1) rest

/-- The canonical form of memory. -/
def memWf (m : List Host.Cell) : Bool := memWfFrom 0 m

/-- Memory whose byte at each address is that of `new` where `pick` says so and that of `old`
elsewhere (spec/70_reset_and_hazards.md rule R331). -/
def memMix (pick : Nat → Bool) (old new : List Host.Cell) : List Host.Cell :=
  (old.map Prod.fst ++ new.map Prod.fst).foldl
    (fun m a => memWrite m a (if pick a then memRead new a else memRead old a)) old

/-- `MemRead(a, 1)` (spec/00_scope.md rule R9). -/
def State.readByte (s : State) (a : Word) : Byte := memRead s.mem a.toNat

/-- `MemWrite(a, 1, [v])` (spec/00_scope.md rule R9). -/
def State.writeByte (s : State) (a : Word) (v : Byte) : State :=
  { s with mem := memWrite s.mem a.toNat v }

/-- `MemRead(a, n)`: bytes at ascending addresses (spec/20_memory.md rule R60), computed modulo 2^32
(log 13). -/
def readBytes (s : State) : Word → Nat → List Byte
  | _, 0 => []
  | a, n + 1 => s.readByte a :: readBytes s (a + 1#32) n

/-- `MemWrite(a, n, bytes)`: bytes at ascending addresses, in that order (spec/20_memory.md rule
R60). -/
def writeBytes : Word → List Byte → State → State
  | _, [], s => s
  | a, v :: rest, s => writeBytes (a + 1#32) rest (s.writeByte a v)

/-- `n` times one byte read, then one byte written, in ascending order; a read sees the writes
before it (spec/44_lcw.md rule R224, spec/20_memory.md rule R75). -/
def copyBytes : Word → Word → Nat → State → State
  | _, _, 0, s => s
  | src, dst, n + 1, s => copyBytes (src + 1#32) (dst + 1#32) n (s.writeByte dst (s.readByte src))

/-- Byte `v` written at `n` ascending addresses from `dst` (spec/44_lcw.md rule R234). -/
def fillBytes : Word → Byte → Nat → State → State
  | _, _, 0, s => s
  | dst, v, n + 1, s => fillBytes (dst + 1#32) v n (s.writeByte dst v)

/-! ### Registers -/

/-- `B[r]` (spec/00_scope.md rule R9, spec/10_state.md rule R32). -/
def State.getB (s : State) (r : Reg) : Big := s.b[r.toNat]

/-- `B[r] <- v`. -/
def State.setB (s : State) (r : Reg) (v : Big) : State :=
  { s with b := s.b.set r.toNat v }

/-! ### The error record -/

/-- The value `STATUS.ERR` takes (spec/60_exceptions.md rule R291). -/
def errCode : Err → Byte
  | .ok => 0x00#8
  | .illegal => 0x01#8
  | .operand => 0x02#8
  | .modZero => 0x03#8
  | .noKey => 0x04#8
  | .keyLen => 0x05#8
  | .length => 0x06#8
  | .range => 0x07#8
  | .overlap => 0x08#8
  | .bus => 0x09#8

/-- The value `STATUS.LCW_STOP` takes (spec/44_lcw.md rule R226). -/
def stopCode : LcwStop → BitVec 3
  | .unset => 0#3
  | .endMark => 1#3
  | .srcEnd => 2#3
  | .abortSrc => 3#3
  | .abortDst => 4#3
  | .abortRef => 5#3

/-- `raise Error(e)`: the error record and nothing else (spec/60_exceptions.md rule R292). -/
def State.raise (s : State) (e : Err) : State :=
  { s with status := { s.status with err := e, errs := true } }

/-- What every command that ends without error does to the record: `ERR` is 0 and `ERRS` stays
(spec/60_exceptions.md rule R293). -/
def State.succeed (s : State) : State :=
  { s with status := { s.status with err := .ok } }

/-! ### Regions and the checks before the first access -/

/-- A region: a base address and a length in bytes (spec/20_memory.md rule R70). -/
structure Span where
  base : Nat
  len  : Nat
deriving DecidableEq, Repr

/-- An empty region passes; a non-empty one must not run past 2^32 (spec/20_memory.md rule R70). -/
def spanInRange (r : Span) : Bool := r.len == 0 || decide (r.base + r.len ≤ Config.addressLimit)

/-- Two non-empty regions share a byte (spec/20_memory.md rule R71). -/
def spansOverlap (r q : Span) : Bool :=
  r.len != 0 && q.len != 0 && decide (r.base < q.base + q.len) && decide (q.base < r.base + r.len)

/-- Two regions share a byte and are not identical (spec/20_memory.md rule R71). -/
def spansPartlyOverlap (r q : Span) : Bool := spansOverlap r q && r != q

/-- `MemValid(a)`: some region of the platform's map holds address `a` (spec/20_memory.md R64). -/
def memValid (p : Config.Platform) (a : Nat) : Bool :=
  p.memMap.any fun g => decide (g.base ≤ a) && decide (a < g.base + g.size)

/-- Some device region holds address `a` (spec/20_memory.md rule R68). -/
def isDevice (p : Config.Platform) (a : Nat) : Bool :=
  p.memMap.any fun g =>
    g.kind == .device && decide (g.base ≤ a) && decide (a < g.base + g.size)

/-- What region `g` leaves of the addresses from `piece.1` up to, not including, `piece.2`. -/
def cutPiece (g : Config.Region) (piece : Nat × Nat) : List (Nat × Nat) :=
  [(piece.1, min piece.2 g.base), (max piece.1 (g.base + g.size), piece.2)].filter
    fun q => decide (q.1 < q.2)

/-- Every byte of the region is `MemValid` (spec/20_memory.md rule R64): after each region of the
map is cut away, nothing is left. `Sys2Proof.Laws.spanValid_iff` says so byte by byte. -/
def spanValid (p : Config.Platform) (r : Span) : Bool :=
  (p.memMap.foldl (fun pieces g => pieces.flatMap (cutPiece g))
    ([(r.base, r.base + r.len)].filter fun q => decide (q.1 < q.2))).isEmpty

/-- Some byte of the region lies in a device (spec/20_memory.md rule R68). -/
def spanTouchesDevice (p : Config.Platform) (r : Span) : Bool :=
  p.memMap.any fun g => g.kind == .device && spansOverlap r { base := g.base, len := g.size }

/-- The address checks of a memory command on its regions, in their order: `ERR_RANGE`,
`ERR_OVERLAP` (`clash` says the regions overlap in a way the command forbids), `ERR_BUS`
(spec/60_exceptions.md rules R299 to R301, R303). -/
def portError (p : Config.Platform) (spans : List Span) (clash : Bool) : Option Err :=
  if !spans.all spanInRange then some .range
  else if clash then some .overlap
  else if !spans.all (spanValid p) then some .bus
  else none

/-- A memory command: the address checks, the refusal of a device region, then the command itself
(spec/20_memory.md rules R64, R68; spec/60_exceptions.md rule R292). -/
def launch (s : State) (spans : List Span) (clash : Bool) (run : State → Outcome) : Outcome :=
  match portError s.platform spans clash with
  | some e => .next (s.raise e)
  | none => if spans.any (spanTouchesDevice s.platform) then .refused .deviceRegion else run s

end Sys2Proof.Machine
end

