-- ==== Sys2Proof/Machine/Operands.lean ====
section
/-! DEFINITION. Operand forms: byte images of BigInt values and of Blowfish halves, the regions a
command names through the operand registers, one-bit results. -/

namespace Sys2Proof.Machine

/-- `FromLE(bytes)`: the first byte is the least significant (spec/20_memory.md rule R62). -/
def fromLE : List Byte → Nat
  | [] => 0
  | v :: rest => v.toNat + 256 * fromLE rest

/-- `FromBE(bytes)`: the first byte is the most significant (spec/20_memory.md rule R62). -/
def fromBE (bytes : List Byte) : Nat := fromLE bytes.reverse

/-- `ToLE(v, n)` (spec/20_memory.md rule R62). -/
def toLE (v : Big) (n : Nat) : List Byte := (List.range n).map fun i => v.extractLsb' (8 * i) 8

/-- `ToBE(v, n)`: the same `n` low bytes, the most significant of them first (spec/20_memory.md
rule R62). -/
def toBE (v : Big) (n : Nat) : List Byte := (toLE v n).reverse

/-- `BE32(b0, b1, b2, b3)` (spec/00_scope.md rule R8). -/
def be32 (b0 b1 b2 b3 : Byte) : Word :=
  (b0.setWidth 32 <<< 24) ||| (b1.setWidth 32 <<< 16) ||| (b2.setWidth 32 <<< 8) ||| b3.setWidth 32

/-- The four bytes of a half, most significant first (spec/20_memory.md rule R63). -/
def wordBytes (w : Word) : List Byte :=
  [w.extractLsb' 24 8, w.extractLsb' 16 8, w.extractLsb' 8 8, w.extractLsb' 0 8]

/-- The halves `(L, R)` of the 8 bytes at address `a` (spec/20_memory.md rule R63). -/
def readBlock (s : State) (a : Word) : Word × Word :=
  (be32 (s.readByte a) (s.readByte (a + 1#32)) (s.readByte (a + 2#32)) (s.readByte (a + 3#32)),
   be32 (s.readByte (a + 4#32)) (s.readByte (a + 5#32)) (s.readByte (a + 6#32))
     (s.readByte (a + 7#32)))

/-- The 8 bytes of `(L, R)` written from address `a` (spec/20_memory.md rule R63). -/
def writeBlock (a : Word) (lr : Word × Word) (s : State) : State :=
  writeBytes a (wordBytes lr.1 ++ wordBytes lr.2) s

/-- The source region of length `n` (spec/10_state.md rule R27). -/
def srcSpan (s : State) (n : Nat) : Span := { base := s.srcAddr.toNat, len := n }

/-- The destination region of length `n` (spec/10_state.md rule R29). -/
def dstSpan (s : State) (n : Nat) : Span := { base := s.dstAddr.toNat, len := n }

/-- A one-bit value as a register value (`zext_32`, spec/00_scope.md rule R9). -/
def bitWord (v : Bool) : Word := if v then 1#32 else 0#32

/-- A number below 2^320 as a BigInt value. -/
def bigOf (n : Nat) : Big := BitVec.ofNat 320 n

end Sys2Proof.Machine
end

