-- ==== Sys2Proof/Machine/BigInt.lean ====
section
/-! DEFINITION. The BigInt320 commands (spec/40_bigint.md). Every meaning reads its sources before
it writes (spec/70_reset_and_hazards.md rule R343). -/

namespace Sys2Proof.Machine

/-- A BigInt load: the checks of spec/40_bigint.md rule R137, then `B[rd]` from the `len` bytes at
`SRC_ADDR` by `image` (rules R122, R123). -/
def loadBig (image : List Byte → Nat) (rd : Reg) (len : BitVec 16) (s : State) : Outcome :=
  if 40 < len.toNat then .next (s.raise .operand)
  else launch s [srcSpan s len.toNat] false fun s =>
    .next (s.setB rd (bigOf (image (readBytes s s.srcAddr len.toNat)))).succeed

/-- A BigInt store: the same checks on the destination region, then the `len` bytes of `B[ra]` by
`image` at `DST_ADDR` (spec/40_bigint.md rules R124, R125). -/
def storeBig (image : Big → Nat → List Byte) (ra : Reg) (len : BitVec 16) (s : State) : Outcome :=
  if 40 < len.toNat then .next (s.raise .operand)
  else launch s [dstSpan s len.toNat] false fun s =>
    .next (writeBytes s.dstAddr (image (s.getB ra) len.toNat) s).succeed

/-- `BI.LDI` (spec/40_bigint.md rule R120). -/
def execBiLdi (rd : Reg) (imm : BitVec 20) (s : State) : Outcome :=
  .next (s.setB rd (imm.setWidth 320)).succeed

/-- `BI.MOV` (spec/40_bigint.md rule R121). -/
def execBiMov (rd ra : Reg) (s : State) : Outcome := .next (s.setB rd (s.getB ra)).succeed

/-- `BI.LDBE` (spec/40_bigint.md rule R122). -/
def execBiLdbe (rd : Reg) (len : BitVec 16) (s : State) : Outcome := loadBig fromBE rd len s

/-- `BI.LDLE` (spec/40_bigint.md rule R123). -/
def execBiLdle (rd : Reg) (len : BitVec 16) (s : State) : Outcome := loadBig fromLE rd len s

/-- `BI.STBE` (spec/40_bigint.md rule R124). -/
def execBiStbe (ra : Reg) (len : BitVec 16) (s : State) : Outcome := storeBig toBE ra len s

/-- `BI.STLE` (spec/40_bigint.md rule R125). -/
def execBiStle (ra : Reg) (len : BitVec 16) (s : State) : Outcome := storeBig toLE ra len s

/-- `BI.CMP` (spec/40_bigint.md rule R126). -/
def execBiCmp (ra rb : Reg) (s : State) : Outcome :=
  .next (s.setLtEq (ltOf (s.getB ra) (s.getB rb)) (eqOf (s.getB ra) (s.getB rb))).succeed

/-- `BI.ADD` (spec/40_bigint.md rule R127). -/
def execBiAdd (rd ra rb : Reg) (s : State) : Outcome :=
  let a := s.getB ra
  let b := s.getB rb
  .next ((s.setB rd (a + b)).setCZ (carryOfAdd a b) (zeroOf (a + b))).succeed

/-- `BI.SUB` (spec/40_bigint.md rule R128). -/
def execBiSub (rd ra rb : Reg) (s : State) : Outcome :=
  let a := s.getB ra
  let b := s.getB rb
  .next ((s.setB rd (a - b)).setCZ (borrowOfSub a b) (zeroOf (a - b))).succeed

/-- `BI.SHL1` (spec/40_bigint.md rule R129). -/
def execBiShl1 (rd ra : Reg) (s : State) : Outcome :=
  let a := s.getB ra
  .next ((s.setB rd (a <<< 1)).setCZ (carryOfShl a) (zeroOf (a <<< 1))).succeed

/-- `BI.SHR1` (spec/40_bigint.md rule R130). -/
def execBiShr1 (rd ra : Reg) (s : State) : Outcome :=
  let a := s.getB ra
  .next ((s.setB rd (a >>> 1)).setCZ (carryOfShr a) (zeroOf (a >>> 1))).succeed

/-- `BI.BIT` (spec/40_bigint.md rule R131): an index of 320 or more reads 0. -/
def execBiBit (ra : Reg) (idx : BitVec 16) (s : State) : Outcome :=
  let bit := if idx.toNat < 320 then (s.getB ra).getLsbD idx.toNat else false
  .next (s.setResult (bitWord bit)).succeed

/-- `BI.HSB` (spec/40_bigint.md rule R132). -/
def execBiHsb (ra : Reg) (s : State) : Outcome :=
  let a := s.getB ra
  .next (s.setResult (if a = 0#320 then 0xFFFFFFFF#32 else BitVec.ofNat 32 a.toNat.log2)).succeed

/-- `BI.TSTZ` (spec/40_bigint.md rule R133). -/
def execBiTstz (ra : Reg) (s : State) : Outcome :=
  let z := zeroOf (s.getB ra)
  .next ((s.setZ z).setResult (bitWord z)).succeed

/-- `BI.MULL`: bits 319:0 of the exact product (spec/40_bigint.md rule R134). -/
def execBiMull (rd ra rb : Reg) (s : State) : Outcome :=
  .next (s.setB rd (bigOf ((s.getB ra).toNat * (s.getB rb).toNat))).succeed

/-- `BI.MULH`: bits 639:320 of the exact product (spec/40_bigint.md rule R135). -/
def execBiMulh (rd ra rb : Reg) (s : State) : Outcome :=
  .next (s.setB rd (bigOf (((s.getB ra).toNat * (s.getB rb).toNat) >>> 320))).succeed

end Sys2Proof.Machine
end

