-- ==== Sys2Proof/Machine/BlowfishTables.lean ====
section
/-! DEFINITION. The initial Blowfish tables (spec/43_blowfish_tables.md rules R210 to R215). A row
is a line of the spec: eight words, the first in the most significant bits. PRESUMED (log 9): the
spec takes the words from general knowledge and confirms them by two vectors. -/

namespace Sys2Proof.Machine

/-- `P0[0..17]`, the first word in the most significant bits (rule R210). -/
def initialP : BitVec 576 :=
  0x243F6A88_85A308D3_13198A2E_03707344_A4093822_299F31D0_082EFA98_EC4E6C89#256 ++
  0x452821E6_38D01377_BE5466CF_34E90C6C_C0AC29B7_C97C50DD_3F84D5B5_B5470917#256 ++
  0x9216D5D9_8979FB1B#64

/-- `S0[0]`, entries 0 to 127 (rule R211). -/
def initialS0a : List (BitVec 256) :=
  [ 0xD1310BA6_98DFB5AC_2FFD72DB_D01ADFB7_B8E1AFED_6A267E96_BA7C9045_F12C7F99#256,
    0x24A19947_B3916CF7_0801F2E2_858EFC16_636920D8_71574E69_A458FEA3_F4933D7E#256,
    0x0D95748F_728EB658_718BCD58_82154AEE_7B54A41D_C25A59B5_9C30D539_2AF26013#256,
    0xC5D1B023_286085F0_CA417918_B8DB38EF_8E79DCB0_603A180E_6C9E0E8B_B01E8A3E#256,
    0xD71577C1_BD314B27_78AF2FDA_55605C60_E65525F3_AA55AB94_57489862_63E81440#256,
    0x55CA396A_2AAB10B6_B4CC5C34_1141E8CE_A15486AF_7C72E993_B3EE1411_636FBC2A#256,
    0x2BA9C55D_741831F6_CE5C3E16_9B87931E_AFD6BA33_6C24CF5C_7A325381_28958677#256,
    0x3B8F4898_6B4BB9AF_C4BFE81B_66282193_61D809CC_FB21A991_487CAC60_5DEC8032#256,
    0xEF845D5D_E98575B1_DC262302_EB651B88_23893E81_D396ACC5_0F6D6FF3_83F44239#256,
    0x2E0B4482_A4842004_69C8F04A_9E1F9B5E_21C66842_F6E96C9A_670C9C61_ABD388F0#256,
    0x6A51A0D2_D8542F68_960FA728_AB5133A3_6EEF0B6C_137A3BE4_BA3BF050_7EFB2A98#256,
    0xA1F1651D_39AF0176_66CA593E_82430E88_8CEE8619_456F9FB4_7D84A5C3_3B8B5EBE#256,
    0xE06F75D8_85C12073_401A449F_56C16AA6_4ED3AA62_363F7706_1BFEDF72_429B023D#256,
    0x37D0D724_D00A1248_DB0FEAD3_49F1C09B_075372C9_80991B7B_25D479D8_F6E8DEF7#256,
    0xE3FE501A_B6794C3B_976CE0BD_04C006BA_C1A94FB6_409F60C4_5E5C9EC2_196A2463#256,
    0x68FB6FAF_3E6C53B5_1339B2EB_3B52EC6F_6DFC511F_9B30952C_CC814544_AF5EBD09#256 ]

/-- `S0[0]`, entries 128 to 255 (rule R211). -/
def initialS0b : List (BitVec 256) :=
  [ 0xBEE3D004_DE334AFD_660F2807_192E4BB3_C0CBA857_45C8740F_D20B5F39_B9D3FBDB#256,
    0x5579C0BD_1A60320A_D6A100C6_402C7279_679F25FE_FB1FA3CC_8EA5E9F8_DB3222F8#256,
    0x3C7516DF_FD616B15_2F501EC8_AD0552AB_323DB5FA_FD238760_53317B48_3E00DF82#256,
    0x9E5C57BB_CA6F8CA0_1A87562E_DF1769DB_D542A8F6_287EFFC3_AC6732C6_8C4F5573#256,
    0x695B27B0_BBCA58C8_E1FFA35D_B8F011A0_10FA3D98_FD2183B8_4AFCB56C_2DD1D35B#256,
    0x9A53E479_B6F84565_D28E49BC_4BFB9790_E1DDF2DA_A4CB7E33_62FB1341_CEE4C6E8#256,
    0xEF20CADA_36774C01_D07E9EFE_2BF11FB4_95DBDA4D_AE909198_EAAD8E71_6B93D5A0#256,
    0xD08ED1D0_AFC725E0_8E3C5B2F_8E7594B7_8FF6E2FB_F2122B64_8888B812_900DF01C#256,
    0x4FAD5EA0_688FC31C_D1CFF191_B3A8C1AD_2F2F2218_BE0E1777_EA752DFE_8B021FA1#256,
    0xE5A0CC0F_B56F74E8_18ACF3D6_CE89E299_B4A84FE0_FD13E0B7_7CC43B81_D2ADA8D9#256,
    0x165FA266_80957705_93CC7314_211A1477_E6AD2065_77B5FA86_C75442F5_FB9D35CF#256,
    0xEBCDAF0C_7B3E89A0_D6411BD3_AE1E7E49_00250E2D_2071B35E_226800BB_57B8E0AF#256,
    0x2464369B_F009B91E_5563911D_59DFA6AA_78C14389_D95A537F_207D5BA2_02E5B9C5#256,
    0x83260376_6295CFA9_11C81968_4E734A41_B3472DCA_7B14A94A_1B510052_9A532915#256,
    0xD60F573F_BC9BC6E4_2B60A476_81E67400_08BA6FB5_571BE91F_F296EC6B_2A0DD915#256,
    0xB6636521_E7B9F9B6_FF34052E_C5855664_53B02D5D_A99F8FA1_08BA4799_6E85076A#256 ]

/-- `S0[1]`, entries 0 to 127 (rule R212). -/
def initialS1a : List (BitVec 256) :=
  [ 0x4B7A70E9_B5B32944_DB75092E_C4192623_AD6EA6B0_49A7DF7D_9CEE60B8_8FEDB266#256,
    0xECAA8C71_699A17FF_5664526C_C2B19EE1_193602A5_75094C29_A0591340_E4183A3E#256,
    0x3F54989A_5B429D65_6B8FE4D6_99F73FD6_A1D29C07_EFE830F5_4D2D38E6_F0255DC1#256,
    0x4CDD2086_8470EB26_6382E9C6_021ECC5E_09686B3F_3EBAEFC9_3C971814_6B6A70A1#256,
    0x687F3584_52A0E286_B79C5305_AA500737_3E07841C_7FDEAE5C_8E7D44EC_5716F2B8#256,
    0xB03ADA37_F0500C0D_F01C1F04_0200B3FF_AE0CF51A_3CB574B2_25837A58_DC0921BD#256,
    0xD19113F9_7CA92FF6_94324773_22F54701_3AE5E581_37C2DADC_C8B57634_9AF3DDA7#256,
    0xA9446146_0FD0030E_ECC8C73E_A4751E41_E238CD99_3BEA0E2F_3280BBA1_183EB331#256,
    0x4E548B38_4F6DB908_6F420D03_F60A04BF_2CB81290_24977C79_5679B072_BCAF89AF#256,
    0xDE9A771F_D9930810_B38BAE12_DCCF3F2E_5512721F_2E6B7124_501ADDE6_9F84CD87#256,
    0x7A584718_7408DA17_BC9F9ABC_E94B7D8C_EC7AEC3A_DB851DFA_63094366_C464C3D2#256,
    0xEF1C1847_3215D908_DD433B37_24C2BA16_12A14D43_2A65C451_50940002_133AE4DD#256,
    0x71DFF89E_10314E55_81AC77D6_5F11199B_043556F1_D7A3C76B_3C11183B_5924A509#256,
    0xF28FE6ED_97F1FBFA_9EBABF2C_1E153C6E_86E34570_EAE96FB1_860E5E0A_5A3E2AB3#256,
    0x771FE71C_4E3D06FA_2965DCB9_99E71D0F_803E89D6_5266C825_2E4CC978_9C10B36A#256,
    0xC6150EBA_94E2EA78_A5FC3C53_1E0A2DF4_F2F74EA7_361D2B3D_1939260F_19C27960#256 ]

/-- `S0[1]`, entries 128 to 255 (rule R212). -/
def initialS1b : List (BitVec 256) :=
  [ 0x5223A708_F71312B6_EBADFE6E_EAC31F66_E3BC4595_A67BC883_B17F37D1_018CFF28#256,
    0xC332DDEF_BE6C5AA5_65582185_68AB9802_EECEA50F_DB2F953B_2AEF7DAD_5B6E2F84#256,
    0x1521B628_29076170_ECDD4775_619F1510_13CCA830_EB61BD96_0334FE1E_AA0363CF#256,
    0xB5735C90_4C70A239_D59E9E0B_CBAADE14_EECC86BC_60622CA7_9CAB5CAB_B2F3846E#256,
    0x648B1EAF_19BDF0CA_A02369B9_655ABB50_40685A32_3C2AB4B3_319EE9D5_C021B8F7#256,
    0x9B540B19_875FA099_95F7997E_623D7DA8_F837889A_97E32D77_11ED935F_16681281#256,
    0x0E358829_C7E61FD6_96DEDFA1_7858BA99_57F584A5_1B227263_9B83C3FF_1AC24696#256,
    0xCDB30AEB_532E3054_8FD948E4_6DBC3128_58EBF2EF_34C6FFEA_FE28ED61_EE7C3C73#256,
    0x5D4A14D9_E864B7E3_42105D14_203E13E0_45EEE2B6_A3AAABEA_DB6C4F15_FACB4FD0#256,
    0xC742F442_EF6ABBB5_654F3B1D_41CD2105_D81E799E_86854DC7_E44B476A_3D816250#256,
    0xCF62A1F2_5B8D2646_FC8883A0_C1C7B6A3_7F1524C3_69CB7492_47848A0B_5692B285#256,
    0x095BBF00_AD19489D_1462B174_23820E00_58428D2A_0C55F5EA_1DADF43E_233F7061#256,
    0x3372F092_8D937E41_D65FECF1_6C223BDB_7CDE3759_CBEE7460_4085F2A7_CE77326E#256,
    0xA6078084_19F8509E_E8EFD855_61D99735_A969A7AA_C50C06C2_5A04ABFC_800BCADC#256,
    0x9E447A2E_C3453484_FDD56705_0E1E9EC9_DB73DBD3_105588CD_675FDA79_E3674340#256,
    0xC5C43465_713E38D8_3D28F89E_F16DFF20_153E21E7_8FB03D4A_E6E39F2B_DB83ADF7#256 ]

/-- `S0[2]`, entries 0 to 127 (rule R213). -/
def initialS2a : List (BitVec 256) :=
  [ 0xE93D5A68_948140F7_F64C261C_94692934_411520F7_7602D4F7_BCF46B2E_D4A20068#256,
    0xD4082471_3320F46A_43B7D4B7_500061AF_1E39F62E_97244546_14214F74_BF8B8840#256,
    0x4D95FC1D_96B591AF_70F4DDD3_66A02F45_BFBC09EC_03BD9785_7FAC6DD0_31CB8504#256,
    0x96EB27B3_55FD3941_DA2547E6_ABCA0A9A_28507825_530429F4_0A2C86DA_E9B66DFB#256,
    0x68DC1462_D7486900_680EC0A4_27A18DEE_4F3FFEA2_E887AD8C_B58CE006_7AF4D6B6#256,
    0xAACE1E7C_D3375FEC_CE78A399_406B2A42_20FE9E35_D9F385B9_EE39D7AB_3B124E8B#256,
    0x1DC9FAF7_4B6D1856_26A36631_EAE397B2_3A6EFA74_DD5B4332_6841E7F7_CA7820FB#256,
    0xFB0AF54E_D8FEB397_454056AC_BA489527_55533A3A_20838D87_FE6BA9B7_D096954B#256,
    0x55A867BC_A1159A58_CCA92963_99E1DB33_A62A4A56_3F3125F9_5EF47E1C_9029317C#256,
    0xFDF8E802_04272F70_80BB155C_05282CE3_95C11548_E4C66D22_48C1133F_C70F86DC#256,
    0x07F9C9EE_41041F0F_404779A4_5D886E17_325F51EB_D59BC0D1_F2BCC18F_41113564#256,
    0x257B7834_602A9C60_DFF8E8A3_1F636C1B_0E12B4C2_02E1329E_AF664FD1_CAD18115#256,
    0x6B2395E0_333E92E1_3B240B62_EEBEB922_85B2A20E_E6BA0D99_DE720C8C_2DA2F728#256,
    0xD0127845_95B794FD_647D0862_E7CCF5F0_5449A36F_877D48FA_C39DFD27_F33E8D1E#256,
    0x0A476341_992EFF74_3A6F6EAB_F4F8FD37_A812DC60_A1EBDDF8_991BE14C_DB6E6B0D#256,
    0xC67B5510_6D672C37_2765D43B_DCD0E804_F1290DC7_CC00FFA3_B5390F92_690FED0B#256 ]

/-- `S0[2]`, entries 128 to 255 (rule R213). -/
def initialS2b : List (BitVec 256) :=
  [ 0x667B9FFB_CEDB7D9C_A091CF0B_D9155EA3_BB132F88_515BAD24_7B9479BF_763BD6EB#256,
    0x37392EB3_CC115979_8026E297_F42E312D_6842ADA7_C66A2B3B_12754CCC_782EF11C#256,
    0x6A124237_B79251E7_06A1BBE6_4BFB6350_1A6B1018_11CAEDFA_3D25BDD8_E2E1C3C9#256,
    0x44421659_0A121386_D90CEC6E_D5ABEA2A_64AF674E_DA86A85F_BEBFE988_64E4C3FE#256,
    0x9DBC8057_F0F7C086_60787BF8_6003604D_D1FD8346_F6381FB0_7745AE04_D736FCCC#256,
    0x83426B33_F01EAB71_B0804187_3C005E5F_77A057BE_BDE8AE24_55464299_BF582E61#256,
    0x4E58F48F_F2DDFDA2_F474EF38_8789BDC2_5366F9C3_C8B38E74_B475F255_46FCD9B9#256,
    0x7AEB2661_8B1DDF84_846A0E79_915F95E2_466E598E_20B45770_8CD55591_C902DE4C#256,
    0xB90BACE1_BB8205D0_11A86248_7574A99E_B77F19B6_E0A9DC09_662D09A1_C4324633#256,
    0xE85A1F02_09F0BE8C_4A99A025_1D6EFE10_1AB93D1D_0BA5A4DF_A186F20F_2868F169#256,
    0xDCB7DA83_573906FE_A1E2CE9B_4FCD7F52_50115E01_A70683FA_A002B5C4_0DE6D027#256,
    0x9AF88C27_773F8641_C3604C06_61A806B5_F0177A28_C0F586E0_006058AA_30DC7D62#256,
    0x11E69ED7_2338EA63_53C2DD94_C2C21634_BBCBEE56_90BCB6DE_EBFC7DA1_CE591D76#256,
    0x6F05E409_4B7C0188_39720A3D_7C927C24_86E3725F_724D9DB9_1AC15BB4_D39EB8FC#256,
    0xED545578_08FCA5B5_D83D7CD3_4DAD0FC4_1E50EF5E_B161E6F8_A28514D9_6C51133C#256,
    0x6FD5C7E7_56E14EC4_362ABFCE_DDC6C837_D79A3234_92638212_670EFA8E_406000E0#256 ]

/-- `S0[3]`, entries 0 to 127 (rule R214). -/
def initialS3a : List (BitVec 256) :=
  [ 0x3A39CE37_D3FAF5CF_ABC27737_5AC52D1B_5CB0679E_4FA33742_D3822740_99BC9BBE#256,
    0xD5118E9D_BF0F7315_D62D1C7E_C700C47B_B78C1B6B_21A19045_B26EB1BE_6A366EB4#256,
    0x5748AB2F_BC946E79_C6A376D2_6549C2C8_530FF8EE_468DDE7D_D5730A1D_4CD04DC6#256,
    0x2939BBDB_A9BA4650_AC9526E8_BE5EE304_A1FAD5F0_6A2D519A_63EF8CE2_9A86EE22#256,
    0xC089C2B8_43242EF6_A51E03AA_9CF2D0A4_83C061BA_9BE96A4D_8FE51550_BA645BD6#256,
    0x2826A2F9_A73A3AE1_4BA99586_EF5562E9_C72FEFD3_F752F7DA_3F046F69_77FA0A59#256,
    0x80E4A915_87B08601_9B09E6AD_3B3EE593_E990FD5A_9E34D797_2CF0B7D9_022B8B51#256,
    0x96D5AC3A_017DA67D_D1CF3ED6_7C7D2D28_1F9F25CF_ADF2B89B_5AD6B472_5A88F54C#256,
    0xE029AC71_E019A5E6_47B0ACFD_ED93FA9B_E8D3C48D_283B57CC_F8D56629_79132E28#256,
    0x785F0191_ED756055_F7960E44_E3D35E8C_15056DD4_88F46DBA_03A16125_0564F0BD#256,
    0xC3EB9E15_3C9057A2_97271AEC_A93A072A_1B3F6D9B_1E6321F5_F59C66FB_26DCF319#256,
    0x7533D928_B155FDF5_03563482_8ABA3CBB_28517711_C20AD9F8_ABCC5167_CCAD925F#256,
    0x4DE81751_3830DC8E_379D5862_9320F991_EA7A90C2_FB3E7BCE_5121CE64_774FBE32#256,
    0xA8B6E37E_C3293D46_48DE5369_6413E680_A2AE0810_DD6DB224_69852DFD_09072166#256,
    0xB39A460A_6445C0DD_586CDECF_1C20C8AE_5BBEF7DD_1B588D40_CCD2017F_6BB4E3BB#256,
    0xDDA26A7E_3A59FF45_3E350A44_BCB4CDD5_72EACEA8_FA6484BB_8D6612AE_BF3C6F47#256 ]

/-- `S0[3]`, entries 128 to 255 (rule R214). -/
def initialS3b : List (BitVec 256) :=
  [ 0xD29BE463_542F5D9E_AEC2771B_F64E6370_740E0D8D_E75B1357_F8721671_AF537D5D#256,
    0x4040CB08_4EB4E2CC_34D2466A_0115AF84_E1B00428_95983A1D_06B89FB4_CE6EA048#256,
    0x6F3F3B82_3520AB82_011A1D4B_277227F8_611560B1_E7933FDC_BB3A792B_344525BD#256,
    0xA08839E1_51CE794B_2F32C9B7_A01FBAC9_E01CC87E_BCC7D1F6_CF0111C3_A1E8AAC7#256,
    0x1A908749_D44FBD9A_D0DADECB_D50ADA38_0339C32A_C6913667_8DF9317C_E0B12B4F#256,
    0xF79E59B7_43F5BB3A_F2D519FF_27D9459C_BF97222C_15E6FC2A_0F91FC71_9B941525#256,
    0xFAE59361_CEB69CEB_C2A86459_12BAA8D1_B6C1075E_E3056A0C_10D25065_CB03A442#256,
    0xE0EC6E0E_1698DB3B_4C98A0BE_3278E964_9F1F9532_E0D392DF_D3A0342B_8971F21E#256,
    0x1B0A7441_4BA3348C_C5BE7120_C37632D8_DF359F8D_9B992F2E_E60B6F47_0FE3F11D#256,
    0xE54CDA54_1EDAD891_CE6279CF_CD3E7E6F_1618B166_FD2C1D05_848FD2C5_F6FB2299#256,
    0xF523F357_A6327623_93A83531_56CCCD02_ACF08162_5A75EBB5_6E163697_88D273CC#256,
    0xDE966292_81B949D0_4C50901B_71C65614_E6C6C7BD_327A140A_45E1D006_C3F27B9A#256,
    0xC9AA53FD_62A80F00_BB25BFE2_35BDD2F6_71126905_B2040222_B6CBCF7C_CD769C2B#256,
    0x53113EC0_1640E3D3_38ABBD60_2547ADF0_BA38209C_F746CE76_77AFA1C5_20756060#256,
    0x85CBFE4E_8AE88DD8_7AAAF9B0_4CF9AA7E_1948C25C_02FB8A8C_01C36AE4_D6EBE1F9#256,
    0x90D4F869_A65CDEA0_3F09252D_C208E69F_B74E6132_CE77E25B_578FDFE3_3AC372E6#256 ]

/-- All rows of `S0[0]` to `S0[3]`, in order (rules R211 to R214). -/
def initialSRows : List (BitVec 256) :=
  initialS0a ++ initialS0b ++ initialS1a ++ initialS1b ++ initialS2a ++ initialS2b ++ initialS3a
    ++ initialS3b

/-- `S0[0..3][0..255]` as one value, `S0[0][0]` in the most significant bits. -/
def initialS : BitVec 32768 :=
  initialSRows.foldl (fun all row => (all <<< 256) ||| row.setWidth 32768) 0#32768

end Sys2Proof.Machine
end

