-- ==== Sys2Proof/Machine/Blowfish.lean ====
section
/-! DEFINITION. The Blowfish key schedule and cipher commands (spec/42_blowfish.md). -/

namespace Sys2Proof.Machine

/-! ### The cipher, over any tables -/

/-- The F-function over S-boxes `S` (spec/42_blowfish.md rule R181). PRESUMED (log 9):
which byte indexes which box. -/
def blowfishF (S : Fin 4 → Byte → Word) (x : Word) : Word :=
  ((S 0 (x.extractLsb' 24 8) + S 1 (x.extractLsb' 16 8)) ^^^ S 2 (x.extractLsb' 8 8))
    + S 3 (x.extractLsb' 0 8)

/-- One round for each subkey index of the list: XOR into the left half, F into the right half,
swap (spec/42_blowfish.md rules R182, R185). -/
def feistelRounds (P : Fin 18 → Word) (S : Fin 4 → Byte → Word) :
    List (Fin 18) → Word × Word → Word × Word
  | [], lr => lr
  | i :: rest, (l, r) =>
    feistelRounds P S rest (r ^^^ blowfishF S (l ^^^ P i), l ^^^ P i)

/-- The rounds, the last swap undone, and the two last subkeys: `P[kr]` into the right half,
`P[kl]` into the left one (spec/42_blowfish.md rules R182, R185). -/
def feistel (P : Fin 18 → Word) (S : Fin 4 → Byte → Word) (order : List (Fin 18)) (kr kl : Fin 18)
    (lr : Word × Word) : Word × Word :=
  let x := feistelRounds P S order lr
  (x.2 ^^^ P kl, x.1 ^^^ P kr)

/-- `Enc(P, S, L, R)` (spec/42_blowfish.md rule R182). PRESUMED (log 9): `P[16]` into the right half. -/
def encHalves (P : Fin 18 → Word) (S : Fin 4 → Byte → Word) (lr : Word × Word) : Word × Word :=
  feistel P S [0, 1, 2, 3, 4, 5, 6, 7, 8, 9, 10, 11, 12, 13, 14, 15] 16 17 lr

/-- `Dec(P, S, L, R)` (spec/42_blowfish.md rule R185). -/
def decHalves (P : Fin 18 → Word) (S : Fin 4 → Byte → Word) (lr : Word × Word) : Word × Word :=
  feistel P S [17, 16, 15, 14, 13, 12, 11, 10, 9, 8, 7, 6, 5, 4, 3, 2] 1 0 lr

/-! ### The key schedule -/

/-- The tables under construction in `BF.SETKEY`, each one wide value with word 0 in its most
significant bits: `p` is `P[0..17]`, `s` is `S[0..3][0..255]` in order. They live inside one
command only (spec/10_state.md rule R38). -/
structure Tables where
  p : BitVec 576
  s : BitVec 32768
deriving DecidableEq, Repr

/-- Word `i` of a table of `n` bits, counted from its most significant word. -/
def wordAt (n : Nat) (t : BitVec n) (i : Nat) : Word := t.extractLsb' (n - 32 * (i + 1)) 32

/-- The table with word `i` replaced by `v`. -/
def setWordAt (n : Nat) (t : BitVec n) (i : Nat) (v : Word) : BitVec n :=
  t ^^^ ((wordAt n t i ^^^ v).setWidth n <<< (n - 32 * (i + 1)))

/-- `P[i]` of the tables. -/
def tableP (t : Tables) (i : Fin 18) : Word := wordAt 576 t.p i.val

/-- `S[b][x]` of the tables. -/
def tableS (t : Tables) (b : Fin 4) (x : Byte) : Word := wordAt 32768 t.s (256 * b.val + x.toNat)

/-- The word XORed into `P[i]`: key bytes `4i` to `4i + 3`, cyclically, the first one most
significant (spec/42_blowfish.md rule R183). PRESUMED (log 9): the packing order. -/
def keyWord (key : List Byte) (i : Nat) : Word :=
  let byte (k : Nat) : Byte := key.getD ((4 * i + k) % key.length) 0#8
  be32 (byte 0) (byte 1) (byte 2) (byte 3)

/-- `P` with the key mixed in (spec/42_blowfish.md rule R183). -/
def mixKey (key : List Byte) (p : BitVec 576) : BitVec 576 :=
  (List.range 18).foldl (fun p i => setWordAt 576 p i (wordAt 576 p i ^^^ keyWord key i)) p

/-- The chained encryptions that replace `P` pairwise (spec/42_blowfish.md rule R184; conflict C5
of spec/90_conflicts.md). -/
def fillP : List Nat → Tables × (Word × Word) → Tables × (Word × Word)
  | [], x => x
  | j :: rest, (t, lr) =>
    let out := encHalves (tableP t) (tableS t) lr
    fillP rest
      ({ t with p := setWordAt 576 (setWordAt 576 t.p (2 * j) out.1) (2 * j + 1) out.2 }, out)

/-- The chained encryptions that replace the S-boxes pairwise, box after box (spec/42_blowfish.md
rule R184). -/
def fillS : List Nat → Tables × (Word × Word) → Tables × (Word × Word)
  | [], x => x
  | j :: rest, (t, lr) =>
    let out := encHalves (tableP t) (tableS t) lr
    fillS rest
      ({ t with s := setWordAt 32768 (setWordAt 32768 t.s (2 * j) out.1) (2 * j + 1) out.2 }, out)

/-- The tables after all 521 encryptions, from `P0`, `S0` and the all-zero block
(spec/42_blowfish.md rule R184). -/
def keySchedule (key : List Byte) : Tables :=
  let start : Tables := { p := mixKey key initialP, s := initialS }
  (fillS (List.range 512) (fillP (List.range 9) (start, (0#32, 0#32)))).1

/-- The P-array of the tables, word by word. -/
def tablesKp (t : Tables) : Vector Word 18 :=
  ⟨⟨(List.finRange 18).map (tableP t)⟩, by simp⟩

/-- The S-boxes of the tables, word by word. -/
def tablesKs (t : Tables) : Vector (Vector Word 256) 4 :=
  ⟨⟨(List.finRange 4).map fun b =>
    ⟨⟨(List.finRange 256).map fun x => tableS t b (BitVec.ofFin x)⟩, by simp⟩⟩, by simp⟩

/-! ### The commands -/

/-- `KP[i]` (spec/10_state.md rule R34). -/
def State.kpAt (s : State) (i : Fin 18) : Word := s.kp[i.val]

/-- `KS[b][x]` (spec/10_state.md rule R35). -/
def State.ksAt (s : State) (b : Fin 4) (x : Byte) : Word := (s.ks[b.val])[x.toNat]

/-- `KP` and `KS` become unspecified: the next free values (spec/10_state.md rule R36,
spec/42_blowfish.md rule R190). DESIGN CHOICE (log 6), safe. -/
def State.forgetKey (s : State) : State :=
  { s with kp := Config.freeP s.draws, ks := Config.freeS s.draws, draws := s.draws + 1 }

/-- `n` blocks from `src` to `dst`, each read whole, put through `f` and written, one after the
other (spec/42_blowfish.md rule R188). -/
def cryptBlocks (f : State → Word × Word → Word × Word) : Nat → Word → Word → State → State
  | 0, _, _, s => s
  | n + 1, src, dst, s =>
    cryptBlocks f n (src + 8#32) (dst + 8#32) (writeBlock dst (f s (readBlock s src)) s)

/-- A cipher command on one block (spec/42_blowfish.md rules R186, R187). -/
def cryptOne (f : State → Word × Word → Word × Word) (s : State) : Outcome :=
  if s.status.keyvalid = false then .next (s.raise .noKey)
  else launch s [srcSpan s 8, dstSpan s 8] (spansPartlyOverlap (srcSpan s 8) (dstSpan s 8))
    fun s => .next (cryptBlocks f 1 s.srcAddr s.dstAddr s).succeed

/-- A bulk cipher command: `SRC_LEN` bytes, a multiple of 8 (spec/42_blowfish.md rules R188,
R189). -/
def cryptBulk (f : State → Word × Word → Word × Word) (s : State) : Outcome :=
  let n := s.srcLen.toNat
  if s.status.keyvalid = false then .next (s.raise .noKey)
  else if n % 8 ≠ 0 then .next (s.raise .length)
  else launch s [srcSpan s n, dstSpan s n] (spansPartlyOverlap (srcSpan s n) (dstSpan s n))
    fun s => .next (cryptBlocks f (n / 8) s.srcAddr s.dstAddr s).succeed

/-- `Enc(KP, KS, L, R)`. -/
def encWithKey (s : State) (lr : Word × Word) : Word × Word := encHalves s.kpAt s.ksAt lr

/-- `Dec(KP, KS, L, R)`. -/
def decWithKey (s : State) (lr : Word × Word) : Word × Word := decHalves s.kpAt s.ksAt lr

/-- `BF.SETKEY` (spec/42_blowfish.md rule R184). -/
def execBfSetkey (s : State) : Outcome :=
  let n := s.srcLen.toNat
  if n < 1 ∨ 56 < n then .next (s.raise .keyLen)
  else launch s [srcSpan s n] false fun s =>
    let t := keySchedule (readBytes s s.srcAddr n)
    .next { s with kp := tablesKp t, ks := tablesKs t,
                   status := { s.status with keyvalid := true, err := .ok } }

/-- `BF.ENCB` (spec/42_blowfish.md rule R186). -/
def execBfEncb (s : State) : Outcome := cryptOne encWithKey s

/-- `BF.DECB` (spec/42_blowfish.md rule R187). -/
def execBfDecb (s : State) : Outcome := cryptOne decWithKey s

/-- `BF.ENC` (spec/42_blowfish.md rule R188). -/
def execBfEnc (s : State) : Outcome := cryptBulk encWithKey s

/-- `BF.DEC` (spec/42_blowfish.md rule R189). -/
def execBfDec (s : State) : Outcome := cryptBulk decWithKey s

/-- `BF.CLRKEY` (spec/42_blowfish.md rule R190). -/
def execBfClrkey (s : State) : Outcome :=
  .next { s.forgetKey with status := { s.status with keyvalid := false, err := .ok } }

end Sys2Proof.Machine
end

