-- ==== Sys2Proof/Machine/Lcw.lean ====
section
/-! DEFINITION. The LCW / Format80 decompressor (spec/44_lcw.md): the six stream commands, and
`LCW.DEC`, which runs them until a stop reason arises. -/

namespace Sys2Proof.Machine

/-! ### The unit while it runs -/

/-- A stream command runs on the offsets of the run in progress; without one it has no meaning
(spec/00_scope.md rule R5; log 8). -/
def inRun (s : State) (body : LcwRun → Outcome) : Outcome :=
  match s.lcw with
  | none => .refused .streamCommandIdle
  | some r => body r

/-- `N - sp`: the stream bytes from the command byte on (spec/44_lcw.md rule R223). -/
def srcLeft (s : State) (r : LcwRun) : Nat := s.srcLen.toNat - r.sp.toNat

/-- `C - dp`: the output space left (spec/44_lcw.md rule R223). -/
def dstLeft (s : State) (r : LcwRun) : Nat := s.dstLen.toNat - r.dp.toNat

/-- `src[sp + k]` (spec/44_lcw.md rule R220). -/
def srcByte (s : State) (r : LcwRun) (k : Nat) : Byte :=
  s.readByte (s.srcAddr + r.sp + BitVec.ofNat 32 k)

/-- The loop ends: `RESULT <- dp`, `LCW_SP <- sp`, `STATUS.LCW_STOP <- stop`, and `LCW.DEC` ends
without error (spec/44_lcw.md rules R220, R226; spec/60_exceptions.md rule R293). -/
def stopRun (s : State) (r : LcwRun) (stop : LcwStop) : State :=
  { s with result := r.dp, lcwSp := r.sp, lcw := none,
           status := { s.status with lcwStop := stop, err := .ok } }

/-- A stream command completes: `sp` and `dp` advance (spec/44_lcw.md rule R237). -/
def advanceRun (s : State) (r : LcwRun) (stream output : Nat) : State :=
  { s with lcw := some { sp := r.sp + BitVec.ofNat 32 stream, dp := r.dp + BitVec.ofNat 32 output } }

/-- The reference check, the space check and the copy of `REL`, `ABS` and `LABS`, a command of
`size` bytes (spec/44_lcw.md rules R223, R224). -/
def backReference (s : State) (r : LcwRun) (size : Nat) (valid : Bool) (offset count : Nat) :
    Outcome :=
  if valid = false then .next (stopRun s r .abortRef)
  else if dstLeft s r < count then .next (stopRun s r .abortDst)
  else .next (advanceRun
    (copyBytes (s.dstAddr + BitVec.ofNat 32 offset) (s.dstAddr + r.dp) count s) r size count)

/-! ### The stream commands -/

/-- `REL` (spec/44_lcw.md rule R230). -/
def execRel (ccc : BitVec 3) (dddd : BitVec 4) (s : State) : Outcome :=
  inRun s fun r =>
    if srcLeft s r < 2 then .next (stopRun s r .abortSrc)
    else
      let distance := relDistance dddd (srcByte s r 1)
      backReference s r 2 (distance != 0 && decide (distance ≤ r.dp.toNat))
        (r.dp.toNat - distance) (relCount ccc)

/-- `END` (spec/44_lcw.md rule R231). -/
def execEndMark (s : State) : Outcome :=
  inRun s fun r => .next (stopRun s { r with sp := r.sp + 1#32 } .endMark)

/-- `LIT` (spec/44_lcw.md rule R232). -/
def execLit (n : BitVec 6) (s : State) : Outcome :=
  inRun s fun r =>
    let count := litCount n
    if srcLeft s r < 1 + count then .next (stopRun s r .abortSrc)
    else if dstLeft s r < count then .next (stopRun s r .abortDst)
    else .next (advanceRun
      (copyBytes (s.srcAddr + r.sp + 1#32) (s.dstAddr + r.dp) count s) r (1 + count) count)

/-- `ABS` (spec/44_lcw.md rule R233). -/
def execAbs (n : BitVec 6) (s : State) : Outcome :=
  inRun s fun r =>
    if srcLeft s r < 3 then .next (stopRun s r .abortSrc)
    else
      let pos := le16 (srcByte s r 1) (srcByte s r 2)
      backReference s r 3 (decide (pos < r.dp.toNat)) pos (absCount n)

/-- `FILL`: clipped to the space left (spec/44_lcw.md rule R234; conflict C2 of
spec/90_conflicts.md). -/
def execFill (s : State) : Outcome :=
  inRun s fun r =>
    if srcLeft s r < 4 then .next (stopRun s r .abortSrc)
    else
      let n := min (le16 (srcByte s r 1) (srcByte s r 2)) (dstLeft s r)
      .next (advanceRun (fillBytes (s.dstAddr + r.dp) (srcByte s r 3) n s) r 4 n)

/-- `LABS` (spec/44_lcw.md rule R235). -/
def execLabs (s : State) : Outcome :=
  inRun s fun r =>
    if srcLeft s r < 5 then .next (stopRun s r .abortSrc)
    else
      let count := le16 (srcByte s r 1) (srcByte s r 2)
      let pos := le16 (srcByte s r 3) (srcByte s r 4)
      backReference s r 5 (decide (pos < r.dp.toNat)) pos count

/-! ### `LCW.DEC` -/

/-- The stream command that command byte `c` selects, run (spec/30_encoding.md rule R101). No byte
selects a CMD32 command, so the last arm is never taken (rule R103). -/
def execStreamByte (c : Byte) (s : State) : Outcome :=
  match decodeStreamByte c with
  | .rel ccc dddd => execRel ccc dddd s
  | .endMark => execEndMark s
  | .lit n => execLit n s
  | .abs n => execAbs n s
  | .fill => execFill s
  | .labs => execLabs s
  | .sysNop | .sysClrerr | .biLdi _ _ | .biMov _ _ | .biLdbe _ _ | .biLdle _ _ | .biStbe _ _
  | .biStle _ _ | .biCmp _ _ | .biAdd _ _ _ | .biSub _ _ _ | .biShl1 _ _ | .biShr1 _ _
  | .biBit _ _ | .biHsb _ | .biTstz _ | .biMull _ _ _ | .biMulh _ _ _ | .modMul _ _ _ _
  | .modExp _ _ _ _ | .bfSetkey | .bfEncb | .bfDecb | .bfEnc | .bfDec | .bfClrkey
  | .lcwDec => .refused .streamCommandIdle

/-- At most `passes` passes of the loop of `LCW.DEC`, until the run ends (spec/44_lcw.md rules
R220, R225; log 13). -/
def runLoop : Nat → State → Outcome
  | 0, s => .next s
  | passes + 1, s =>
    match s.lcw with
    | none => .next s
    | some r =>
      if s.srcLen.toNat ≤ r.sp.toNat then .next (stopRun s r .srcEnd)
      else
        match execStreamByte (srcByte s r 0) s with
        | .next t => runLoop passes t
        | .fault f => .fault f
        | .refused f => .refused f

/-- `sp <- 0 ; dp <- 0` (spec/44_lcw.md rule R220). -/
def startRun (s : State) : State := { s with lcw := some { sp := 0#32, dp := 0#32 } }

/-- `LCW.DEC`: the checks, then the whole run as one command (spec/44_lcw.md rule R220); `N + 1`
passes are enough (rule R225). -/
def execLcwDec (s : State) : Outcome :=
  let src := srcSpan s s.srcLen.toNat
  let dst := dstSpan s s.dstLen.toNat
  launch s [src, dst] (spansOverlap src dst) fun s => runLoop (s.srcLen.toNat + 1) (startRun s)

end Sys2Proof.Machine
end

