-- ==== Sys2Proof/Machine/Modular.lean ====
section
/-! DEFINITION. Modular multiply and modular exponentiation (spec/41_modular.md). -/

namespace Sys2Proof.Machine

/-- `mod_mul`: the residue of the exact product (spec/41_modular.md rule R161). -/
def modMul (a b m : Nat) : Nat := (a * b) % m

/-- Square-and-multiply over the low `bits` bits of the exponent, least significant first, from
accumulator `r` and running square `x` (spec/41_modular.md rule R164). -/
def modPow (m : Nat) : Nat → Nat → Nat → Nat → Nat
  | 0, r, _, _ => r
  | bits + 1, r, x, e =>
    if e = 0 then r
    else modPow m bits (if e % 2 = 1 then modMul r x m else r) (modMul x x m) (e / 2)

/-- `mod_exp` on a 320-bit exponent: exponent 0 gives 1, not reduced (spec/41_modular.md rule
R163). -/
def modExp (a e m : Nat) : Nat := modPow m 320 1 a e

/-- The aligned compare-and-subtract steps of the source's `mod_mul`, for shifts `s` down to 0
(spec/41_modular.md rule R162). Not part of the machine: its result is stated to be `modMul`'s. -/
def shiftSubtract (m : Nat) : Nat → Nat → Nat
  | 0, p => if m ≤ p then p - m else p
  | s + 1, p => shiftSubtract m s (if m <<< (s + 1) ≤ p then p - m <<< (s + 1) else p)

/-- The source's reference algorithm of `mod_mul`, without its final loop, which runs zero times
(spec/41_modular.md rule R162). -/
def modMulReference (a b m : Nat) : Nat :=
  let p := a * b
  if p ≠ 0 ∧ m.log2 ≤ p.log2 then shiftSubtract m (p.log2 - m.log2) p else p

/-- `MOD.MUL` (spec/41_modular.md rule R161). -/
def execModMul (rd ra rb rc : Reg) (s : State) : Outcome :=
  let m := (s.getB rc).toNat
  if m = 0 then .next (s.raise .modZero)
  else .next (s.setB rd (bigOf (modMul (s.getB ra).toNat (s.getB rb).toNat m))).succeed

/-- `MOD.EXP` (spec/41_modular.md rule R163). -/
def execModExp (rd ra rb rc : Reg) (s : State) : Outcome :=
  let m := (s.getB rc).toNat
  if m = 0 then .next (s.raise .modZero)
  else .next (s.setB rd (bigOf (modExp (s.getB ra).toNat (s.getB rb).toNat m))).succeed

end Sys2Proof.Machine
end

