-- ==== Sys2Proof/Machine/System.lean ====
section
/-! DEFINITION. The system commands (spec/45_system.md). -/

namespace Sys2Proof.Machine

/-- `SYS.NOP`: `STATUS.ERR <- 0` and nothing else (spec/45_system.md rule R260). -/
def execSysNop (s : State) : Outcome := .next s.succeed

/-- `SYS.CLRERR`: `STATUS.ERRS <- 0 ; STATUS.ERR <- 0` (spec/45_system.md rule R261). -/
def execSysClrerr (s : State) : Outcome :=
  .next { s with status := { s.status with err := .ok, errs := false } }

end Sys2Proof.Machine
end

