-- ==== Sys2Proof/Machine/Dispatch.lean ====
section
/-! DEFINITION. One arm per instruction: each calls its meaning. -/

namespace Sys2Proof.Machine

/-- What an instruction does. -/
def exec (i : Instr) (s : State) : Host.Outcome State Fault Refusal :=
  match i with
  | .sysNop => Sys2Proof.Machine.execSysNop s
  | .sysClrerr => Sys2Proof.Machine.execSysClrerr s
  | .biLdi rd imm => Sys2Proof.Machine.execBiLdi rd imm s
  | .biMov rd ra => Sys2Proof.Machine.execBiMov rd ra s
  | .biLdbe rd len => Sys2Proof.Machine.execBiLdbe rd len s
  | .biLdle rd len => Sys2Proof.Machine.execBiLdle rd len s
  | .biStbe ra len => Sys2Proof.Machine.execBiStbe ra len s
  | .biStle ra len => Sys2Proof.Machine.execBiStle ra len s
  | .biCmp ra rb => Sys2Proof.Machine.execBiCmp ra rb s
  | .biAdd rd ra rb => Sys2Proof.Machine.execBiAdd rd ra rb s
  | .biSub rd ra rb => Sys2Proof.Machine.execBiSub rd ra rb s
  | .biShl1 rd ra => Sys2Proof.Machine.execBiShl1 rd ra s
  | .biShr1 rd ra => Sys2Proof.Machine.execBiShr1 rd ra s
  | .biBit ra idx => Sys2Proof.Machine.execBiBit ra idx s
  | .biHsb ra => Sys2Proof.Machine.execBiHsb ra s
  | .biTstz ra => Sys2Proof.Machine.execBiTstz ra s
  | .biMull rd ra rb => Sys2Proof.Machine.execBiMull rd ra rb s
  | .biMulh rd ra rb => Sys2Proof.Machine.execBiMulh rd ra rb s
  | .modMul rd ra rb rc => Sys2Proof.Machine.execModMul rd ra rb rc s
  | .modExp rd ra rb rc => Sys2Proof.Machine.execModExp rd ra rb rc s
  | .bfSetkey => Sys2Proof.Machine.execBfSetkey s
  | .bfEncb => Sys2Proof.Machine.execBfEncb s
  | .bfDecb => Sys2Proof.Machine.execBfDecb s
  | .bfEnc => Sys2Proof.Machine.execBfEnc s
  | .bfDec => Sys2Proof.Machine.execBfDec s
  | .bfClrkey => Sys2Proof.Machine.execBfClrkey s
  | .lcwDec => Sys2Proof.Machine.execLcwDec s
  | .rel ccc dddd => Sys2Proof.Machine.execRel ccc dddd s
  | .endMark => Sys2Proof.Machine.execEndMark s
  | .lit n => Sys2Proof.Machine.execLit n s
  | .abs n => Sys2Proof.Machine.execAbs n s
  | .fill => Sys2Proof.Machine.execFill s
  | .labs => Sys2Proof.Machine.execLabs s

end Sys2Proof.Machine
end

