-- ==== Sys2Proof/Machine/Fetch.lean ====
section
/-! DEFINITION. What one step fetches: a command word the host writes to `CMD`, or the stream byte
at `sp`; and the host's other accesses and the reset input (spec/10_state.md rules R21 to R31, R39;
spec/70_reset_and_hazards.md rules R330, R331). -/

namespace Sys2Proof.Machine

/-! ### The register window -/

/-- `STATUS` as a word: `ERR` 7:0, `ERRS` 8, `KEYVALID` 9, `LCW_STOP` 14:12, the rest 0
(spec/10_state.md rule R24). -/
def statusWord (st : Status) : Word :=
  ((stopCode st.lcwStop).setWidth 32 <<< 12) ||| (bitWord st.keyvalid <<< 9)
    ||| (bitWord st.errs <<< 8) ||| (errCode st.err).setWidth 32

/-- `FLAGS` as a word: `C` 0, `Z` 1, `LT` 2, `EQ` 3, the rest 0 (spec/10_state.md rule R25). -/
def flagsWord (f : Flags) : Word :=
  (bitWord f.eq <<< 3) ||| (bitWord f.lt <<< 2) ||| (bitWord f.z <<< 1) ||| bitWord f.c

/-- What a read of the window at an aligned offset returns (spec/10_state.md rule R22): `CMD` and
the reserved offsets read 0. -/
def windowRead (s : State) (offset : Nat) : Word :=
  match offset with
  | 0x04 => statusWord s.status
  | 0x08 => flagsWord s.flags
  | 0x0C => s.result
  | 0x10 => s.srcAddr
  | 0x14 => s.srcLen
  | 0x18 => s.dstAddr
  | 0x1C => s.dstLen
  | 0x20 => s.lcwSp
  | _ => 0#32

/-- A write of the window at an aligned offset other than `CMD`'s: the operand registers store it,
every other offset ignores it (spec/10_state.md rules R22, R39). -/
def windowStore (s : State) (offset : Nat) (v : Word) : State :=
  match offset with
  | 0x10 => { s with srcAddr := v }
  | 0x14 => { s with srcLen := v }
  | 0x18 => { s with dstAddr := v }
  | 0x1C => { s with dstLen := v }
  | _ => s

/-- A command word written to `CMD`: the command it stands for, or `ERR_ILLEGAL`
(spec/10_state.md rule R23, spec/60_exceptions.md rule R294). -/
def runCommand (w : Word) (s : State) : Outcome :=
  match decode (.cmd w) with
  | .ok i => exec i s
  | .error _ => .next (s.raise .illegal)

/-- A write of the window at an aligned offset. -/
def windowWrite (s : State) (offset : Nat) (v : Word) : Outcome :=
  if offset = 0 then runCommand v s else .next (windowStore s offset v)

/-- A host access of `bytes` bytes at `addr` of the host's address space, given as an offset to
`body` where it lies in the window and is an aligned 32-bit one (spec/10_state.md rules R22,
R39). -/
def inWindow (s : State) (addr bytes : Nat) (body : Nat → Outcome) : Outcome :=
  if addr < s.platform.hostBase ∨ s.platform.hostBase + Config.windowBytes ≤ addr then
    .refused .outsideWindow
  else if bytes = 4 ∧ addr % 4 = 0 then body (addr - s.platform.hostBase)
  else .refused .hostAccessShape

/-- A host access to the memory byte at `a` (spec/20_memory.md rule R73), where memory is. -/
def inMemory (s : State) (a : Word) (body : Outcome) : Outcome :=
  if memValid s.platform a.toNat = false then .fault .hostMemoryAbsent
  else if isDevice s.platform a.toNat then .refused .deviceRegion
  else body

/-- The value a host read returned, recorded. -/
def State.returned (s : State) (v : Word) : State := { s with hostReads := v :: s.hostReads }

/-! ### Reset -/

/-- The block's reset state on this platform; memory and the model's own fields stay, `KP` and `KS`
become unspecified (spec/70_reset_and_hazards.md rule R330, spec/10_state.md rule R40). -/
def State.resetBlock (s : State) : State :=
  { State.reset with
    kp := Config.freeP s.draws, ks := Config.freeS s.draws, draws := s.draws + 1,
    mem := s.mem, platform := s.platform, inputs := s.inputs, hostReads := s.hostReads }

/-- Reset while command `w` runs: the reset state, and each byte the command would have written
holds its old or its new value, freely (spec/70_reset_and_hazards.md rule R331; logs 6, 11). -/
def resetDuringCommand (w : Word) (s : State) : Outcome :=
  match runCommand w s with
  | .next t =>
    .next { t.resetBlock with mem := memMix (Config.resetKeepsNew t.draws) s.mem t.mem }
  | .fault f => .fault f
  | .refused f => .refused f

/-! ### One input, one stream command -/

/-- What an input does to the state it is taken from. -/
def perform (a : Input) (s : State) : Outcome :=
  match a with
  | .read addr bytes => inWindow s addr bytes fun offset => .next (s.returned (windowRead s offset))
  | .write addr bytes data => inWindow s addr bytes fun offset => windowWrite s offset data
  | .memRead addr => inMemory s addr (.next (s.returned ((s.readByte addr).setWidth 32)))
  | .memWrite addr data => inMemory s addr (.next (s.writeByte addr data))
  | .reset => .next s.resetBlock
  | .resetDuring cmd => resetDuringCommand cmd s

/-- One pass of the loop of `LCW.DEC`: the end of the source, or the command at `sp`
(spec/44_lcw.md rule R220). -/
def streamStep (s : State) (r : LcwRun) : Outcome :=
  if s.srcLen.toNat ≤ r.sp.toNat then .next (stopRun s r .srcEnd)
  else
    match decode (.stream (srcByte s r 0)) with
    | .ok i => exec i s
    | .error _ => .refused .streamCommandIdle

/-- The state whose next input is the write of word `w` to `CMD`. -/
def State.withCommand (s : State) (w : Word) : State :=
  { s with lcw := none, inputs := .write s.platform.hostBase 4 w :: s.inputs }

/-- The longest stream command: 1 + 63 bytes (spec/30_encoding.md rule R101). -/
def longestStreamCommand : Nat := 64

/-- The state whose LCW unit is at offset 0 of a source region that begins with byte `c` and zero
bytes up to the longest stream command; a run in progress keeps its output. -/
def State.withStreamByte (s : State) (c : Byte) : State :=
  let dp := match s.lcw with
    | none => 0#32
    | some r => r.dp
  let placed := writeBytes s.srcAddr (c :: List.replicate (longestStreamCommand - 1) 0#8) s
  { placed with
    srcLen := if s.srcLen.toNat < longestStreamCommand then BitVec.ofNat 32 longestStreamCommand
              else s.srcLen,
    lcw := some { sp := 0#32, dp := dp } }

end Sys2Proof.Machine
end

