-- ==== Sys2Proof/Machine/Step.lean ====
section
/-! DEFINITION. One step of the machine, and the placing of one instruction as the next one. -/

namespace Sys2Proof.Machine

/-- One step. While `LCW.DEC` runs, the host is held and the LCW unit takes one pass of its loop;
else the next input is taken (spec/10_state.md rule R21). With nothing to do the block is idle and
holds its state (spec/60_exceptions.md rule R315). `exec .lcwDec` is the whole run in one step
(spec/00_scope.md rule R10); the first case serves states inside a run (log 10). -/
def step (s : State) : Host.Outcome State Fault Refusal :=
  match s.lcw with
  | some r => streamStep s r
  | none =>
    match s.inputs with
    | [] => .next s
    | a :: rest => perform a { s with inputs := rest }

/-- `s` with one instruction placed where the next step fetches: a command word as the host's next
write to `CMD`, or a stream command's first byte at `sp` of a run (log 1). -/
def State.withFetchWord (s : State) (nbits w : Nat) : State :=
  if nbits = 8 then s.withStreamByte (BitVec.ofNat 8 w) else s.withCommand (BitVec.ofNat 32 w)

end Sys2Proof.Machine
end

