-- ==== Sys2Proof/Safety.lean ====
section
/-! DEFINITION. What the claims call a good state: the invariant every step keeps, and the
conditions under which a memory command runs. -/

namespace Sys2Proof.Machine

/-- Every address of the region is `MemValid` and plain memory (spec/20_memory.md rules R64,
R68). -/
def PlainSpan (p : Config.Platform) (r : Span) : Prop :=
  ∀ a, r.base ≤ a → a < r.base + r.len → memValid p a = true ∧ isDevice p a = false

/-- A region a memory command may use: it does not run past 2^32 and every byte of it is plain memory
(spec/20_memory.md rules R64, R68, R70). An empty region is always ready. -/
def SpanReady (p : Config.Platform) (r : Span) : Prop :=
  r.base + r.len ≤ Config.addressLimit ∧ PlainSpan p r

/-- Two regions that share no byte, or one of them empty (spec/20_memory.md rules R70, R71). -/
def SpansApart (r q : Span) : Prop :=
  r.len = 0 ∨ q.len = 0 ∨ r.base + r.len ≤ q.base ∨ q.base + q.len ≤ r.base

/-- Every byte of memory outside the region reads in `t` as it does in `s`. -/
def SameOutside (s t : State) (r : Span) : Prop :=
  ∀ a, ¬(r.base ≤ a ∧ a < r.base + r.len) → memRead t.mem a = memRead s.mem a

/-- The halves `(L, R)` of the 8 bytes at address `a`, by the formula of spec/20_memory.md rule
R63. -/
def blockAt (m : List Host.Cell) (a : Nat) : Word × Word :=
  let byte (k : Nat) : Nat := (memRead m (a + k)).toNat
  (BitVec.ofNat 32 (byte 0 * 2 ^ 24 + byte 1 * 2 ^ 16 + byte 2 * 2 ^ 8 + byte 3),
   BitVec.ofNat 32 (byte 4 * 2 ^ 24 + byte 5 * 2 ^ 16 + byte 6 * 2 ^ 8 + byte 7))

/-- No region of the platform is a device: every location the block can reach is plain memory
(spec/20_memory.md rule R68). -/
def noDevices (p : Config.Platform) : Bool := p.memMap.all fun g => g.kind == .memory

/-- A run of `LCW.DEC` inside its regions (spec/44_lcw.md rule R236 (i)), which passed the checks
(spec/44_lcw.md rule R220). -/
def runWithin (s : State) (r : LcwRun) : Bool :=
  let src := srcSpan s s.srcLen.toNat
  let dst := dstSpan s s.dstLen.toNat
  decide (r.sp.toNat ≤ s.srcLen.toNat) && decide (r.dp.toNat ≤ s.dstLen.toNat)
    && portError s.platform [src, dst] (spansOverlap src dst) == none
    && !([src, dst].any (spanTouchesDevice s.platform))

/-- The invariant: memory in canonical form, `LT` and `EQ` never both 1 (spec/10_state.md rule
R25), a run in progress inside its regions. -/
def State.good (s : State) : Bool :=
  memWf s.mem && !(s.flags.lt && s.flags.eq)
    && match s.lcw with
       | none => true
       | some r => runWithin s r

/-- The next state of an outcome, if it is one. -/
def nextOf (o : Outcome) : Option State :=
  match o with
  | .next s => some s
  | .fault _ => none
  | .refused _ => none

end Sys2Proof.Machine
end

