-- ==== Sys2Proof/Certificates/Slice0/Obligations.lean ====
section
/-! DEFINITION. The statements for the provers. Each docstring names what of the spec it formalises;
a value or a behaviour that is the model's own choice is named as such. -/

open Sys2Proof Sys2Proof.Machine

/-! ### Encoding -/

/-- Decoding what a well-formed instruction encodes to gives the instruction back, for every operand
value (spec/30_encoding.md R95, R97, R100, R101). -/
def Obligations.DecodeOfEncodeIsTheInstruction : Prop :=
  ∀ i : Instr, i.wf = true → decode (encode i) = .ok i

/-- Every word or byte that decodes has exactly the encoding of what it decodes to: no bit of it is
ignored (spec/30_encoding.md R95, R98, R103). -/
def Obligations.EncodeOfDecodeIsTheCode : Prop :=
  ∀ (c : Code) (i : Instr), decode c = .ok i → i.wf = true ∧ encode i = c

/-- The legal command words are those that match a row of the opcode map, and each is the command of
that row (spec/30_encoding.md R97). -/
def Obligations.LegalWordsAreTheRowsOfTheOpcodeMap : Prop :=
  ∀ w : Word,
    (∀ i, decode (.cmd w) = .ok i →
      ∃ row ∈ opcodeMap, row.mnemonic = i.mnemonic ∧ w &&& row.mask = row.opmatch) ∧
    (∀ row ∈ opcodeMap, w &&& row.mask = row.opmatch →
      ∃ i, decode (.cmd w) = .ok i ∧ i.mnemonic = row.mnemonic)

/-- A stream command's bytes, followed by any bytes, parse back to it and leave those bytes
(spec/30_encoding.md R102, R104, R107). -/
def Obligations.StreamCommandsParseBack : Prop :=
  ∀ (c : StreamCommand) (rest : List Byte), c.wf = true →
    parseStream (c.encode ++ rest) = some (c, rest)

/-- The first byte alone tells the command and its length, and every byte is a command
(spec/30_encoding.md R101, R104). -/
def Obligations.FirstByteSelectsTheStreamCommand : Prop :=
  ∀ c : Byte,
    (c.toNat ≤ 0x7F → (decodeStreamByte c).mnemonic = "REL" ∧ streamLength c = 2) ∧
    (c.toNat = 0x80 → (decodeStreamByte c).mnemonic = "END" ∧ streamLength c = 1) ∧
    (0x81 ≤ c.toNat ∧ c.toNat ≤ 0xBF →
      (decodeStreamByte c).mnemonic = "LIT" ∧ streamLength c = 1 + c.toNat % 64) ∧
    (0xC0 ≤ c.toNat ∧ c.toNat ≤ 0xFD →
      (decodeStreamByte c).mnemonic = "ABS" ∧ streamLength c = 3) ∧
    (c.toNat = 0xFE → (decodeStreamByte c).mnemonic = "FILL" ∧ streamLength c = 4) ∧
    (c.toNat = 0xFF → (decodeStreamByte c).mnemonic = "LABS" ∧ streamLength c = 5)

/-- A few words and bytes written out from the encoding tables (spec/30_encoding.md R100, R101) decode
to what they stand for: a check of the decoder, not of a whole rule. -/
def Obligations.SampleCodesDecode : Prop :=
  decode (.cmd 0x29301200#32) = .ok (.modExp 3#4 0#4 1#4 2#4) ∧
  decode (.cmd 0x10110001#32) = .ok (.biLdi 1#4 0x10001#20) ∧
  decode (.cmd 0x15030026#32) = .ok (.biStle 3#4 38#16) ∧
  decode (.cmd 0x01000000#32) = .ok .sysClrerr ∧
  decode (.cmd 0x33000000#32) = .ok .bfEnc ∧
  decode (.stream 0x7F#8) = .ok (.rel 7#3 15#4) ∧
  decode (.stream 0xBF#8) = .ok (.lit 63#6)

/-! ### The step -/

/-- When the host's next action writes a legal word to `CMD`, the step is that command at the state
with the action taken (spec/10_state.md R21, R23). That the host's actions stand in a list is the
model's choice (log 1). -/
def Obligations.StepRunsTheDecodedCommand : Prop :=
  ∀ (s : State) (w : Word) (rest : List Input) (i : Instr),
    s.lcw = none → s.platform.hostBase % 4 = 0 →
    s.inputs = .write s.platform.hostBase 4 w :: rest → decode (.cmd w) = .ok i →
    step s = exec i { s with inputs := rest }

/-- From a state that holds a run, the step is one pass of the loop of `LCW.DEC`: the command whose
first byte stands at `sp`, or the stop `SRC_END` where the source is used up. That such a step is one
pass is the model's choice (log 10: spec/00_scope.md R10 and spec/10_state.md R21 make `LCW.DEC` one
atomic command); what the pass does follows the loop of spec/44_lcw.md R220. -/
def Obligations.StepRunsTheStreamCommandAtSp : Prop :=
  ∀ (s : State) (r : LcwRun) (i : Instr), s.lcw = some r →
    (r.sp.toNat < s.srcLen.toNat →
      decode (.stream (s.readByte (s.srcAddr + r.sp))) = .ok i → step s = exec i s) ∧
    (r.sp.toNat = s.srcLen.toNat →
      step s = .next { s with result := r.dp, lcwSp := r.sp, lcw := none,
                              status := { s.status with lcwStop := .srcEnd, err := .ok } })

/-- A word that matches no row of the opcode map raises `ERR_ILLEGAL` and has no other effect, in
whatever state (spec/60_exceptions.md R294, R292; spec/30_encoding.md R98). That the host's write of the
word is the head of a list, which the step takes away, is the model's choice (log 1). -/
def Obligations.IllegalWordOnlyRecordsTheError : Prop :=
  ∀ (s : State) (w : Word) (rest : List Input),
    s.lcw = none → s.platform.hostBase % 4 = 0 →
    s.inputs = .write s.platform.hostBase 4 w :: rest →
    (∀ row ∈ opcodeMap, w &&& row.mask ≠ row.opmatch) →
    step s = .next { s with inputs := rest, status := { s.status with err := .illegal, errs := true } }

/-! ### Invariants and whole-machine rules -/

/-- Every step keeps the invariant: memory in canonical form, `LT` and `EQ` never both 1
(spec/10_state.md R25), a run inside its regions (spec/44_lcw.md R236 (i)); and, from any state, the
parameters `MemValid` and `HOST_BASE` (spec/20_memory.md R64). -/
def Obligations.EveryStepKeepsTheInvariant : Prop :=
  ∀ s t : State, step s = .next t → t.platform = s.platform ∧ (s.good = true → t.good = true)

/-- The invariant holds after reset. -/
def Obligations.ResetIsGood : Prop := State.reset.good = true

/-- The values spec/10_state.md R40 gives for reset, as the registers read; `KP`, `KS`, memory and the
platform are no part of it (logs 2 to 5 hold the model's choices). -/
def Obligations.ResetValues : Prop :=
  (∀ r : Reg, State.reset.getB r = 0#320) ∧ flagsWord State.reset.flags = 0#32 ∧
  State.reset.result = 0#32 ∧ statusWord State.reset.status = 0#32 ∧
  State.reset.srcAddr = 0#32 ∧ State.reset.srcLen = 0#32 ∧ State.reset.dstAddr = 0#32 ∧
  State.reset.dstLen = 0#32 ∧ State.reset.lcwSp = 0#32 ∧ State.reset.lcw = none

/-- A command that ends with an error has changed the error record and nothing else
(spec/60_exceptions.md R290, R292). -/
def Obligations.FailedCommandChangesOnlyTheErrorRecord : Prop :=
  ∀ (i : Instr) (s t : State), i.isStream = false → exec i s = .next t → t.status.err ≠ .ok →
    t = { s with status := { s.status with err := t.status.err, errs := true } }

/-- A command that ends without error leaves `ERRS` as it was, except `SYS.CLRERR`, which clears it
(spec/60_exceptions.md R293). -/
def Obligations.SuccessKeepsTheStickyBit : Prop :=
  ∀ (i : Instr) (s t : State), i.isStream = false → exec i s = .next t → t.status.err = .ok →
    t.status.errs = (if i = .sysClrerr then false else s.status.errs)

/-- Where no device stands in the address space, every command ends: a next state with no run left in
progress, never a fault or a refusal (spec/60_exceptions.md R290, spec/70_reset_and_hazards.md R351,
spec/20_memory.md R68). -/
def Obligations.EveryCommandEnds : Prop :=
  ∀ (i : Instr) (s : State), i.isStream = false → s.lcw = none → noDevices s.platform = true →
    ∃ t, exec i s = .next t ∧ t.lcw = none

/-- State that a command's rule does not list as written is unchanged by it (spec/00_scope.md R11):
who writes the BigInt registers, each flag, `RESULT`, the LCW results, the key state and memory; no
command writes an operand register (spec/10_state.md R25 to R31, R34, R35). -/
def Obligations.CommandsKeepToTheirState : Prop :=
  ∀ (i : Instr) (s t : State), exec i s = .next t →
    (i.mnemonic ∉ ["BI.LDI", "BI.MOV", "BI.LDBE", "BI.LDLE", "BI.ADD", "BI.SUB", "BI.SHL1",
      "BI.SHR1", "BI.MULL", "BI.MULH", "MOD.MUL", "MOD.EXP"] → t.b = s.b) ∧
    (i.mnemonic ∉ ["BI.ADD", "BI.SUB", "BI.SHL1", "BI.SHR1"] → t.flags.c = s.flags.c) ∧
    (i.mnemonic ∉ ["BI.ADD", "BI.SUB", "BI.SHL1", "BI.SHR1", "BI.TSTZ"] →
      t.flags.z = s.flags.z) ∧
    (i.mnemonic ≠ "BI.CMP" → t.flags.lt = s.flags.lt ∧ t.flags.eq = s.flags.eq) ∧
    (i.isStream = false → i.mnemonic ∉ ["BI.BIT", "BI.HSB", "BI.TSTZ", "LCW.DEC"] →
      t.result = s.result) ∧
    (i.isStream = false → i.mnemonic ≠ "LCW.DEC" →
      t.lcwSp = s.lcwSp ∧ t.status.lcwStop = s.status.lcwStop ∧ t.lcw = s.lcw) ∧
    (i.mnemonic ∉ ["BF.SETKEY", "BF.CLRKEY"] →
      t.kp = s.kp ∧ t.ks = s.ks ∧ t.status.keyvalid = s.status.keyvalid ∧ t.draws = s.draws) ∧
    (i.mnemonic ∉ ["BI.STBE", "BI.STLE", "BF.ENCB", "BF.DECB", "BF.ENC", "BF.DEC", "LCW.DEC", "REL",
      "LIT", "ABS", "FILL", "LABS"] → t.mem = s.mem) ∧
    t.srcAddr = s.srcAddr ∧ t.srcLen = s.srcLen ∧ t.dstAddr = s.dstAddr ∧ t.dstLen = s.dstLen ∧
    t.platform = s.platform ∧ t.inputs = s.inputs ∧ t.hostReads = s.hostReads

/-! ### System commands -/

/-- `SYS.NOP` and `SYS.CLRERR` (spec/45_system.md R260, R261): the encodings, the whole effect, and
that a word with their opcode and another bit set is illegal. -/
def Obligations.SystemCommandsWriteTheErrorRecord : Prop :=
  encode .sysNop = .cmd 0x00000000#32 ∧ encode .sysClrerr = .cmd 0x01000000#32 ∧
  (∀ s : State, exec .sysNop s = .next { s with status := { s.status with err := .ok } }) ∧
  (∀ s : State, exec .sysClrerr s =
    .next { s with status := { s.status with err := .ok, errs := false } }) ∧
  (∀ (w : Word) (s : State),
    (w ≠ 0x00000000#32 ∧ fieldOp w = 0x00#8) ∨ (w ≠ 0x01000000#32 ∧ fieldOp w = 0x01#8) →
    runCommand w s = .next { s with status := { s.status with err := .illegal, errs := true } })

/-! ### BigInt commands -/

/-- `BI.LDI` and `BI.MOV` (spec/40_bigint.md R120, R121), and what `B[r] <- v` means here and in every
other statement: the register written reads as `v`, every other one as before, and nothing but the
register file changes (spec/00_scope.md R9, spec/10_state.md R32). -/
def Obligations.LdiAndMovWriteTheRegister : Prop :=
  (∀ (rd ra : Reg) (imm : BitVec 20) (s : State),
    encode (.biLdi rd imm) = .cmd (formatI20 0x10#8 rd imm) ∧
    exec (.biLdi rd imm) s = .next { s.setB rd (BitVec.ofNat 320 imm.toNat) with
      status := { s.status with err := .ok } } ∧
    encode (.biMov rd ra) = .cmd (formatR 0x11#8 rd ra 0#4 0#4) ∧
    exec (.biMov rd ra) s = .next { s.setB rd (s.getB ra) with
      status := { s.status with err := .ok } }) ∧
  encode (.biLdi 1#4 65537#20) = .cmd 0x10110001#32 ∧
  encode (.biMov 4#4 0#4) = .cmd 0x11400000#32 ∧
  (∀ (r q : Reg) (v : Big) (s : State),
    (s.setB r v).getB q = (if q = r then v else s.getB q) ∧
    s.setB r v = { s with b := (s.setB r v).b })

/-- `BI.CMP` (spec/40_bigint.md R126). -/
def Obligations.CmpReportsTheUnsignedOrder : Prop :=
  (∀ (ra rb : Reg) (s : State),
    encode (.biCmp ra rb) = .cmd (formatR 0x18#8 0#4 ra rb 0#4) ∧
    exec (.biCmp ra rb) s = .next { s with
      flags := { s.flags with lt := decide ((s.getB ra).toNat < (s.getB rb).toNat),
                              eq := decide ((s.getB ra).toNat = (s.getB rb).toNat) },
      status := { s.status with err := .ok } }) ∧
  encode (.biCmp 0#4 1#4) = .cmd 0x18001000#32

/-- `BI.ADD` (spec/40_bigint.md R127): the exact sum split into a 320-bit result and the carry. -/
def Obligations.AddWrapsAndReportsTheCarry : Prop :=
  (∀ (rd ra rb : Reg) (s : State),
    let sum := (s.getB ra).toNat + (s.getB rb).toNat
    encode (.biAdd rd ra rb) = .cmd (formatR 0x19#8 rd ra rb 0#4) ∧
    exec (.biAdd rd ra rb) s = .next { s.setB rd (BitVec.ofNat 320 (sum % 2 ^ 320)) with
      flags := { s.flags with c := decide (sum / 2 ^ 320 = 1), z := decide (sum % 2 ^ 320 = 0) },
      status := { s.status with err := .ok } }) ∧
  encode (.biAdd 2#4 0#4 1#4) = .cmd 0x19201000#32

/-- `BI.SUB` (spec/40_bigint.md R128): `a - b` where it is not negative, `a - b + 2^320` with a borrow
where it is. -/
def Obligations.SubWrapsAndReportsTheBorrow : Prop :=
  (∀ (rd ra rb : Reg) (s : State),
    let a := (s.getB ra).toNat
    let b := (s.getB rb).toNat
    encode (.biSub rd ra rb) = .cmd (formatR 0x1A#8 rd ra rb 0#4) ∧
    exec (.biSub rd ra rb) s = .next
      { s.setB rd (BitVec.ofNat 320 (if b ≤ a then a - b else a + 2 ^ 320 - b)) with
        flags := { s.flags with c := decide (a < b), z := decide (a = b) },
        status := { s.status with err := .ok } }) ∧
  encode (.biSub 2#4 1#4 0#4) = .cmd 0x1A210000#32

/-- `BI.SHL1` and `BI.SHR1` (spec/40_bigint.md R129, R130). -/
def Obligations.ShiftsMoveOneBitIntoTheCarry : Prop :=
  (∀ (rd ra : Reg) (s : State),
    let a := (s.getB ra).toNat
    encode (.biShl1 rd ra) = .cmd (formatR 0x1B#8 rd ra 0#4 0#4) ∧
    exec (.biShl1 rd ra) s = .next { s.setB rd (BitVec.ofNat 320 ((2 * a) % 2 ^ 320)) with
      flags := { s.flags with c := a.testBit 319, z := decide ((2 * a) % 2 ^ 320 = 0) },
      status := { s.status with err := .ok } } ∧
    encode (.biShr1 rd ra) = .cmd (formatR 0x1C#8 rd ra 0#4 0#4) ∧
    exec (.biShr1 rd ra) s = .next { s.setB rd (BitVec.ofNat 320 (a / 2)) with
      flags := { s.flags with c := a.testBit 0, z := decide (a / 2 = 0) },
      status := { s.status with err := .ok } }) ∧
  encode (.biShl1 0#4 0#4) = .cmd 0x1B000000#32 ∧ encode (.biShr1 1#4 0#4) = .cmd 0x1C100000#32

/-- `BI.BIT` (spec/40_bigint.md R131): an index of 320 or more reads 0. -/
def Obligations.BitTestReadsTheBit : Prop :=
  (∀ (ra : Reg) (idx : BitVec 16) (s : State),
    encode (.biBit ra idx) = .cmd (formatI16 0x1D#8 0#4 ra idx) ∧
    exec (.biBit ra idx) s = .next { s with
      result := if idx.toNat < 320 ∧ (s.getB ra).toNat.testBit idx.toNat then 1#32 else 0#32,
      status := { s.status with err := .ok } }) ∧
  encode (.biBit 0#4 2#16) = .cmd 0x1D000002#32

/-- `BI.HSB` (spec/40_bigint.md R132): the largest index of a set bit, or `0xFFFFFFFF` for 0. -/
def Obligations.HsbIsTheLargestSetIndex : Prop :=
  (∀ (ra : Reg) (s : State),
    encode (.biHsb ra) = .cmd (formatR 0x1E#8 0#4 ra 0#4 0#4) ∧
    ((s.getB ra).toNat = 0 → exec (.biHsb ra) s = .next { s with
      result := 0xFFFFFFFF#32, status := { s.status with err := .ok } }) ∧
    (∀ i : Nat, (s.getB ra).toNat.testBit i = true →
      (∀ j, i < j → (s.getB ra).toNat.testBit j = false) →
      i ≤ 319 ∧ exec (.biHsb ra) s = .next { s with
        result := BitVec.ofNat 32 i, status := { s.status with err := .ok } })) ∧
  encode (.biHsb 0#4) = .cmd 0x1E000000#32

/-- `BI.TSTZ` (spec/40_bigint.md R133). -/
def Obligations.TstzReportsZero : Prop :=
  (∀ (ra : Reg) (s : State),
    encode (.biTstz ra) = .cmd (formatR 0x1F#8 0#4 ra 0#4 0#4) ∧
    exec (.biTstz ra) s = .next { s with
      flags := { s.flags with z := decide ((s.getB ra).toNat = 0) },
      result := if (s.getB ra).toNat = 0 then 1#32 else 0#32,
      status := { s.status with err := .ok } }) ∧
  encode (.biTstz 0#4) = .cmd 0x1F000000#32

/-- `BI.MULL` and `BI.MULH` (spec/40_bigint.md R134, R135). -/
def Obligations.MultipliesGiveTheTwoHalves : Prop :=
  (∀ (rd ra rb : Reg) (s : State),
    let product := (s.getB ra).toNat * (s.getB rb).toNat
    encode (.biMull rd ra rb) = .cmd (formatR 0x20#8 rd ra rb 0#4) ∧
    exec (.biMull rd ra rb) s = .next { s.setB rd (BitVec.ofNat 320 (product % 2 ^ 320)) with
      status := { s.status with err := .ok } } ∧
    encode (.biMulh rd ra rb) = .cmd (formatR 0x21#8 rd ra rb 0#4) ∧
    exec (.biMulh rd ra rb) s = .next { s.setB rd (BitVec.ofNat 320 (product / 2 ^ 320)) with
      status := { s.status with err := .ok } }) ∧
  encode (.biMull 2#4 0#4 1#4) = .cmd 0x20201000#32 ∧
  encode (.biMulh 2#4 0#4 1#4) = .cmd 0x21201000#32

/-- The two halves together are the exact 640-bit product, with no wrap (spec/40_bigint.md R136). -/
def Obligations.HalvesMakeTheExactProduct : Prop :=
  ∀ (rd ra rb : Reg) (s : State), ∃ low high : State,
    exec (.biMull rd ra rb) s = .next low ∧ exec (.biMulh rd ra rb) s = .next high ∧
    (s.getB ra).toNat * (s.getB rb).toNat =
      (high.getB rd).toNat * 2 ^ 320 + (low.getB rd).toNat

/-- `BI.LDBE` and `BI.LDLE` on a length of at most 40 and a usable source region (spec/40_bigint.md
R122, R123; spec/20_memory.md R62). -/
def Obligations.LoadsAssembleTheBytes : Prop :=
  ∀ (rd : Reg) (len : BitVec 16) (s : State), len.toNat ≤ 40 →
    SpanReady s.platform (srcSpan s len.toNat) →
    let byte (k : Nat) : Nat := (memRead s.mem (s.srcAddr.toNat + k)).toNat
    exec (.biLdbe rd len) s = .next { s.setB rd (BitVec.ofNat 320
        (∑ k ∈ Finset.range len.toNat, byte k * 256 ^ (len.toNat - 1 - k))) with
      status := { s.status with err := .ok } } ∧
    exec (.biLdle rd len) s = .next { s.setB rd (BitVec.ofNat 320
        (∑ k ∈ Finset.range len.toNat, byte k * 256 ^ k)) with
      status := { s.status with err := .ok } }

/-- `BI.STBE` and `BI.STLE` on a length of at most 40 and a usable destination region: the bytes
stored, and nothing else changed (spec/40_bigint.md R124, R125; spec/20_memory.md R62). -/
def Obligations.StoresWriteTheLowBytes : Prop :=
  ∀ (ra : Reg) (len : BitVec 16) (s : State), len.toNat ≤ 40 →
    SpanReady s.platform (dstSpan s len.toNat) →
    ∃ t u : State,
      exec (.biStbe ra len) s = .next t ∧
      t = { s with mem := t.mem, status := { s.status with err := .ok } } ∧
      SameOutside s t (dstSpan s len.toNat) ∧
      (∀ k, k < len.toNat → (memRead t.mem (s.dstAddr.toNat + k)).toNat =
        ((s.getB ra).toNat / 256 ^ (len.toNat - 1 - k)) % 256) ∧
      exec (.biStle ra len) s = .next u ∧
      u = { s with mem := u.mem, status := { s.status with err := .ok } } ∧
      SameOutside s u (dstSpan s len.toNat) ∧
      (∀ k, k < len.toNat →
        (memRead u.mem (s.dstAddr.toNat + k)).toNat = ((s.getB ra).toNat / 256 ^ k) % 256)

/-- The errors of the four BigInt memory commands, in their order (spec/40_bigint.md R137,
spec/60_exceptions.md R295, R299, R301, R303), and the refusal of a device (spec/20_memory.md R68). -/
def Obligations.BigIntMemoryErrorsInOrder : Prop :=
  ∀ (r : Reg) (len : BitVec 16) (s : State) (i : Instr) (base : Nat),
    (i = .biLdbe r len ∨ i = .biLdle r len) ∧ base = s.srcAddr.toNat ∨
      (i = .biStbe r len ∨ i = .biStle r len) ∧ base = s.dstAddr.toNat →
    (40 < len.toNat → exec i s = .next (s.raise .operand)) ∧
    (0 < len.toNat → len.toNat ≤ 40 → 2 ^ 32 < base + len.toNat →
      exec i s = .next (s.raise .range)) ∧
    (len.toNat ≤ 40 → base + len.toNat ≤ 2 ^ 32 →
      (∃ a, base ≤ a ∧ a < base + len.toNat ∧ memValid s.platform a = false) →
      exec i s = .next (s.raise .bus)) ∧
    (len.toNat ≤ 40 → base + len.toNat ≤ 2 ^ 32 →
      (∀ a, base ≤ a → a < base + len.toNat → memValid s.platform a = true) →
      (∃ a, base ≤ a ∧ a < base + len.toNat ∧ isDevice s.platform a = true) →
      exec i s = .refused .deviceRegion)

/-! ### Modular commands -/

/-- `MOD.MUL` (spec/41_modular.md R161): the residue of the exact product, and `ERR_MOD_ZERO`. -/
def Obligations.ModMulIsTheResidueOfTheProduct : Prop :=
  (∀ (rd ra rb rc : Reg) (s : State),
    let m := (s.getB rc).toNat
    encode (.modMul rd ra rb rc) = .cmd (formatR 0x28#8 rd ra rb rc) ∧
    (m = 0 → exec (.modMul rd ra rb rc) s =
      .next { s with status := { s.status with err := .modZero, errs := true } }) ∧
    (m ≠ 0 → exec (.modMul rd ra rb rc) s = .next
      { s.setB rd (BitVec.ofNat 320 (((s.getB ra).toNat * (s.getB rb).toNat) % m)) with
        status := { s.status with err := .ok } })) ∧
  encode (.modMul 3#4 0#4 1#4 2#4) = .cmd 0x28301200#32

/-- `MOD.EXP` (spec/41_modular.md R163): `ERR_MOD_ZERO` before the exponent is looked at, 1 for
exponent 0, else the residue of the exact power. -/
def Obligations.ModExpIsTheResidueOfThePower : Prop :=
  (∀ (rd ra rb rc : Reg) (s : State),
    let a := (s.getB ra).toNat
    let e := (s.getB rb).toNat
    let m := (s.getB rc).toNat
    encode (.modExp rd ra rb rc) = .cmd (formatR 0x29#8 rd ra rb rc) ∧
    (m = 0 → exec (.modExp rd ra rb rc) s =
      .next { s with status := { s.status with err := .modZero, errs := true } }) ∧
    (m ≠ 0 → e = 0 → exec (.modExp rd ra rb rc) s = .next { s.setB rd 1#320 with
      status := { s.status with err := .ok } }) ∧
    (m ≠ 0 → e ≠ 0 → exec (.modExp rd ra rb rc) s = .next
      { s.setB rd (BitVec.ofNat 320 (a ^ e % m)) with status := { s.status with err := .ok } })) ∧
  encode (.modExp 3#4 0#4 1#4 2#4) = .cmd 0x29301200#32

/-- The source's shift-and-subtract algorithm gives the residue that `MOD.MUL` is defined by
(spec/41_modular.md R162, R161). -/
def Obligations.ShiftSubtractAlgorithmComputesTheResidue : Prop :=
  ∀ a b m : Nat, 0 < m → modMulReference a b m = (a * b) % m

/-! ### Blowfish -/

/-- `Enc` and `Dec`, written out on halves `(L, R)`: the F-function of spec/42_blowfish.md R181; 16
rounds, the last swap undone, `P[16]` into `R` and `P[17]` into `L` (R182); the same with the subkeys from
`P[17]` down to `P[2]`, then `P[1]` and `P[0]` (R185). Whatever the tables hold, each undoes the other
(R185). The bytes that index the boxes and the halves that take the last two subkeys are marked 'from
general knowledge, not in source' by R181 and R182 (log 9). -/
def Obligations.DecryptionUndoesEncryption : Prop :=
  ∀ (P : Fin 18 → Word) (S : Fin 4 → Byte → Word) (lr : Word × Word),
    let F (x : Word) : Word :=
      ((S 0 (BitVec.ofNat 8 (x.toNat / 2 ^ 24)) + S 1 (BitVec.ofNat 8 (x.toNat / 2 ^ 16)))
        ^^^ S 2 (BitVec.ofNat 8 (x.toNat / 2 ^ 8))) + S 3 (BitVec.ofNat 8 x.toNat)
    let round (x : Word × Word) (i : Fin 18) : Word × Word :=
      (x.2 ^^^ F (x.1 ^^^ P i), x.1 ^^^ P i)
    let encRounds := [0, 1, 2, 3, 4, 5, 6, 7, 8, 9, 10, 11, 12, 13, 14, 15].foldl round lr
    let decRounds := [17, 16, 15, 14, 13, 12, 11, 10, 9, 8, 7, 6, 5, 4, 3, 2].foldl round lr
    encHalves P S lr = (encRounds.2 ^^^ P 17, encRounds.1 ^^^ P 16) ∧
    decHalves P S lr = (decRounds.2 ^^^ P 0, decRounds.1 ^^^ P 1) ∧
    decHalves P S (encHalves P S lr) = lr ∧ encHalves P S (decHalves P S lr) = lr

/-- The key is mixed cyclically into the 18 words, the first of four bytes most significant
(spec/42_blowfish.md R183); that order of the four is presumed (log 9). -/
def Obligations.KeyBytesAreMixedCyclically : Prop :=
  ∀ (key : List Byte) (p : BitVec 576) (i : Nat), 1 ≤ key.length → key.length ≤ 56 → i < 18 →
    let byte (k : Nat) : Nat := (key.getD ((4 * i + k) % key.length) 0#8).toNat
    wordAt 576 (mixKey key p) i = wordAt 576 p i ^^^
      BitVec.ofNat 32 (byte 0 * 2 ^ 24 + byte 1 * 2 ^ 16 + byte 2 * 2 ^ 8 + byte 3)

/-- `BF.SETKEY` on a key of 1 to 56 bytes and a usable source region: `KEYVALID` set, the working
tables those of the schedule of the key bytes alone, nothing else changed (spec/42_blowfish.md R184,
R191 (iv)). The schedule is then written out by its recurrence (R184): from `P0` with the key mixed in,
`S0` and the zero block, encryption after encryption takes the last output as its input, uses the entries
already replaced, and replaces the next pair, first of `P`, then of `S[0]` to `S[3]`. `P0`, `S0` and the
packing of the key bytes are presumed (log 9). -/
def Obligations.SetkeyInstallsTheScheduleOfTheKey : Prop :=
  ∀ s : State, 1 ≤ s.srcLen.toNat → s.srcLen.toNat ≤ 56 →
    SpanReady s.platform (srcSpan s s.srcLen.toNat) →
    ∃ t, exec .bfSetkey s = .next t ∧
      t = { s with kp := t.kp, ks := t.ks,
                   status := { s.status with keyvalid := true, err := .ok } } ∧
      (∀ key : List Byte, key.length = s.srcLen.toNat →
        (∀ k, k < key.length → key.getD k 0#8 = memRead s.mem (s.srcAddr.toNat + k)) →
        (∀ i : Fin 18, t.kpAt i = tableP (keySchedule key) i) ∧
        (∀ (b : Fin 4) (x : Byte), t.ksAt b x = tableS (keySchedule key) b x)) ∧
      let keyByte (k : Nat) : Nat :=
        (memRead s.mem (s.srcAddr.toNat + k % s.srcLen.toNat)).toNat
      let P0 (i : Fin 18) : Word := wordAt 576 initialP i.val ^^^
        BitVec.ofNat 32 (keyByte (4 * i.val) * 2 ^ 24 + keyByte (4 * i.val + 1) * 2 ^ 16
          + keyByte (4 * i.val + 2) * 2 ^ 8 + keyByte (4 * i.val + 3))
      let S0 (b : Fin 4) (x : Byte) : Word := wordAt 32768 initialS (256 * b.val + x.toNat)
      let kp (i : Nat) : Word := t.kpAt (Fin.ofNat 18 i)
      let ks (i : Nat) : Word := t.ksAt (Fin.ofNat 4 (i / 256)) (BitVec.ofNat 8 i)
      (∀ j, j < 9 →
        (kp (2 * j), kp (2 * j + 1)) =
          encHalves (fun i => if i.val < 2 * j then t.kpAt i else P0 i) S0
            (if j = 0 then (0#32, 0#32) else (kp (2 * j - 2), kp (2 * j - 1)))) ∧
      (∀ j, j < 512 →
        (ks (2 * j), ks (2 * j + 1)) =
          encHalves t.kpAt
            (fun b x => if 256 * b.val + x.toNat < 2 * j then t.ksAt b x else S0 b x)
            (if j = 0 then (kp 16, kp 17) else (ks (2 * j - 2), ks (2 * j - 1))))

/-- `ERR_KEY_LEN`: raised for a key length of 0 or above 56, and the previous schedule stays
(spec/60_exceptions.md R298). -/
def Obligations.SetkeyRefusesTheKeyLength : Prop :=
  ∀ s : State, s.srcLen.toNat = 0 ∨ 56 < s.srcLen.toNat →
    exec .bfSetkey s = .next { s with status := { s.status with err := .keyLen, errs := true } }

/-- `BF.ENCB` and `BF.DECB` with a key, on usable regions that are identical or share no byte: the
block stored, and nothing else changed (spec/42_blowfish.md R186, R187). -/
def Obligations.OneBlockCommandsCipherTheBlock : Prop :=
  ∀ s : State, s.status.keyvalid = true →
    SpanReady s.platform (srcSpan s 8) → SpanReady s.platform (dstSpan s 8) →
    s.srcAddr = s.dstAddr ∨ SpansApart (srcSpan s 8) (dstSpan s 8) →
    ∃ t u : State,
      exec .bfEncb s = .next t ∧
      t = { s with mem := t.mem, status := { s.status with err := .ok } } ∧
      SameOutside s t (dstSpan s 8) ∧
      blockAt t.mem s.dstAddr.toNat = encHalves s.kpAt s.ksAt (blockAt s.mem s.srcAddr.toNat) ∧
      exec .bfDecb s = .next u ∧
      u = { s with mem := u.mem, status := { s.status with err := .ok } } ∧
      SameOutside s u (dstSpan s 8) ∧
      blockAt u.mem s.dstAddr.toNat = decHalves s.kpAt s.ksAt (blockAt s.mem s.srcAddr.toNat)

/-- `BF.ENC` and `BF.DEC` with a key, on a length that is a multiple of 8 and usable regions that are
identical or share no byte: each block of the output is the cipher of that block of the input alone,
and nothing else changed (spec/42_blowfish.md R188, R189, R191 (ii)). -/
def Obligations.BulkCommandsCipherBlockByBlock : Prop :=
  ∀ s : State, s.status.keyvalid = true → s.srcLen.toNat % 8 = 0 →
    SpanReady s.platform (srcSpan s s.srcLen.toNat) →
    SpanReady s.platform (dstSpan s s.srcLen.toNat) →
    s.srcAddr = s.dstAddr ∨ SpansApart (srcSpan s s.srcLen.toNat) (dstSpan s s.srcLen.toNat) →
    ∃ t u : State,
      exec .bfEnc s = .next t ∧
      t = { s with mem := t.mem, status := { s.status with err := .ok } } ∧
      SameOutside s t (dstSpan s s.srcLen.toNat) ∧
      (∀ k, k < s.srcLen.toNat / 8 → blockAt t.mem (s.dstAddr.toNat + 8 * k) =
        encHalves s.kpAt s.ksAt (blockAt s.mem (s.srcAddr.toNat + 8 * k))) ∧
      exec .bfDec s = .next u ∧
      u = { s with mem := u.mem, status := { s.status with err := .ok } } ∧
      SameOutside s u (dstSpan s s.srcLen.toNat) ∧
      (∀ k, k < s.srcLen.toNat / 8 → blockAt u.mem (s.dstAddr.toNat + 8 * k) =
        decHalves s.kpAt s.ksAt (blockAt s.mem (s.srcAddr.toNat + 8 * k)))

/-- The round trip in place: `BF.ENC` and then `BF.DEC` give back every byte of memory, and so do
`BF.DEC` and then `BF.ENC` (spec/42_blowfish.md R191 (i), (ii)). -/
def Obligations.BulkRoundTripRestoresMemory : Prop :=
  ∀ s : State, s.status.keyvalid = true → s.srcLen.toNat % 8 = 0 → s.srcAddr = s.dstAddr →
    SpanReady s.platform (srcSpan s s.srcLen.toNat) →
    (∃ t u : State, exec .bfEnc s = .next t ∧ exec .bfDec t = .next u ∧
      ∀ a, memRead u.mem a = memRead s.mem a) ∧
    (∃ t u : State, exec .bfDec s = .next t ∧ exec .bfEnc t = .next u ∧
      ∀ a, memRead u.mem a = memRead s.mem a)

/-- `ERR_NO_KEY` comes before every other check of the cipher commands (spec/60_exceptions.md R296,
R303). -/
def Obligations.CipherCommandsNeedAKey : Prop :=
  ∀ s : State, s.status.keyvalid = false →
    ∀ i : Instr, i = .bfEncb ∨ i = .bfDecb ∨ i = .bfEnc ∨ i = .bfDec →
      exec i s = .next { s with status := { s.status with err := .noKey, errs := true } }

/-- `ERR_LENGTH` (spec/60_exceptions.md R302): nothing is processed or padded, and a length of 0
succeeds and changes no byte. With no key the error is `ERR_NO_KEY` (rule R303). -/
def Obligations.BulkLengthMustBeAMultipleOfEight : Prop :=
  ∀ s : State, s.status.keyvalid = true →
    (s.srcLen.toNat % 8 ≠ 0 →
      exec .bfEnc s = .next { s with status := { s.status with err := .length, errs := true } } ∧
      exec .bfDec s = .next { s with status := { s.status with err := .length, errs := true } }) ∧
    (s.srcLen.toNat = 0 →
      exec .bfEnc s = .next { s with status := { s.status with err := .ok } } ∧
      exec .bfDec s = .next { s with status := { s.status with err := .ok } })

/-- The address errors of the Blowfish memory commands and of `LCW.DEC`, in their order: `ERR_RANGE`,
`ERR_OVERLAP`, `ERR_BUS` (spec/60_exceptions.md R299 to R301, R303), then the refusal of a device
(spec/20_memory.md R68). `identical` says that the command works in place on identical regions. -/
def Obligations.RegionErrorsInOrder : Prop :=
  ∀ (s : State) (i : Instr) (n m : Nat) (identical : Bool),
    ((i = .bfEncb ∨ i = .bfDecb) ∧ n = 8 ∧ m = 8 ∧ identical = true ∧ s.status.keyvalid = true) ∨
    ((i = .bfEnc ∨ i = .bfDec) ∧ n = s.srcLen.toNat ∧ m = n ∧ identical = true ∧
      s.status.keyvalid = true ∧ n % 8 = 0) ∨
    (i = .bfSetkey ∧ n = s.srcLen.toNat ∧ 1 ≤ n ∧ n ≤ 56 ∧ m = 0 ∧ identical = false) ∨
    (i = .lcwDec ∧ n = s.srcLen.toNat ∧ m = s.dstLen.toNat ∧ identical = false) →
    let A := s.srcAddr.toNat
    let B := s.dstAddr.toNat
    let touched (a : Nat) : Prop := A ≤ a ∧ a < A + n ∨ B ≤ a ∧ a < B + m
    let inRange := (n = 0 ∨ A + n ≤ 2 ^ 32) ∧ (m = 0 ∨ B + m ≤ 2 ^ 32)
    let clash := n ≠ 0 ∧ m ≠ 0 ∧ A < B + m ∧ B < A + n ∧ ¬(identical = true ∧ A = B)
    (¬inRange → exec i s = .next (s.raise .range)) ∧
    (inRange → clash → exec i s = .next (s.raise .overlap)) ∧
    (inRange → ¬clash → (∃ a, touched a ∧ memValid s.platform a = false) →
      exec i s = .next (s.raise .bus)) ∧
    (inRange → ¬clash → (∀ a, touched a → memValid s.platform a = true) →
      (∃ a, touched a ∧ isDevice s.platform a = true) → exec i s = .refused .deviceRegion)

/-- `BF.CLRKEY` (spec/42_blowfish.md R190): `KEYVALID` cleared, `KP` and `KS` any values, nothing else of
the block changed; the cipher commands then raise `ERR_NO_KEY`. The counter of free values is the
model's own (log 6). -/
def Obligations.ClrkeyDiscardsTheSchedule : Prop :=
  encode .bfClrkey = .cmd 0x35000000#32 ∧
  ∀ s : State, ∃ t kp ks n, exec .bfClrkey s = .next t ∧
    t = { s with kp := kp, ks := ks, draws := n,
                 status := { s.status with keyvalid := false, err := .ok } } ∧
    exec .bfEncb t = .next { t with status := { t.status with err := .noKey, errs := true } }

/-! ### The LCW stream commands -/

/-- `REL` that fits and refers to output already written (spec/44_lcw.md R230, R224): every byte stored
equals, in the memory left, the byte `distance` before it. -/
def Obligations.RelRepeatsEarlierOutput : Prop :=
  ∀ (s : State) (r : LcwRun) (ccc : BitVec 3) (dddd : BitVec 4),
    s.good = true → s.lcw = some r → r.sp.toNat + 2 ≤ s.srcLen.toNat →
    let count := ccc.toNat + 3
    let distance := dddd.toNat * 256 + (memRead s.mem (s.srcAddr.toNat + r.sp.toNat + 1)).toNat
    1 ≤ distance → distance ≤ r.dp.toNat → r.dp.toNat + count ≤ s.dstLen.toNat →
    ∃ t, exec (.rel ccc dddd) s = .next t ∧
      t = { s with mem := t.mem,
                   lcw := some { sp := r.sp + 2#32, dp := r.dp + BitVec.ofNat 32 count } } ∧
      SameOutside s t { base := s.dstAddr.toNat + r.dp.toNat, len := count } ∧
      ∀ k, k < count → memRead t.mem (s.dstAddr.toNat + r.dp.toNat + k) =
        memRead t.mem (s.dstAddr.toNat + r.dp.toNat + k - distance)

/-- `ABS` and `LABS` that fit and refer to output already written (spec/44_lcw.md R233, R235, R224): every
byte stored equals, in the memory left, the byte at the same distance from `pos`. -/
def Obligations.AbsoluteReferencesRepeatEarlierOutput : Prop :=
  ∀ (s : State) (r : LcwRun) (i : Instr) (size count pos : Nat),
    s.good = true → s.lcw = some r → r.sp.toNat + size ≤ s.srcLen.toNat →
    (let byte (k : Nat) : Nat := (memRead s.mem (s.srcAddr.toNat + r.sp.toNat + k)).toNat
     (∃ n : BitVec 6, i = .abs n ∧ size = 3 ∧ count = n.toNat + 3 ∧ pos = byte 1 + 256 * byte 2) ∨
     (i = .labs ∧ size = 5 ∧ count = byte 1 + 256 * byte 2 ∧ pos = byte 3 + 256 * byte 4)) →
    pos < r.dp.toNat → r.dp.toNat + count ≤ s.dstLen.toNat →
    ∃ t, exec i s = .next t ∧
      t = { s with mem := t.mem,
                   lcw := some { sp := r.sp + BitVec.ofNat 32 size,
                                 dp := r.dp + BitVec.ofNat 32 count } } ∧
      SameOutside s t { base := s.dstAddr.toNat + r.dp.toNat, len := count } ∧
      ∀ k, k < count → memRead t.mem (s.dstAddr.toNat + r.dp.toNat + k) =
        memRead t.mem (s.dstAddr.toNat + pos + k)

/-- `LIT` that is all there and fits (spec/44_lcw.md R232): the bytes after the command byte, copied
unread. -/
def Obligations.LitCopiesTheLiteralBytes : Prop :=
  ∀ (s : State) (r : LcwRun) (n : BitVec 6),
    s.good = true → s.lcw = some r → r.sp.toNat + 1 + n.toNat ≤ s.srcLen.toNat →
    r.dp.toNat + n.toNat ≤ s.dstLen.toNat →
    ∃ t, exec (.lit n) s = .next t ∧
      t = { s with mem := t.mem,
                   lcw := some { sp := r.sp + BitVec.ofNat 32 (1 + n.toNat),
                                 dp := r.dp + BitVec.ofNat 32 n.toNat } } ∧
      SameOutside s t { base := s.dstAddr.toNat + r.dp.toNat, len := n.toNat } ∧
      ∀ k, k < n.toNat → memRead t.mem (s.dstAddr.toNat + r.dp.toNat + k) =
        memRead s.mem (s.srcAddr.toNat + r.sp.toNat + 1 + k)

/-- `FILL` that is all there (spec/44_lcw.md R234): clipped to the space left, never a stop for want of
space. -/
def Obligations.FillIsClippedToTheCapacity : Prop :=
  ∀ (s : State) (r : LcwRun),
    s.good = true → s.lcw = some r → r.sp.toNat + 4 ≤ s.srcLen.toNat →
    let byte (k : Nat) : Byte := memRead s.mem (s.srcAddr.toNat + r.sp.toNat + k)
    let n := min ((byte 1).toNat + 256 * (byte 2).toNat) (s.dstLen.toNat - r.dp.toNat)
    ∃ t, exec .fill s = .next t ∧
      t = { s with mem := t.mem,
                   lcw := some { sp := r.sp + 4#32, dp := r.dp + BitVec.ofNat 32 n } } ∧
      SameOutside s t { base := s.dstAddr.toNat + r.dp.toNat, len := n } ∧
      ∀ k, k < n → memRead t.mem (s.dstAddr.toNat + r.dp.toNat + k) = byte 3

/-- `END` ends the run just past its byte and writes nothing to memory (spec/44_lcw.md R231, R220). -/
def Obligations.EndStopsTheRun : Prop :=
  encode .endMark = .stream 0x80#8 ∧
  ∀ (s : State) (r : LcwRun), s.lcw = some r →
    exec .endMark s = .next { s with
      result := r.dp, lcwSp := r.sp + 1#32, lcw := none,
      status := { s.status with lcwStop := .endMark, err := .ok } }

/-- The checks of a stream command in their order: its bytes, its reference, the space; a command that
stops has written nothing and advanced nothing (spec/44_lcw.md R223, R226, R230, R232 to R235). -/
def Obligations.StreamCommandsStopInOrder : Prop :=
  ∀ (s : State) (r : LcwRun), s.lcw = some r →
    let left := s.srcLen.toNat - r.sp.toNat
    let space := s.dstLen.toNat - r.dp.toNat
    let byte (k : Nat) : Nat := (s.readByte (s.srcAddr + r.sp + BitVec.ofNat 32 k)).toNat
    let stop (why : LcwStop) : Outcome := .next { s with
      result := r.dp, lcwSp := r.sp, lcw := none,
      status := { s.status with lcwStop := why, err := .ok } }
    (∀ (ccc : BitVec 3) (dddd : BitVec 4),
      let distance := dddd.toNat * 256 + byte 1
      (left < 2 → exec (.rel ccc dddd) s = stop .abortSrc) ∧
      (2 ≤ left → distance = 0 ∨ r.dp.toNat < distance →
        exec (.rel ccc dddd) s = stop .abortRef) ∧
      (2 ≤ left → 1 ≤ distance → distance ≤ r.dp.toNat → space < ccc.toNat + 3 →
        exec (.rel ccc dddd) s = stop .abortDst)) ∧
    (∀ n : BitVec 6,
      (left < 1 + n.toNat → exec (.lit n) s = stop .abortSrc) ∧
      (1 + n.toNat ≤ left → space < n.toNat → exec (.lit n) s = stop .abortDst)) ∧
    (∀ n : BitVec 6,
      (left < 3 → exec (.abs n) s = stop .abortSrc) ∧
      (3 ≤ left → r.dp.toNat ≤ byte 1 + 256 * byte 2 → exec (.abs n) s = stop .abortRef) ∧
      (3 ≤ left → byte 1 + 256 * byte 2 < r.dp.toNat → space < n.toNat + 3 →
        exec (.abs n) s = stop .abortDst)) ∧
    (left < 4 → exec .fill s = stop .abortSrc) ∧
    (left < 5 → exec .labs s = stop .abortSrc) ∧
    (5 ≤ left → r.dp.toNat ≤ byte 3 + 256 * byte 4 → exec .labs s = stop .abortRef) ∧
    (5 ≤ left → byte 3 + 256 * byte 4 < r.dp.toNat → space < byte 1 + 256 * byte 2 →
      exec .labs s = stop .abortDst)

/-! ### `LCW.DEC` -/

/-- `LCW.DEC` on usable regions that share no byte ends without error for any source bytes: inside its
regions, with a stop reason, and only the first `RESULT` bytes of the destination changed
(spec/44_lcw.md R220, R225, R236 (i), (iii), (v)). -/
def Obligations.LcwDecStaysInsideItsRegions : Prop :=
  ∀ s : State, SpanReady s.platform (srcSpan s s.srcLen.toNat) →
    SpanReady s.platform (dstSpan s s.dstLen.toNat) →
    SpansApart (srcSpan s s.srcLen.toNat) (dstSpan s s.dstLen.toNat) →
    ∃ t, exec .lcwDec s = .next t ∧
      t = { s with mem := t.mem, result := t.result, lcwSp := t.lcwSp, lcw := none,
                   status := { s.status with err := .ok, lcwStop := t.status.lcwStop } } ∧
      t.status.lcwStop ≠ .unset ∧
      t.result.toNat ≤ s.dstLen.toNat ∧ t.lcwSp.toNat ≤ s.srcLen.toNat ∧
      SameOutside s t (dstSpan s t.result.toNat)

/-- `LCW.DEC` as one command does what the machine does command by command from `sp = dp = 0`, in at most
`N + 1` steps (spec/44_lcw.md R220, R225). That `LCW.DEC` is one atomic command is read from
spec/00_scope.md R10; that a step from a state holding a run is one pass of its loop is the model's
choice (log 10). -/
def Obligations.LcwDecIsItsStreamCommandsInOrder : Prop :=
  ∀ s : State, SpanReady s.platform (srcSpan s s.srcLen.toNat) →
    SpanReady s.platform (dstSpan s s.dstLen.toNat) →
    SpansApart (srcSpan s s.srcLen.toNat) (dstSpan s s.dstLen.toNat) →
    ∃ k, k ≤ s.srcLen.toNat + 1 ∧
      Host.Core.run Sys2Proof.core k { s with lcw := some { sp := 0#32, dp := 0#32 } } =
        exec .lcwDec s

/-- The result of `LCW.DEC` is a function of the source bytes and the capacity alone (spec/44_lcw.md R236
(vi)). -/
def Obligations.LcwDecDependsOnSourceAndCapacityOnly : Prop :=
  ∀ s₁ s₂ t₁ t₂ : State,
    (∀ s : State, s = s₁ ∨ s = s₂ →
      SpanReady s.platform (srcSpan s s.srcLen.toNat) ∧
      SpanReady s.platform (dstSpan s s.dstLen.toNat) ∧
      SpansApart (srcSpan s s.srcLen.toNat) (dstSpan s s.dstLen.toNat)) →
    s₁.srcLen = s₂.srcLen → s₁.dstLen = s₂.dstLen →
    (∀ k, k < s₁.srcLen.toNat →
      memRead s₁.mem (s₁.srcAddr.toNat + k) = memRead s₂.mem (s₂.srcAddr.toNat + k)) →
    exec .lcwDec s₁ = .next t₁ → exec .lcwDec s₂ = .next t₂ →
    t₁.result = t₂.result ∧ t₁.lcwSp = t₂.lcwSp ∧ t₁.status.lcwStop = t₂.status.lcwStop ∧
    ∀ k, k < t₁.result.toNat →
      memRead t₁.mem (s₁.dstAddr.toNat + k) = memRead t₂.mem (s₂.dstAddr.toNat + k)

/-! ### The host's window, memory and reset -/

/-- The error codes and the stop codes (spec/60_exceptions.md R291, spec/44_lcw.md R226). -/
def Obligations.ErrorAndStopCodes : Prop :=
  [Err.ok, .illegal, .operand, .modZero, .noKey, .keyLen, .length, .range, .overlap, .bus].map
      (fun e => (errCode e).toNat) = [0, 1, 2, 3, 4, 5, 6, 7, 8, 9] ∧
  [LcwStop.unset, .endMark, .srcEnd, .abortSrc, .abortDst, .abortRef].map
      (fun x => (stopCode x).toNat) = [0, 1, 2, 3, 4, 5]

/-- An aligned 32-bit read of the window returns the register at its offset and changes nothing
(spec/10_state.md R22, R24, R25, R39). That the value read is put at the head of a list is the model's
choice (log 1). -/
def Obligations.WindowReadsReturnTheRegister : Prop :=
  ∀ (s : State) (offset : Nat) (rest : List Input),
    s.lcw = none → s.platform.hostBase % 4 = 0 → offset < 256 → offset % 4 = 0 →
    s.inputs = .read (s.platform.hostBase + offset) 4 :: rest →
    let bit (v : Bool) : Nat := if v then 1 else 0
    ∃ v : Word, step s = .next { s with inputs := rest, hostReads := v :: s.hostReads } ∧
      (offset = 0x00 → v = 0#32) ∧
      (offset = 0x04 → v.toNat = (errCode s.status.err).toNat + 256 * bit s.status.errs
        + 512 * bit s.status.keyvalid + 4096 * (stopCode s.status.lcwStop).toNat) ∧
      (offset = 0x08 → v.toNat = bit s.flags.c + 2 * bit s.flags.z + 4 * bit s.flags.lt
        + 8 * bit s.flags.eq) ∧
      (offset = 0x0C → v = s.result) ∧ (offset = 0x10 → v = s.srcAddr) ∧
      (offset = 0x14 → v = s.srcLen) ∧ (offset = 0x18 → v = s.dstAddr) ∧
      (offset = 0x1C → v = s.dstLen) ∧ (offset = 0x20 → v = s.lcwSp) ∧ (0x24 ≤ offset → v = 0#32)

/-- An aligned 32-bit write of the window at an offset other than `CMD`'s stores into an operand register
or is ignored, and has no other effect (spec/10_state.md R22, R39). That the write is the head of a list,
which the step takes away, is the model's choice (log 1). -/
def Obligations.WindowWritesReachOperandRegistersOnly : Prop :=
  ∀ (s : State) (offset : Nat) (v : Word) (rest : List Input),
    s.lcw = none → s.platform.hostBase % 4 = 0 → 0 < offset → offset < 256 → offset % 4 = 0 →
    s.inputs = .write (s.platform.hostBase + offset) 4 v :: rest →
    step s = .next { s with
      inputs := rest,
      srcAddr := if offset = 0x10 then v else s.srcAddr,
      srcLen := if offset = 0x14 then v else s.srcLen,
      dstAddr := if offset = 0x18 then v else s.dstAddr,
      dstLen := if offset = 0x1C then v else s.dstLen }

/-- What stops the machine, each by its name: a host access outside the window or of another width or
alignment (spec/10_state.md R22, R39), a host access to memory that is absent or a device
(spec/20_memory.md R68), a stream command with no `LCW.DEC` running (logs 5, 7, 4, 8). -/
def Obligations.WhatHasNoMeaningStopsByName : Prop :=
  ∀ (s : State) (rest : List Input), s.lcw = none →
    (∀ (addr bytes : Nat) (v : Word),
      s.inputs = .read addr bytes :: rest ∨ s.inputs = .write addr bytes v :: rest →
      (addr < s.platform.hostBase ∨ s.platform.hostBase + 256 ≤ addr →
        step s = .refused .outsideWindow) ∧
      (s.platform.hostBase ≤ addr → addr < s.platform.hostBase + 256 →
        bytes ≠ 4 ∨ addr % 4 ≠ 0 → step s = .refused .hostAccessShape)) ∧
    (∀ (a : Word) (v : Byte),
      s.inputs = .memRead a :: rest ∨ s.inputs = .memWrite a v :: rest →
      (memValid s.platform a.toNat = false → step s = .fault .hostMemoryAbsent) ∧
      (memValid s.platform a.toNat = true → isDevice s.platform a.toNat = true →
        step s = .refused .deviceRegion)) ∧
    (∀ i : Instr, i.isStream = true → exec i s = .refused .streamCommandIdle)

/-- A host write of a memory byte, where plain memory is, is what a host read of it then returns, and
changes no other byte (spec/20_memory.md R68, R73). That the host's accesses are single bytes at the head
of a list is the model's choice (log 1). -/
def Obligations.HostMemoryWriteIsReadBack : Prop :=
  ∀ (s : State) (a : Word) (v : Byte) (rest : List Input),
    s.lcw = none → memValid s.platform a.toNat = true → isDevice s.platform a.toNat = false →
    s.inputs = .memWrite a v :: .memRead a :: rest →
    ∃ t, step s = .next t ∧
      t = { s with mem := t.mem, inputs := .memRead a :: rest } ∧
      (∀ x, x ≠ a.toNat → memRead t.mem x = memRead s.mem x) ∧
      step t = .next { t with inputs := rest,
                              hostReads := BitVec.ofNat 32 v.toNat :: s.hostReads }

/-- Reset of an idle block: every register at its reset value, `KP` and `KS` any values, memory untouched
(spec/70_reset_and_hazards.md R330, spec/10_state.md R40). The platform, the host's actions and its
record of reads stay: they are the model's own (logs 1, 4, 5), as is the counter of free values (log 6). -/
def Obligations.ResetPutsTheBlockAtItsResetState : Prop :=
  ∀ (s : State) (rest : List Input), s.lcw = none → s.inputs = .reset :: rest →
    ∃ kp ks n, step s = .next { State.reset with
      kp := kp, ks := ks, draws := n, mem := s.mem, platform := s.platform, inputs := rest,
      hostReads := s.hostReads }

/-- Reset while a command runs: the registers at their reset values, and every byte of memory its old
value or the one the whole command would have left (spec/70_reset_and_hazards.md R331). How such a reset
is asserted is the model's choice (logs 1, 11). -/
def Obligations.ResetDuringACommandLeavesOldOrNewBytes : Prop :=
  ∀ (s u : State) (w : Word) (rest : List Input),
    s.lcw = none → s.inputs = .resetDuring w :: rest →
    runCommand w { s with inputs := rest } = .next u →
    ∃ t kp ks n, step s = .next t ∧
      t = { State.reset with kp := kp, ks := ks, draws := n, mem := t.mem, platform := s.platform,
                             inputs := rest, hostReads := s.hostReads } ∧
      ∀ a, memRead t.mem a = memRead s.mem a ∨ memRead t.mem a = memRead u.mem a
end

