-- ==== Sys2Proof/Laws/Blowfish.lean ====
section
/-! SUPPORT. What the table operations of the Blowfish key schedule and a cipher round do. -/

namespace Sys2Proof.Laws

open Sys2Proof Sys2Proof.Machine

/-- Bit `k` of word `i` of a table. -/
theorem getLsbD_wordAt (n : Nat) (t : BitVec n) (i k : Nat) :
    (wordAt n t i).getLsbD k = (decide (k < 32) && t.getLsbD (n - 32 * (i + 1) + k)) := by
  simp [wordAt, BitVec.getLsbD_extractLsb']

/-- A word replaced reads as the new value, every other word as before. -/
theorem wordAt_setWordAt (n : Nat) (t : BitVec n) (i j : Nat) (v : Word)
    (hi : 32 * (i + 1) ≤ n) (hj : 32 * (j + 1) ≤ n) :
    wordAt n (setWordAt n t i v) j = if j = i then v else wordAt n t j := by
  apply BitVec.eq_of_getLsbD_eq
  intro k hk
  rw [getLsbD_wordAt]
  simp only [hk, decide_true, Bool.true_and, setWordAt, BitVec.getLsbD_xor,
    BitVec.getLsbD_shiftLeft, BitVec.getLsbD_setWidth, getLsbD_wordAt]
  have hin : n - 32 * (j + 1) + k < n := by omega
  by_cases h : j = i
  · subst h
    have hk' : k < n := by omega
    simp [hin, hk, hk']
  · by_cases hlt : n - 32 * (j + 1) + k < n - 32 * (i + 1)
    · rw [if_neg h, getLsbD_wordAt]; simp [hin, hlt, hk]
    · have hge : ¬(n - 32 * (j + 1) + k - (n - 32 * (i + 1)) < 32) := by omega
      have hv : v.getLsbD (n - 32 * (j + 1) + k - (n - 32 * (i + 1))) = false :=
        BitVec.getLsbD_of_ge _ _ (by omega)
      rw [if_neg h, getLsbD_wordAt]; simp [hin, hk, hge, hv]

/-- The rounds for two lists of subkeys, one after the other. -/
theorem feistelRounds_append (P : Fin 18 → Word) (S : Fin 4 → Byte → Word)
    (xs ys : List (Fin 18)) (lr : Word × Word) :
    feistelRounds P S (xs ++ ys) lr = feistelRounds P S ys (feistelRounds P S xs lr) := by
  induction xs generalizing lr with
  | nil => rfl
  | cons i xs ih => exact ih _

end Sys2Proof.Laws
end

