-- ==== Sys2Proof/Laws/State.lean ====
section
/-! SUPPORT. One lemma per field per state update, so that no proof unfolds a record update. -/

namespace Sys2Proof.Laws

open Sys2Proof.Machine

/-! ### `setB` -/

@[simp] theorem setB_b (s : State) (r : Reg) (v : Big) :
    (s.setB r v).b = s.b.set r.toNat v := rfl
@[simp] theorem setB_flags (s : State) (r : Reg) (v : Big) :
    (s.setB r v).flags = s.flags := rfl
@[simp] theorem setB_result (s : State) (r : Reg) (v : Big) :
    (s.setB r v).result = s.result := rfl
@[simp] theorem setB_status (s : State) (r : Reg) (v : Big) :
    (s.setB r v).status = s.status := rfl
@[simp] theorem setB_srcAddr (s : State) (r : Reg) (v : Big) :
    (s.setB r v).srcAddr = s.srcAddr := rfl
@[simp] theorem setB_srcLen (s : State) (r : Reg) (v : Big) :
    (s.setB r v).srcLen = s.srcLen := rfl
@[simp] theorem setB_dstAddr (s : State) (r : Reg) (v : Big) :
    (s.setB r v).dstAddr = s.dstAddr := rfl
@[simp] theorem setB_dstLen (s : State) (r : Reg) (v : Big) :
    (s.setB r v).dstLen = s.dstLen := rfl
@[simp] theorem setB_lcwSp (s : State) (r : Reg) (v : Big) :
    (s.setB r v).lcwSp = s.lcwSp := rfl
@[simp] theorem setB_kp (s : State) (r : Reg) (v : Big) :
    (s.setB r v).kp = s.kp := rfl
@[simp] theorem setB_ks (s : State) (r : Reg) (v : Big) :
    (s.setB r v).ks = s.ks := rfl
@[simp] theorem setB_lcw (s : State) (r : Reg) (v : Big) :
    (s.setB r v).lcw = s.lcw := rfl
@[simp] theorem setB_mem (s : State) (r : Reg) (v : Big) :
    (s.setB r v).mem = s.mem := rfl
@[simp] theorem setB_platform (s : State) (r : Reg) (v : Big) :
    (s.setB r v).platform = s.platform := rfl
@[simp] theorem setB_inputs (s : State) (r : Reg) (v : Big) :
    (s.setB r v).inputs = s.inputs := rfl
@[simp] theorem setB_hostReads (s : State) (r : Reg) (v : Big) :
    (s.setB r v).hostReads = s.hostReads := rfl
@[simp] theorem setB_draws (s : State) (r : Reg) (v : Big) :
    (s.setB r v).draws = s.draws := rfl

/-! ### `writeByte` -/

@[simp] theorem writeByte_b (s : State) (a : Word) (v : Byte) :
    (s.writeByte a v).b = s.b := rfl
@[simp] theorem writeByte_flags (s : State) (a : Word) (v : Byte) :
    (s.writeByte a v).flags = s.flags := rfl
@[simp] theorem writeByte_result (s : State) (a : Word) (v : Byte) :
    (s.writeByte a v).result = s.result := rfl
@[simp] theorem writeByte_status (s : State) (a : Word) (v : Byte) :
    (s.writeByte a v).status = s.status := rfl
@[simp] theorem writeByte_srcAddr (s : State) (a : Word) (v : Byte) :
    (s.writeByte a v).srcAddr = s.srcAddr := rfl
@[simp] theorem writeByte_srcLen (s : State) (a : Word) (v : Byte) :
    (s.writeByte a v).srcLen = s.srcLen := rfl
@[simp] theorem writeByte_dstAddr (s : State) (a : Word) (v : Byte) :
    (s.writeByte a v).dstAddr = s.dstAddr := rfl
@[simp] theorem writeByte_dstLen (s : State) (a : Word) (v : Byte) :
    (s.writeByte a v).dstLen = s.dstLen := rfl
@[simp] theorem writeByte_lcwSp (s : State) (a : Word) (v : Byte) :
    (s.writeByte a v).lcwSp = s.lcwSp := rfl
@[simp] theorem writeByte_kp (s : State) (a : Word) (v : Byte) :
    (s.writeByte a v).kp = s.kp := rfl
@[simp] theorem writeByte_ks (s : State) (a : Word) (v : Byte) :
    (s.writeByte a v).ks = s.ks := rfl
@[simp] theorem writeByte_lcw (s : State) (a : Word) (v : Byte) :
    (s.writeByte a v).lcw = s.lcw := rfl
@[simp] theorem writeByte_mem (s : State) (a : Word) (v : Byte) :
    (s.writeByte a v).mem = memWrite s.mem a.toNat v := rfl
@[simp] theorem writeByte_platform (s : State) (a : Word) (v : Byte) :
    (s.writeByte a v).platform = s.platform := rfl
@[simp] theorem writeByte_inputs (s : State) (a : Word) (v : Byte) :
    (s.writeByte a v).inputs = s.inputs := rfl
@[simp] theorem writeByte_hostReads (s : State) (a : Word) (v : Byte) :
    (s.writeByte a v).hostReads = s.hostReads := rfl
@[simp] theorem writeByte_draws (s : State) (a : Word) (v : Byte) :
    (s.writeByte a v).draws = s.draws := rfl

/-! ### `raise` -/

@[simp] theorem raise_b (s : State) (e : Err) :
    (s.raise e).b = s.b := rfl
@[simp] theorem raise_flags (s : State) (e : Err) :
    (s.raise e).flags = s.flags := rfl
@[simp] theorem raise_result (s : State) (e : Err) :
    (s.raise e).result = s.result := rfl
@[simp] theorem raise_status (s : State) (e : Err) :
    (s.raise e).status = { s.status with err := e, errs := true } := rfl
@[simp] theorem raise_srcAddr (s : State) (e : Err) :
    (s.raise e).srcAddr = s.srcAddr := rfl
@[simp] theorem raise_srcLen (s : State) (e : Err) :
    (s.raise e).srcLen = s.srcLen := rfl
@[simp] theorem raise_dstAddr (s : State) (e : Err) :
    (s.raise e).dstAddr = s.dstAddr := rfl
@[simp] theorem raise_dstLen (s : State) (e : Err) :
    (s.raise e).dstLen = s.dstLen := rfl
@[simp] theorem raise_lcwSp (s : State) (e : Err) :
    (s.raise e).lcwSp = s.lcwSp := rfl
@[simp] theorem raise_kp (s : State) (e : Err) :
    (s.raise e).kp = s.kp := rfl
@[simp] theorem raise_ks (s : State) (e : Err) :
    (s.raise e).ks = s.ks := rfl
@[simp] theorem raise_lcw (s : State) (e : Err) :
    (s.raise e).lcw = s.lcw := rfl
@[simp] theorem raise_mem (s : State) (e : Err) :
    (s.raise e).mem = s.mem := rfl
@[simp] theorem raise_platform (s : State) (e : Err) :
    (s.raise e).platform = s.platform := rfl
@[simp] theorem raise_inputs (s : State) (e : Err) :
    (s.raise e).inputs = s.inputs := rfl
@[simp] theorem raise_hostReads (s : State) (e : Err) :
    (s.raise e).hostReads = s.hostReads := rfl
@[simp] theorem raise_draws (s : State) (e : Err) :
    (s.raise e).draws = s.draws := rfl

/-! ### `succeed` -/

@[simp] theorem succeed_b (s : State) :
    (s.succeed).b = s.b := rfl
@[simp] theorem succeed_flags (s : State) :
    (s.succeed).flags = s.flags := rfl
@[simp] theorem succeed_result (s : State) :
    (s.succeed).result = s.result := rfl
@[simp] theorem succeed_status (s : State) :
    (s.succeed).status = { s.status with err := .ok } := rfl
@[simp] theorem succeed_srcAddr (s : State) :
    (s.succeed).srcAddr = s.srcAddr := rfl
@[simp] theorem succeed_srcLen (s : State) :
    (s.succeed).srcLen = s.srcLen := rfl
@[simp] theorem succeed_dstAddr (s : State) :
    (s.succeed).dstAddr = s.dstAddr := rfl
@[simp] theorem succeed_dstLen (s : State) :
    (s.succeed).dstLen = s.dstLen := rfl
@[simp] theorem succeed_lcwSp (s : State) :
    (s.succeed).lcwSp = s.lcwSp := rfl
@[simp] theorem succeed_kp (s : State) :
    (s.succeed).kp = s.kp := rfl
@[simp] theorem succeed_ks (s : State) :
    (s.succeed).ks = s.ks := rfl
@[simp] theorem succeed_lcw (s : State) :
    (s.succeed).lcw = s.lcw := rfl
@[simp] theorem succeed_mem (s : State) :
    (s.succeed).mem = s.mem := rfl
@[simp] theorem succeed_platform (s : State) :
    (s.succeed).platform = s.platform := rfl
@[simp] theorem succeed_inputs (s : State) :
    (s.succeed).inputs = s.inputs := rfl
@[simp] theorem succeed_hostReads (s : State) :
    (s.succeed).hostReads = s.hostReads := rfl
@[simp] theorem succeed_draws (s : State) :
    (s.succeed).draws = s.draws := rfl

/-! ### `setCZ` -/

@[simp] theorem setCZ_b (s : State) (c z : Bool) :
    (s.setCZ c z).b = s.b := rfl
@[simp] theorem setCZ_flags (s : State) (c z : Bool) :
    (s.setCZ c z).flags = { s.flags with c := c, z := z } := rfl
@[simp] theorem setCZ_result (s : State) (c z : Bool) :
    (s.setCZ c z).result = s.result := rfl
@[simp] theorem setCZ_status (s : State) (c z : Bool) :
    (s.setCZ c z).status = s.status := rfl
@[simp] theorem setCZ_srcAddr (s : State) (c z : Bool) :
    (s.setCZ c z).srcAddr = s.srcAddr := rfl
@[simp] theorem setCZ_srcLen (s : State) (c z : Bool) :
    (s.setCZ c z).srcLen = s.srcLen := rfl
@[simp] theorem setCZ_dstAddr (s : State) (c z : Bool) :
    (s.setCZ c z).dstAddr = s.dstAddr := rfl
@[simp] theorem setCZ_dstLen (s : State) (c z : Bool) :
    (s.setCZ c z).dstLen = s.dstLen := rfl
@[simp] theorem setCZ_lcwSp (s : State) (c z : Bool) :
    (s.setCZ c z).lcwSp = s.lcwSp := rfl
@[simp] theorem setCZ_kp (s : State) (c z : Bool) :
    (s.setCZ c z).kp = s.kp := rfl
@[simp] theorem setCZ_ks (s : State) (c z : Bool) :
    (s.setCZ c z).ks = s.ks := rfl
@[simp] theorem setCZ_lcw (s : State) (c z : Bool) :
    (s.setCZ c z).lcw = s.lcw := rfl
@[simp] theorem setCZ_mem (s : State) (c z : Bool) :
    (s.setCZ c z).mem = s.mem := rfl
@[simp] theorem setCZ_platform (s : State) (c z : Bool) :
    (s.setCZ c z).platform = s.platform := rfl
@[simp] theorem setCZ_inputs (s : State) (c z : Bool) :
    (s.setCZ c z).inputs = s.inputs := rfl
@[simp] theorem setCZ_hostReads (s : State) (c z : Bool) :
    (s.setCZ c z).hostReads = s.hostReads := rfl
@[simp] theorem setCZ_draws (s : State) (c z : Bool) :
    (s.setCZ c z).draws = s.draws := rfl

/-! ### `setZ` -/

@[simp] theorem setZ_b (s : State) (z : Bool) :
    (s.setZ z).b = s.b := rfl
@[simp] theorem setZ_flags (s : State) (z : Bool) :
    (s.setZ z).flags = { s.flags with z := z } := rfl
@[simp] theorem setZ_result (s : State) (z : Bool) :
    (s.setZ z).result = s.result := rfl
@[simp] theorem setZ_status (s : State) (z : Bool) :
    (s.setZ z).status = s.status := rfl
@[simp] theorem setZ_srcAddr (s : State) (z : Bool) :
    (s.setZ z).srcAddr = s.srcAddr := rfl
@[simp] theorem setZ_srcLen (s : State) (z : Bool) :
    (s.setZ z).srcLen = s.srcLen := rfl
@[simp] theorem setZ_dstAddr (s : State) (z : Bool) :
    (s.setZ z).dstAddr = s.dstAddr := rfl
@[simp] theorem setZ_dstLen (s : State) (z : Bool) :
    (s.setZ z).dstLen = s.dstLen := rfl
@[simp] theorem setZ_lcwSp (s : State) (z : Bool) :
    (s.setZ z).lcwSp = s.lcwSp := rfl
@[simp] theorem setZ_kp (s : State) (z : Bool) :
    (s.setZ z).kp = s.kp := rfl
@[simp] theorem setZ_ks (s : State) (z : Bool) :
    (s.setZ z).ks = s.ks := rfl
@[simp] theorem setZ_lcw (s : State) (z : Bool) :
    (s.setZ z).lcw = s.lcw := rfl
@[simp] theorem setZ_mem (s : State) (z : Bool) :
    (s.setZ z).mem = s.mem := rfl
@[simp] theorem setZ_platform (s : State) (z : Bool) :
    (s.setZ z).platform = s.platform := rfl
@[simp] theorem setZ_inputs (s : State) (z : Bool) :
    (s.setZ z).inputs = s.inputs := rfl
@[simp] theorem setZ_hostReads (s : State) (z : Bool) :
    (s.setZ z).hostReads = s.hostReads := rfl
@[simp] theorem setZ_draws (s : State) (z : Bool) :
    (s.setZ z).draws = s.draws := rfl

/-! ### `setLtEq` -/

@[simp] theorem setLtEq_b (s : State) (l e : Bool) :
    (s.setLtEq l e).b = s.b := rfl
@[simp] theorem setLtEq_flags (s : State) (l e : Bool) :
    (s.setLtEq l e).flags = { s.flags with lt := l, eq := e } := rfl
@[simp] theorem setLtEq_result (s : State) (l e : Bool) :
    (s.setLtEq l e).result = s.result := rfl
@[simp] theorem setLtEq_status (s : State) (l e : Bool) :
    (s.setLtEq l e).status = s.status := rfl
@[simp] theorem setLtEq_srcAddr (s : State) (l e : Bool) :
    (s.setLtEq l e).srcAddr = s.srcAddr := rfl
@[simp] theorem setLtEq_srcLen (s : State) (l e : Bool) :
    (s.setLtEq l e).srcLen = s.srcLen := rfl
@[simp] theorem setLtEq_dstAddr (s : State) (l e : Bool) :
    (s.setLtEq l e).dstAddr = s.dstAddr := rfl
@[simp] theorem setLtEq_dstLen (s : State) (l e : Bool) :
    (s.setLtEq l e).dstLen = s.dstLen := rfl
@[simp] theorem setLtEq_lcwSp (s : State) (l e : Bool) :
    (s.setLtEq l e).lcwSp = s.lcwSp := rfl
@[simp] theorem setLtEq_kp (s : State) (l e : Bool) :
    (s.setLtEq l e).kp = s.kp := rfl
@[simp] theorem setLtEq_ks (s : State) (l e : Bool) :
    (s.setLtEq l e).ks = s.ks := rfl
@[simp] theorem setLtEq_lcw (s : State) (l e : Bool) :
    (s.setLtEq l e).lcw = s.lcw := rfl
@[simp] theorem setLtEq_mem (s : State) (l e : Bool) :
    (s.setLtEq l e).mem = s.mem := rfl
@[simp] theorem setLtEq_platform (s : State) (l e : Bool) :
    (s.setLtEq l e).platform = s.platform := rfl
@[simp] theorem setLtEq_inputs (s : State) (l e : Bool) :
    (s.setLtEq l e).inputs = s.inputs := rfl
@[simp] theorem setLtEq_hostReads (s : State) (l e : Bool) :
    (s.setLtEq l e).hostReads = s.hostReads := rfl
@[simp] theorem setLtEq_draws (s : State) (l e : Bool) :
    (s.setLtEq l e).draws = s.draws := rfl

/-! ### `setResult` -/

@[simp] theorem setResult_b (s : State) (v : Word) :
    (s.setResult v).b = s.b := rfl
@[simp] theorem setResult_flags (s : State) (v : Word) :
    (s.setResult v).flags = s.flags := rfl
@[simp] theorem setResult_result (s : State) (v : Word) :
    (s.setResult v).result = v := rfl
@[simp] theorem setResult_status (s : State) (v : Word) :
    (s.setResult v).status = s.status := rfl
@[simp] theorem setResult_srcAddr (s : State) (v : Word) :
    (s.setResult v).srcAddr = s.srcAddr := rfl
@[simp] theorem setResult_srcLen (s : State) (v : Word) :
    (s.setResult v).srcLen = s.srcLen := rfl
@[simp] theorem setResult_dstAddr (s : State) (v : Word) :
    (s.setResult v).dstAddr = s.dstAddr := rfl
@[simp] theorem setResult_dstLen (s : State) (v : Word) :
    (s.setResult v).dstLen = s.dstLen := rfl
@[simp] theorem setResult_lcwSp (s : State) (v : Word) :
    (s.setResult v).lcwSp = s.lcwSp := rfl
@[simp] theorem setResult_kp (s : State) (v : Word) :
    (s.setResult v).kp = s.kp := rfl
@[simp] theorem setResult_ks (s : State) (v : Word) :
    (s.setResult v).ks = s.ks := rfl
@[simp] theorem setResult_lcw (s : State) (v : Word) :
    (s.setResult v).lcw = s.lcw := rfl
@[simp] theorem setResult_mem (s : State) (v : Word) :
    (s.setResult v).mem = s.mem := rfl
@[simp] theorem setResult_platform (s : State) (v : Word) :
    (s.setResult v).platform = s.platform := rfl
@[simp] theorem setResult_inputs (s : State) (v : Word) :
    (s.setResult v).inputs = s.inputs := rfl
@[simp] theorem setResult_hostReads (s : State) (v : Word) :
    (s.setResult v).hostReads = s.hostReads := rfl
@[simp] theorem setResult_draws (s : State) (v : Word) :
    (s.setResult v).draws = s.draws := rfl

/-! ### `startRun` -/

@[simp] theorem startRun_b (s : State) :
    (startRun s).b = s.b := rfl
@[simp] theorem startRun_flags (s : State) :
    (startRun s).flags = s.flags := rfl
@[simp] theorem startRun_result (s : State) :
    (startRun s).result = s.result := rfl
@[simp] theorem startRun_status (s : State) :
    (startRun s).status = s.status := rfl
@[simp] theorem startRun_srcAddr (s : State) :
    (startRun s).srcAddr = s.srcAddr := rfl
@[simp] theorem startRun_srcLen (s : State) :
    (startRun s).srcLen = s.srcLen := rfl
@[simp] theorem startRun_dstAddr (s : State) :
    (startRun s).dstAddr = s.dstAddr := rfl
@[simp] theorem startRun_dstLen (s : State) :
    (startRun s).dstLen = s.dstLen := rfl
@[simp] theorem startRun_lcwSp (s : State) :
    (startRun s).lcwSp = s.lcwSp := rfl
@[simp] theorem startRun_kp (s : State) :
    (startRun s).kp = s.kp := rfl
@[simp] theorem startRun_ks (s : State) :
    (startRun s).ks = s.ks := rfl
@[simp] theorem startRun_lcw (s : State) :
    (startRun s).lcw = some { sp := 0#32, dp := 0#32 } := rfl
@[simp] theorem startRun_mem (s : State) :
    (startRun s).mem = s.mem := rfl
@[simp] theorem startRun_platform (s : State) :
    (startRun s).platform = s.platform := rfl
@[simp] theorem startRun_inputs (s : State) :
    (startRun s).inputs = s.inputs := rfl
@[simp] theorem startRun_hostReads (s : State) :
    (startRun s).hostReads = s.hostReads := rfl
@[simp] theorem startRun_draws (s : State) :
    (startRun s).draws = s.draws := rfl

/-! ### `stopRun` -/

@[simp] theorem stopRun_b (s : State) (r : LcwRun) (stop : LcwStop) :
    (stopRun s r stop).b = s.b := rfl
@[simp] theorem stopRun_flags (s : State) (r : LcwRun) (stop : LcwStop) :
    (stopRun s r stop).flags = s.flags := rfl
@[simp] theorem stopRun_result (s : State) (r : LcwRun) (stop : LcwStop) :
    (stopRun s r stop).result = r.dp := rfl
@[simp] theorem stopRun_status (s : State) (r : LcwRun) (stop : LcwStop) :
    (stopRun s r stop).status = { s.status with lcwStop := stop, err := .ok } := rfl
@[simp] theorem stopRun_srcAddr (s : State) (r : LcwRun) (stop : LcwStop) :
    (stopRun s r stop).srcAddr = s.srcAddr := rfl
@[simp] theorem stopRun_srcLen (s : State) (r : LcwRun) (stop : LcwStop) :
    (stopRun s r stop).srcLen = s.srcLen := rfl
@[simp] theorem stopRun_dstAddr (s : State) (r : LcwRun) (stop : LcwStop) :
    (stopRun s r stop).dstAddr = s.dstAddr := rfl
@[simp] theorem stopRun_dstLen (s : State) (r : LcwRun) (stop : LcwStop) :
    (stopRun s r stop).dstLen = s.dstLen := rfl
@[simp] theorem stopRun_lcwSp (s : State) (r : LcwRun) (stop : LcwStop) :
    (stopRun s r stop).lcwSp = r.sp := rfl
@[simp] theorem stopRun_kp (s : State) (r : LcwRun) (stop : LcwStop) :
    (stopRun s r stop).kp = s.kp := rfl
@[simp] theorem stopRun_ks (s : State) (r : LcwRun) (stop : LcwStop) :
    (stopRun s r stop).ks = s.ks := rfl
@[simp] theorem stopRun_lcw (s : State) (r : LcwRun) (stop : LcwStop) :
    (stopRun s r stop).lcw = none := rfl
@[simp] theorem stopRun_mem (s : State) (r : LcwRun) (stop : LcwStop) :
    (stopRun s r stop).mem = s.mem := rfl
@[simp] theorem stopRun_platform (s : State) (r : LcwRun) (stop : LcwStop) :
    (stopRun s r stop).platform = s.platform := rfl
@[simp] theorem stopRun_inputs (s : State) (r : LcwRun) (stop : LcwStop) :
    (stopRun s r stop).inputs = s.inputs := rfl
@[simp] theorem stopRun_hostReads (s : State) (r : LcwRun) (stop : LcwStop) :
    (stopRun s r stop).hostReads = s.hostReads := rfl
@[simp] theorem stopRun_draws (s : State) (r : LcwRun) (stop : LcwStop) :
    (stopRun s r stop).draws = s.draws := rfl

/-! ### `advanceRun` -/

@[simp] theorem advanceRun_b (s : State) (r : LcwRun) (m n : Nat) :
    (advanceRun s r m n).b = s.b := rfl
@[simp] theorem advanceRun_flags (s : State) (r : LcwRun) (m n : Nat) :
    (advanceRun s r m n).flags = s.flags := rfl
@[simp] theorem advanceRun_result (s : State) (r : LcwRun) (m n : Nat) :
    (advanceRun s r m n).result = s.result := rfl
@[simp] theorem advanceRun_status (s : State) (r : LcwRun) (m n : Nat) :
    (advanceRun s r m n).status = s.status := rfl
@[simp] theorem advanceRun_srcAddr (s : State) (r : LcwRun) (m n : Nat) :
    (advanceRun s r m n).srcAddr = s.srcAddr := rfl
@[simp] theorem advanceRun_srcLen (s : State) (r : LcwRun) (m n : Nat) :
    (advanceRun s r m n).srcLen = s.srcLen := rfl
@[simp] theorem advanceRun_dstAddr (s : State) (r : LcwRun) (m n : Nat) :
    (advanceRun s r m n).dstAddr = s.dstAddr := rfl
@[simp] theorem advanceRun_dstLen (s : State) (r : LcwRun) (m n : Nat) :
    (advanceRun s r m n).dstLen = s.dstLen := rfl
@[simp] theorem advanceRun_lcwSp (s : State) (r : LcwRun) (m n : Nat) :
    (advanceRun s r m n).lcwSp = s.lcwSp := rfl
@[simp] theorem advanceRun_kp (s : State) (r : LcwRun) (m n : Nat) :
    (advanceRun s r m n).kp = s.kp := rfl
@[simp] theorem advanceRun_ks (s : State) (r : LcwRun) (m n : Nat) :
    (advanceRun s r m n).ks = s.ks := rfl
@[simp] theorem advanceRun_lcw (s : State) (r : LcwRun) (m n : Nat) :
    (advanceRun s r m n).lcw = some { sp := r.sp + BitVec.ofNat 32 m, dp := r.dp + BitVec.ofNat 32 n } := rfl
@[simp] theorem advanceRun_mem (s : State) (r : LcwRun) (m n : Nat) :
    (advanceRun s r m n).mem = s.mem := rfl
@[simp] theorem advanceRun_platform (s : State) (r : LcwRun) (m n : Nat) :
    (advanceRun s r m n).platform = s.platform := rfl
@[simp] theorem advanceRun_inputs (s : State) (r : LcwRun) (m n : Nat) :
    (advanceRun s r m n).inputs = s.inputs := rfl
@[simp] theorem advanceRun_hostReads (s : State) (r : LcwRun) (m n : Nat) :
    (advanceRun s r m n).hostReads = s.hostReads := rfl
@[simp] theorem advanceRun_draws (s : State) (r : LcwRun) (m n : Nat) :
    (advanceRun s r m n).draws = s.draws := rfl

/-! ### `forgetKey` -/

@[simp] theorem forgetKey_b (s : State) :
    (s.forgetKey).b = s.b := rfl
@[simp] theorem forgetKey_flags (s : State) :
    (s.forgetKey).flags = s.flags := rfl
@[simp] theorem forgetKey_result (s : State) :
    (s.forgetKey).result = s.result := rfl
@[simp] theorem forgetKey_status (s : State) :
    (s.forgetKey).status = s.status := rfl
@[simp] theorem forgetKey_srcAddr (s : State) :
    (s.forgetKey).srcAddr = s.srcAddr := rfl
@[simp] theorem forgetKey_srcLen (s : State) :
    (s.forgetKey).srcLen = s.srcLen := rfl
@[simp] theorem forgetKey_dstAddr (s : State) :
    (s.forgetKey).dstAddr = s.dstAddr := rfl
@[simp] theorem forgetKey_dstLen (s : State) :
    (s.forgetKey).dstLen = s.dstLen := rfl
@[simp] theorem forgetKey_lcwSp (s : State) :
    (s.forgetKey).lcwSp = s.lcwSp := rfl
@[simp] theorem forgetKey_kp (s : State) :
    (s.forgetKey).kp = Config.freeP s.draws := rfl
@[simp] theorem forgetKey_ks (s : State) :
    (s.forgetKey).ks = Config.freeS s.draws := rfl
@[simp] theorem forgetKey_lcw (s : State) :
    (s.forgetKey).lcw = s.lcw := rfl
@[simp] theorem forgetKey_mem (s : State) :
    (s.forgetKey).mem = s.mem := rfl
@[simp] theorem forgetKey_platform (s : State) :
    (s.forgetKey).platform = s.platform := rfl
@[simp] theorem forgetKey_inputs (s : State) :
    (s.forgetKey).inputs = s.inputs := rfl
@[simp] theorem forgetKey_hostReads (s : State) :
    (s.forgetKey).hostReads = s.hostReads := rfl
@[simp] theorem forgetKey_draws (s : State) :
    (s.forgetKey).draws = s.draws + 1 := rfl

/-! ### `returned` -/

@[simp] theorem returned_b (s : State) (v : Word) :
    (s.returned v).b = s.b := rfl
@[simp] theorem returned_flags (s : State) (v : Word) :
    (s.returned v).flags = s.flags := rfl
@[simp] theorem returned_result (s : State) (v : Word) :
    (s.returned v).result = s.result := rfl
@[simp] theorem returned_status (s : State) (v : Word) :
    (s.returned v).status = s.status := rfl
@[simp] theorem returned_srcAddr (s : State) (v : Word) :
    (s.returned v).srcAddr = s.srcAddr := rfl
@[simp] theorem returned_srcLen (s : State) (v : Word) :
    (s.returned v).srcLen = s.srcLen := rfl
@[simp] theorem returned_dstAddr (s : State) (v : Word) :
    (s.returned v).dstAddr = s.dstAddr := rfl
@[simp] theorem returned_dstLen (s : State) (v : Word) :
    (s.returned v).dstLen = s.dstLen := rfl
@[simp] theorem returned_lcwSp (s : State) (v : Word) :
    (s.returned v).lcwSp = s.lcwSp := rfl
@[simp] theorem returned_kp (s : State) (v : Word) :
    (s.returned v).kp = s.kp := rfl
@[simp] theorem returned_ks (s : State) (v : Word) :
    (s.returned v).ks = s.ks := rfl
@[simp] theorem returned_lcw (s : State) (v : Word) :
    (s.returned v).lcw = s.lcw := rfl
@[simp] theorem returned_mem (s : State) (v : Word) :
    (s.returned v).mem = s.mem := rfl
@[simp] theorem returned_platform (s : State) (v : Word) :
    (s.returned v).platform = s.platform := rfl
@[simp] theorem returned_inputs (s : State) (v : Word) :
    (s.returned v).inputs = s.inputs := rfl
@[simp] theorem returned_hostReads (s : State) (v : Word) :
    (s.returned v).hostReads = v :: s.hostReads := rfl
@[simp] theorem returned_draws (s : State) (v : Word) :
    (s.returned v).draws = s.draws := rfl

/-! ### Reset -/

@[simp] theorem resetBlock_b (s : State) : s.resetBlock.b = State.reset.b := rfl
@[simp] theorem resetBlock_flags (s : State) : s.resetBlock.flags = State.reset.flags := rfl
@[simp] theorem resetBlock_result (s : State) : s.resetBlock.result = State.reset.result := rfl
@[simp] theorem resetBlock_status (s : State) : s.resetBlock.status = State.reset.status := rfl
@[simp] theorem resetBlock_srcAddr (s : State) : s.resetBlock.srcAddr = State.reset.srcAddr := rfl
@[simp] theorem resetBlock_srcLen (s : State) : s.resetBlock.srcLen = State.reset.srcLen := rfl
@[simp] theorem resetBlock_dstAddr (s : State) : s.resetBlock.dstAddr = State.reset.dstAddr := rfl
@[simp] theorem resetBlock_dstLen (s : State) : s.resetBlock.dstLen = State.reset.dstLen := rfl
@[simp] theorem resetBlock_lcwSp (s : State) : s.resetBlock.lcwSp = State.reset.lcwSp := rfl
@[simp] theorem resetBlock_kp (s : State) : s.resetBlock.kp = Config.freeP s.draws := rfl
@[simp] theorem resetBlock_ks (s : State) : s.resetBlock.ks = Config.freeS s.draws := rfl
@[simp] theorem resetBlock_lcw (s : State) : s.resetBlock.lcw = State.reset.lcw := rfl
@[simp] theorem resetBlock_mem (s : State) : s.resetBlock.mem = s.mem := rfl
@[simp] theorem resetBlock_platform (s : State) : s.resetBlock.platform = s.platform := rfl
@[simp] theorem resetBlock_inputs (s : State) : s.resetBlock.inputs = s.inputs := rfl
@[simp] theorem resetBlock_hostReads (s : State) : s.resetBlock.hostReads = s.hostReads := rfl
@[simp] theorem resetBlock_draws (s : State) : s.resetBlock.draws = s.draws + 1 := rfl

end Sys2Proof.Laws
end

