-- ==== Sys2Proof/Laws/Encoding.lean ====
section
/-! SUPPORT. The fields of a word that a format builds (spec/30_encoding.md rules R91 to R94). -/

namespace Sys2Proof.Laws

theorem lt_eight_cases {i : Nat} (h : i < 8) :
    i = 0 ∨ i = 1 ∨ i = 2 ∨ i = 3 ∨ i = 4 ∨ i = 5 ∨ i = 6 ∨ i = 7 := by omega

theorem lt_four_cases {i : Nat} (h : i < 4) : i = 0 ∨ i = 1 ∨ i = 2 ∨ i = 3 := by omega

@[simp] theorem fieldOp_formatZ (op : Byte) :
    fieldOp (formatZ op) = op := by
  apply BitVec.eq_of_getLsbD_eq
  intro i hi
  rcases lt_eight_cases hi with rfl | rfl | rfl | rfl | rfl | rfl | rfl | rfl <;>
    simp [fieldOp, formatZ]

@[simp] theorem fieldOp_formatR (op : Byte) (rd ra rb rc : Reg) :
    fieldOp (formatR op rd ra rb rc) = op := by
  apply BitVec.eq_of_getLsbD_eq
  intro i hi
  rcases lt_eight_cases hi with rfl | rfl | rfl | rfl | rfl | rfl | rfl | rfl <;>
    simp [fieldOp, formatR]

@[simp] theorem fieldRd_formatR (op : Byte) (rd ra rb rc : Reg) :
    fieldRd (formatR op rd ra rb rc) = rd := by
  apply BitVec.eq_of_getLsbD_eq
  intro i hi
  rcases lt_four_cases hi with rfl | rfl | rfl | rfl <;> simp [fieldRd, formatR]

@[simp] theorem fieldRa_formatR (op : Byte) (rd ra rb rc : Reg) :
    fieldRa (formatR op rd ra rb rc) = ra := by
  apply BitVec.eq_of_getLsbD_eq
  intro i hi
  rcases lt_four_cases hi with rfl | rfl | rfl | rfl <;> simp [fieldRa, formatR]

@[simp] theorem fieldRb_formatR (op : Byte) (rd ra rb rc : Reg) :
    fieldRb (formatR op rd ra rb rc) = rb := by
  apply BitVec.eq_of_getLsbD_eq
  intro i hi
  rcases lt_four_cases hi with rfl | rfl | rfl | rfl <;> simp [fieldRb, formatR]

@[simp] theorem fieldRc_formatR (op : Byte) (rd ra rb rc : Reg) :
    fieldRc (formatR op rd ra rb rc) = rc := by
  apply BitVec.eq_of_getLsbD_eq
  intro i hi
  rcases lt_four_cases hi with rfl | rfl | rfl | rfl <;> simp [fieldRc, formatR]

@[simp] theorem fieldOp_formatI20 (op : Byte) (rd : Reg) (imm : BitVec 20) :
    fieldOp (formatI20 op rd imm) = op := by
  apply BitVec.eq_of_getLsbD_eq
  intro i hi
  rcases lt_eight_cases hi with rfl | rfl | rfl | rfl | rfl | rfl | rfl | rfl <;>
    simp [fieldOp, formatI20]

@[simp] theorem fieldRd_formatI20 (op : Byte) (rd : Reg) (imm : BitVec 20) :
    fieldRd (formatI20 op rd imm) = rd := by
  apply BitVec.eq_of_getLsbD_eq
  intro i hi
  rcases lt_four_cases hi with rfl | rfl | rfl | rfl <;> simp [fieldRd, formatI20]

@[simp] theorem fieldOp_formatI16 (op : Byte) (rd ra : Reg) (imm : BitVec 16) :
    fieldOp (formatI16 op rd ra imm) = op := by
  apply BitVec.eq_of_getLsbD_eq
  intro i hi
  rcases lt_eight_cases hi with rfl | rfl | rfl | rfl | rfl | rfl | rfl | rfl <;>
    simp [fieldOp, formatI16]

@[simp] theorem fieldRd_formatI16 (op : Byte) (rd ra : Reg) (imm : BitVec 16) :
    fieldRd (formatI16 op rd ra imm) = rd := by
  apply BitVec.eq_of_getLsbD_eq
  intro i hi
  rcases lt_four_cases hi with rfl | rfl | rfl | rfl <;> simp [fieldRd, formatI16]

@[simp] theorem fieldRa_formatI16 (op : Byte) (rd ra : Reg) (imm : BitVec 16) :
    fieldRa (formatI16 op rd ra imm) = ra := by
  apply BitVec.eq_of_getLsbD_eq
  intro i hi
  rcases lt_four_cases hi with rfl | rfl | rfl | rfl <;> simp [fieldRa, formatI16]

end Sys2Proof.Laws
end

