-- ==== Sys2Proof/Laws/Memory.lean ====
section
/-! SUPPORT. Memory: a read after a write, and the canonical form kept by every memory operation. -/

namespace Sys2Proof.Laws

open Sys2Proof.Machine

/-! ### One byte -/

theorem memRead_filter_ne (m : List Host.Cell) (a b : Nat) (h : a ≠ b) :
    memRead (m.filter fun c => c.1 != a) b = memRead m b := by
  induction m with
  | nil => rfl
  | cons c rest ih =>
    by_cases hc : c.1 = a
    · have hb : c.1 ≠ b := by omega
      simp [hc, memRead, ih, h]
    · simp [hc, memRead, ih]

theorem memRead_filter_self (m : List Host.Cell) (a : Nat) :
    memRead (m.filter fun c => c.1 != a) a = Config.unlistedByte := by
  induction m with
  | nil => rfl
  | cons c rest ih =>
    by_cases hc : c.1 = a
    · simp [hc, ih]
    · simp [hc, memRead, ih]

theorem memRead_memInsert (m : List Host.Cell) (a b : Nat) (v : Byte)
    (h : ∀ c ∈ m, c.1 ≠ a) :
    memRead (memInsert (a, v) m) b = if a = b then v else memRead m b := by
  induction m with
  | nil => simp [memInsert, memRead]
  | cons c rest ih =>
    have hc := h c (by simp)
    have ih := ih fun d hd => h d (by simp [hd])
    simp only [memInsert]
    split
    · simp [memRead]
    · simp only [memRead, ih]
      by_cases hb : c.1 = b
      · have : a ≠ b := by omega
        simp [hb, this]
      · simp [hb]

/-- A read after a write: the byte written at that address, every other byte as before. -/
theorem memRead_memWrite (m : List Host.Cell) (a b : Nat) (v : Byte) :
    memRead (memWrite m a v) b = if a = b then v else memRead m b := by
  unfold memWrite
  split
  · rename_i hv
    by_cases hb : a = b
    · subst hb; simp [memRead_filter_self, hv]
    · simp [hb, memRead_filter_ne m a b hb]
  · rw [memRead_memInsert _ _ _ _ (by intro c hc; simpa using (List.mem_filter.mp hc).2)]
    by_cases hb : a = b
    · simp [hb]
    · simp [hb, memRead_filter_ne m a b hb]

/-- `readByte` after `writeByte`. -/
theorem readByte_writeByte (s : State) (a b : Word) (v : Byte) :
    (s.writeByte a v).readByte b = if a = b then v else s.readByte b := by
  simp only [State.readByte, writeByte_mem, memRead_memWrite, BitVec.toNat_inj]

/-! ### The canonical form -/

theorem memWfFrom_mono {lo lo' : Nat} {m : List Host.Cell} (h : memWfFrom lo m = true)
    (hl : lo' ≤ lo) : memWfFrom lo' m = true := by
  cases m with
  | nil => rfl
  | cons c rest =>
    simp only [memWfFrom, Bool.and_eq_true, decide_eq_true_eq] at h ⊢
    exact ⟨⟨⟨by omega, h.1.1.2⟩, h.1.2⟩, h.2⟩

theorem memWfFrom_filter (p : Host.Cell → Bool) {lo : Nat} {m : List Host.Cell}
    (h : memWfFrom lo m = true) : memWfFrom lo (m.filter p) = true := by
  induction m generalizing lo with
  | nil => rfl
  | cons c rest ih =>
    simp only [memWfFrom, Bool.and_eq_true, decide_eq_true_eq] at h
    by_cases hp : p c = true
    · simp only [List.filter_cons, hp, if_true, memWfFrom, Bool.and_eq_true, decide_eq_true_eq]
      exact ⟨h.1, ih h.2⟩
    · simp only [List.filter_cons, hp]
      exact memWfFrom_mono (ih h.2) (by omega)

theorem memWfFrom_memInsert {lo a : Nat} {v : Byte} {m : List Host.Cell}
    (h : memWfFrom lo m = true) (hlo : lo ≤ a) (ha : a < Config.addressLimit)
    (hv : v ≠ Config.unlistedByte) (hm : ∀ c ∈ m, c.1 ≠ a) :
    memWfFrom lo (memInsert (a, v) m) = true := by
  induction m generalizing lo with
  | nil => simp [memInsert, memWfFrom, hlo, ha, hv]
  | cons c rest ih =>
    have hc := hm c (by simp)
    simp only [memWfFrom, Bool.and_eq_true, decide_eq_true_eq] at h
    simp only [memInsert]
    split
    · rename_i hlt
      simp only [memWfFrom, Bool.and_eq_true, decide_eq_true_eq, bne_iff_ne, ne_eq]
      refine ⟨⟨⟨hlo, ha⟩, hv⟩, ⟨⟨by omega, h.1.1.2⟩, by simpa using h.1.2⟩, h.2⟩
    · rename_i hlt
      simp only [memWfFrom, Bool.and_eq_true, decide_eq_true_eq]
      exact ⟨h.1, ih h.2 (by omega) fun d hd => hm d (by simp [hd])⟩

/-- A write keeps the canonical form. -/
theorem memWf_memWrite {m : List Host.Cell} {a : Nat} {v : Byte} (h : memWf m = true)
    (ha : a < Config.addressLimit) : memWf (memWrite m a v) = true := by
  unfold memWf memWrite at *
  split
  · exact memWfFrom_filter _ h
  · rename_i hv
    exact memWfFrom_memInsert (memWfFrom_filter _ h) (by omega) ha hv
      fun c hc => by simpa using (List.mem_filter.mp hc).2

theorem toNat_lt_addressLimit (a : Word) : a.toNat < Config.addressLimit := a.isLt

theorem memWf_writeByte {s : State} (a : Word) (v : Byte) (h : memWf s.mem = true) :
    memWf (s.writeByte a v).mem = true :=
  memWf_memWrite h (toNat_lt_addressLimit a)

theorem memWf_writeBytes {bytes : List Byte} {a : Word} {s : State} (h : memWf s.mem = true) :
    memWf (writeBytes a bytes s).mem = true := by
  induction bytes generalizing a s with
  | nil => exact h
  | cons v rest ih => exact ih (memWf_writeByte a v h)

theorem memWf_copyBytes {n : Nat} {src dst : Word} {s : State} (h : memWf s.mem = true) :
    memWf (copyBytes src dst n s).mem = true := by
  induction n generalizing src dst s with
  | zero => exact h
  | succ n ih => exact ih (memWf_writeByte dst _ h)

theorem memWf_fillBytes {n : Nat} {dst : Word} {v : Byte} {s : State} (h : memWf s.mem = true) :
    memWf (fillBytes dst v n s).mem = true := by
  induction n generalizing dst s with
  | zero => exact h
  | succ n ih => exact ih (memWf_writeByte dst v h)

theorem mem_addr_lt {lo : Nat} {m : List Host.Cell} (h : memWfFrom lo m = true) :
    ∀ c ∈ m, c.1 < Config.addressLimit := by
  induction m generalizing lo with
  | nil => simp
  | cons c rest ih =>
    simp only [memWfFrom, Bool.and_eq_true, decide_eq_true_eq] at h
    intro d hd
    rcases List.mem_cons.mp hd with rfl | hd
    · exact h.1.1.2
    · exact ih h.2 d hd

theorem memWf_foldl_memWrite (f : List Host.Cell → Nat → Byte) (keys : List Nat)
    (hk : ∀ a ∈ keys, a < Config.addressLimit) {m : List Host.Cell} (h : memWf m = true) :
    memWf (keys.foldl (fun m a => memWrite m a (f m a)) m) = true := by
  induction keys generalizing m with
  | nil => exact h
  | cons a rest ih =>
    exact ih (fun b hb => hk b (by simp [hb])) (memWf_memWrite h (hk a (by simp)))

/-- A mix of two canonical memories is canonical. -/
theorem memWf_memMix {pick : Nat → Bool} {old new : List Host.Cell} (ho : memWf old = true)
    (hn : memWf new = true) : memWf (memMix pick old new) = true := by
  unfold memMix
  refine memWf_foldl_memWrite (fun _ a => if pick a then memRead new a else memRead old a) _ ?_ ho
  intro a ha
  rcases List.mem_append.mp ha with h | h <;> obtain ⟨c, hc, rfl⟩ := List.mem_map.mp h
  · exact mem_addr_lt ho c hc
  · exact mem_addr_lt hn c hc

/-- The reset state's memory is canonical. -/
theorem memWf_reset : memWf State.reset.mem = true := rfl

/-! ### What the memory operations leave alone -/

/-- `writeBytes` changes memory only. -/
theorem writeBytes_frame (bytes : List Byte) (a : Word) (s : State) :
    writeBytes a bytes s = { s with mem := (writeBytes a bytes s).mem } := by
  induction bytes generalizing a s with
  | nil => rfl
  | cons v rest ih => simp only [writeBytes]; rw [ih]; rfl

/-- `copyBytes` changes memory only. -/
theorem copyBytes_frame (n : Nat) (src dst : Word) (s : State) :
    copyBytes src dst n s = { s with mem := (copyBytes src dst n s).mem } := by
  induction n generalizing src dst s with
  | zero => rfl
  | succ n ih => simp only [copyBytes]; rw [ih]; rfl

/-- `fillBytes` changes memory only. -/
theorem fillBytes_frame (n : Nat) (dst : Word) (v : Byte) (s : State) :
    fillBytes dst v n s = { s with mem := (fillBytes dst v n s).mem } := by
  induction n generalizing dst s with
  | zero => rfl
  | succ n ih => simp only [fillBytes]; rw [ih]; rfl

/-- `cryptBlocks` changes memory only. -/
theorem cryptBlocks_frame (f : State → Word × Word → Word × Word) (n : Nat) (src dst : Word)
    (s : State) :
    cryptBlocks f n src dst s = { s with mem := (cryptBlocks f n src dst s).mem } := by
  induction n generalizing src dst s with
  | zero => rfl
  | succ n ih =>
    simp only [cryptBlocks]
    rw [ih, writeBlock, writeBytes_frame]

theorem memWf_cryptBlocks {f : State → Word × Word → Word × Word} {n : Nat} {src dst : Word}
    {s : State} (h : memWf s.mem = true) : memWf (cryptBlocks f n src dst s).mem = true := by
  induction n generalizing src dst s with
  | zero => exact h
  | succ n ih => exact ih (memWf_writeBytes h)

/-- `readBytes` gives the number of bytes asked for. -/
@[simp] theorem readBytes_length (s : State) (a : Word) (n : Nat) :
    (readBytes s a n).length = n := by
  induction n generalizing a with
  | zero => rfl
  | succ n ih => simp [readBytes, ih]

/-! ### What the memory operations store, byte by byte, where no address wraps -/

theorem toNat_add_one {a : Word} {n : Nat} (h : a.toNat + (n + 1) ≤ Config.addressLimit)
    (hn : n ≠ 0) : (a + 1#32).toNat = a.toNat + 1 := by
  have : Config.addressLimit = 2 ^ 32 := rfl
  rw [BitVec.toNat_add]
  simp only [BitVec.toNat_ofNat]
  omega

/-- `writeBytes` puts the bytes at ascending addresses and leaves every other byte alone. -/
theorem memRead_writeBytes (bytes : List Byte) (a : Word) (s : State) (x : Nat)
    (h : a.toNat + bytes.length ≤ Config.addressLimit) :
    memRead (writeBytes a bytes s).mem x =
      if a.toNat ≤ x ∧ x < a.toNat + bytes.length then bytes.getD (x - a.toNat) 0#8
      else memRead s.mem x := by
  induction bytes generalizing a s with
  | nil => simp [writeBytes]
  | cons v rest ih =>
    simp only [List.length_cons] at h
    by_cases hr : rest = []
    · subst hr
      simp only [writeBytes, writeByte_mem, memRead_memWrite, List.length_singleton]
      by_cases hx : a.toNat = x
      · subst hx; simp
      · rw [if_neg hx, if_neg (by omega)]
    · have hn : rest.length ≠ 0 := by simpa using hr
      have h1 := toNat_add_one h hn
      simp only [writeBytes]
      rw [ih (a + 1#32) _ (by omega), h1, writeByte_mem, memRead_memWrite, List.length_cons]
      by_cases hx : a.toNat = x
      · subst hx
        rw [if_neg (by omega), if_pos rfl, if_pos (by omega)]
        simp
      · rw [if_neg hx]
        by_cases hin : a.toNat + 1 ≤ x ∧ x < a.toNat + 1 + rest.length
        · rw [if_pos hin, if_pos (by omega)]
          obtain ⟨k, rfl⟩ := Nat.exists_eq_add_of_le hin.1
          have e1 : a.toNat + 1 + k - (a.toNat + 1) = k := by omega
          have e2 : a.toNat + 1 + k - a.toNat = k + 1 := by omega
          rw [e1, e2, List.getD_cons_succ]
        · rw [if_neg hin, if_neg (by omega)]

/-- `fillBytes` puts one value at ascending addresses and leaves every other byte alone. -/
theorem memRead_fillBytes (n : Nat) (dst : Word) (v : Byte) (s : State) (x : Nat)
    (h : dst.toNat + n ≤ Config.addressLimit) :
    memRead (fillBytes dst v n s).mem x =
      if dst.toNat ≤ x ∧ x < dst.toNat + n then v else memRead s.mem x := by
  induction n generalizing dst s with
  | zero => simp [fillBytes]
  | succ n ih =>
    by_cases hn : n = 0
    · subst hn
      simp only [fillBytes, writeByte_mem, memRead_memWrite]
      by_cases hx : dst.toNat = x
      · subst hx; simp
      · rw [if_neg hx, if_neg (by omega)]
    · have h1 := toNat_add_one h hn
      simp only [fillBytes]
      rw [ih (dst + 1#32) _ (by omega), h1, writeByte_mem, memRead_memWrite]
      by_cases hx : dst.toNat = x
      · subst hx; rw [if_neg (by omega), if_pos rfl, if_pos (by omega)]
      · rw [if_neg hx]
        by_cases hin : dst.toNat + 1 ≤ x ∧ x < dst.toNat + 1 + n
        · rw [if_pos hin, if_pos (by omega)]
        · rw [if_neg hin, if_neg (by omega)]

/-- `copyBytes` leaves every byte outside its destination alone. -/
theorem memRead_copyBytes_outside (n : Nat) (src dst : Word) (s : State) (x : Nat)
    (h : dst.toNat + n ≤ Config.addressLimit) (hx : x < dst.toNat ∨ dst.toNat + n ≤ x) :
    memRead (copyBytes src dst n s).mem x = memRead s.mem x := by
  induction n generalizing src dst s with
  | zero => rfl
  | succ n ih =>
    have hne : dst.toNat ≠ x := by omega
    by_cases hn : n = 0
    · subst hn
      simp only [copyBytes, writeByte_mem, memRead_memWrite, if_neg hne]
    · have h1 := toNat_add_one h hn
      simp only [copyBytes]
      rw [ih _ _ _ (by omega) (by omega), writeByte_mem, memRead_memWrite, if_neg hne]

/-- A copy that starts below its destination: every byte stored equals, in the memory it leaves, the
byte the same distance before it (spec/44_lcw.md rule R224). -/
theorem memRead_copyBytes_below (n : Nat) (src dst : Word) (s : State) (i : Nat)
    (h : dst.toNat + n ≤ Config.addressLimit) (hlt : src.toNat < dst.toNat) (hi : i < n) :
    memRead (copyBytes src dst n s).mem (dst.toNat + i) =
      memRead (copyBytes src dst n s).mem (src.toNat + i) := by
  induction n generalizing src dst s i with
  | zero => omega
  | succ n ih =>
    by_cases hn : n = 0
    · subst hn
      have : i = 0 := by omega
      subst this
      simp only [copyBytes, writeByte_mem, memRead_memWrite, Nat.add_zero, if_true, State.readByte]
      rw [if_neg (by omega)]
    · have h1 := toNat_add_one h hn
      have h2 : (src + 1#32).toNat = src.toNat + 1 := toNat_add_one (n := n) (by omega) hn
      simp only [copyBytes]
      cases i with
      | zero =>
        rw [memRead_copyBytes_outside _ _ _ _ _ (by omega) (by omega),
          memRead_copyBytes_outside _ _ _ _ _ (by omega) (by omega)]
        simp only [writeByte_mem, memRead_memWrite, Nat.add_zero, if_true, State.readByte]
        rw [if_neg (by omega)]
      | succ i =>
        have := ih (src + 1#32) (dst + 1#32) (s.writeByte dst (s.readByte src)) i (by omega)
          (by omega) (by omega)
        rw [h1, h2] at this
        have e1 : dst.toNat + (i + 1) = dst.toNat + 1 + i := by omega
        have e2 : src.toNat + (i + 1) = src.toNat + 1 + i := by omega
        rw [e1, e2, this]

/-- A copy between disjoint regions stores the source bytes (spec/44_lcw.md rule R232). -/
theorem memRead_copyBytes_disjoint (n : Nat) (src dst : Word) (s : State) (i : Nat)
    (hd : dst.toNat + n ≤ Config.addressLimit) (hs : src.toNat + n ≤ Config.addressLimit)
    (hdis : src.toNat + n ≤ dst.toNat ∨ dst.toNat + n ≤ src.toNat) (hi : i < n) :
    memRead (copyBytes src dst n s).mem (dst.toNat + i) = memRead s.mem (src.toNat + i) := by
  induction n generalizing src dst s i with
  | zero => omega
  | succ n ih =>
    by_cases hn : n = 0
    · subst hn
      have : i = 0 := by omega
      subst this
      simp only [copyBytes, writeByte_mem, memRead_memWrite, Nat.add_zero, if_true, State.readByte]
    · have h1 := toNat_add_one hd hn
      have h2 := toNat_add_one hs hn
      simp only [copyBytes]
      cases i with
      | zero =>
        rw [memRead_copyBytes_outside _ _ _ _ _ (by omega) (by omega)]
        simp only [writeByte_mem, memRead_memWrite, Nat.add_zero, if_true, State.readByte]
      | succ i =>
        have := ih (src + 1#32) (dst + 1#32) (s.writeByte dst (s.readByte src)) i (by omega)
          (by omega) (by omega) (by omega)
        rw [h1, h2, writeByte_mem, memRead_memWrite, if_neg (by omega)] at this
        have e1 : dst.toNat + (i + 1) = dst.toNat + 1 + i := by omega
        have e2 : src.toNat + (i + 1) = src.toNat + 1 + i := by omega
        rw [e1, e2, this]

/-- `readBytes` reads ascending addresses. -/
theorem getD_readBytes (s : State) (a : Word) (n i : Nat)
    (h : a.toNat + n ≤ Config.addressLimit) (hi : i < n) :
    (readBytes s a n).getD i 0#8 = memRead s.mem (a.toNat + i) := by
  induction n generalizing a i with
  | zero => omega
  | succ n ih =>
    cases i with
    | zero => simp [readBytes, State.readByte]
    | succ i =>
      have h1 := toNat_add_one h (by omega)
      rw [readBytes, List.getD_cons_succ, ih _ _ (by omega) (by omega), h1]
      congr 1
      omega

end Sys2Proof.Laws
end

