-- ==== Sys2Proof/Laws/Ops.lean ====
section
/-! SUPPORT. One lemma per shared operation: what each can answer. -/

namespace Sys2Proof.Laws

open Sys2Proof.Machine

/-! ### Regions -/

/-- What one region of the map leaves of a set of pieces: the addresses outside it. -/
theorem mem_cut (g : Config.Region) (pieces : List (Nat × Nat)) (a : Nat) :
    (∃ q ∈ pieces.flatMap (cutPiece g), q.1 ≤ a ∧ a < q.2) ↔
      (∃ q ∈ pieces, q.1 ≤ a ∧ a < q.2) ∧ ¬(g.base ≤ a ∧ a < g.base + g.size) := by
  constructor
  · rintro ⟨q, hq, h1, h2⟩
    obtain ⟨p, hp, hq⟩ := List.mem_flatMap.mp hq
    simp only [cutPiece, List.mem_filter, List.mem_cons, List.not_mem_nil, or_false] at hq
    rcases hq.1 with rfl | rfl <;> exact ⟨⟨p, hp, by omega⟩, by omega⟩
  · rintro ⟨⟨p, hp, h1, h2⟩, hn⟩
    by_cases ha : a < g.base
    · refine ⟨(p.1, min p.2 g.base), List.mem_flatMap.mpr ⟨p, hp, ?_⟩, h1, by omega⟩
      simp only [cutPiece, List.mem_filter, List.mem_cons, true_or, decide_eq_true_eq, true_and]
      omega
    · refine ⟨(max p.1 (g.base + g.size), p.2), List.mem_flatMap.mpr ⟨p, hp, ?_⟩, by omega, h2⟩
      simp only [cutPiece, List.mem_filter, List.mem_cons, List.not_mem_nil, or_false, or_true,
        decide_eq_true_eq, true_and]
      omega

theorem mem_foldl_cut (gs : List Config.Region) (pieces : List (Nat × Nat)) (a : Nat) :
    (∃ q ∈ gs.foldl (fun ps g => ps.flatMap (cutPiece g)) pieces, q.1 ≤ a ∧ a < q.2) ↔
      (∃ q ∈ pieces, q.1 ≤ a ∧ a < q.2) ∧ ∀ g ∈ gs, ¬(g.base ≤ a ∧ a < g.base + g.size) := by
  induction gs generalizing pieces with
  | nil => simp
  | cons g rest ih =>
    rw [List.foldl_cons, ih, mem_cut]
    simp only [List.mem_cons, forall_eq_or_imp, and_assoc]

theorem foldl_cut_nonempty (gs : List Config.Region) (pieces : List (Nat × Nat))
    (h : ∀ q ∈ pieces, q.1 < q.2) :
    ∀ q ∈ gs.foldl (fun ps g => ps.flatMap (cutPiece g)) pieces, q.1 < q.2 := by
  induction gs generalizing pieces with
  | nil => exact h
  | cons g rest ih =>
    refine ih _ fun q hq => ?_
    obtain ⟨p, _, hq⟩ := List.mem_flatMap.mp hq
    simpa using (List.mem_filter.mp hq).2

/-- `spanValid` says that every byte of the region is `MemValid` (spec/20_memory.md rule R64). -/
theorem spanValid_iff (p : Config.Platform) (r : Span) :
    spanValid p r = true ↔ ∀ a, r.base ≤ a → a < r.base + r.len → memValid p a = true := by
  have hv : ∀ a, memValid p a = true ↔ ¬∀ g ∈ p.memMap, ¬(g.base ≤ a ∧ a < g.base + g.size) := by
    intro a
    simp [memValid]
  have hp : ∀ q ∈ [(r.base, r.base + r.len)].filter (fun q => decide (q.1 < q.2)), q.1 < q.2 :=
    fun q hq => by simpa using (List.mem_filter.mp hq).2
  have hin : ∀ a, (∃ q ∈ [(r.base, r.base + r.len)].filter (fun q => decide (q.1 < q.2)),
      q.1 ≤ a ∧ a < q.2) ↔ r.base ≤ a ∧ a < r.base + r.len := by
    intro a
    by_cases h0 : r.len = 0
    · simp [h0]
    · simp; omega
  unfold spanValid
  rw [List.isEmpty_iff]
  constructor
  · intro h a h1 h2
    rw [hv]
    intro hall
    obtain ⟨q, hq, _⟩ := (mem_foldl_cut p.memMap _ a).mpr ⟨(hin a).mpr ⟨h1, h2⟩, hall⟩
    rw [h] at hq
    exact absurd hq (by simp)
  · intro h
    rw [List.eq_nil_iff_forall_not_mem]
    intro q hq
    have hlt := foldl_cut_nonempty p.memMap _ hp q hq
    obtain ⟨hr, hall⟩ := (mem_foldl_cut p.memMap _ q.1).mp ⟨q, hq, by omega, hlt⟩
    obtain ⟨h1, h2⟩ := (hin q.1).mp hr
    exact (hv q.1).mp (h q.1 h1 h2) hall

/-- A region of which every byte is plain memory passes the validity check and touches no
device. -/
theorem plainSpan_passes {p : Config.Platform} {r : Span} (h : PlainSpan p r) :
    spanValid p r = true ∧ spanTouchesDevice p r = false := by
  refine ⟨(spanValid_iff p r).mpr fun a h1 h2 => (h a h1 h2).1, ?_⟩
  rw [← Bool.not_eq_true]
  intro hd
  simp only [spanTouchesDevice, List.any_eq_true, Bool.and_eq_true, spansOverlap, bne_iff_ne, ne_eq,
    decide_eq_true_eq, beq_iff_eq] at hd
  obtain ⟨g, hg, hk, ⟨⟨hr0, hg0⟩, h1⟩, h2⟩ := hd
  have ha := (h (max r.base g.base) (by omega) (by omega)).2
  rw [← Bool.not_eq_true] at ha
  apply ha
  simp only [isDevice, List.any_eq_true, Bool.and_eq_true, decide_eq_true_eq, beq_iff_eq]
  exact ⟨g, hg, ⟨hk, by omega⟩, by omega⟩

/-- On a platform without devices no region touches one. -/
theorem noDevices_spanTouchesDevice {p : Config.Platform} (h : noDevices p = true) (r : Span) :
    spanTouchesDevice p r = false := by
  simp only [noDevices, List.all_eq_true, beq_iff_eq] at h
  simp only [spanTouchesDevice, List.any_eq_false, Bool.and_eq_true, beq_iff_eq, not_and]
  intro g hg hk
  rw [h g hg] at hk
  exact absurd hk (by decide)

/-- The address checks pass exactly when every region is in range, no forbidden overlap exists and
every region is valid. -/
theorem portError_eq_none {p : Config.Platform} {spans : List Span} {clash : Bool} :
    portError p spans clash = none ↔
      spans.all spanInRange = true ∧ clash = false ∧ spans.all (spanValid p) = true := by
  unfold portError
  cases spans.all spanInRange <;> cases clash <;> cases spans.all (spanValid p) <;> simp

/-- The address checks answer with one of three codes. -/
theorem portError_code {p : Config.Platform} {spans : List Span} {clash : Bool} {e : Err}
    (h : portError p spans clash = some e) : e = .range ∨ e = .overlap ∨ e = .bus := by
  unfold portError at h
  split at h
  · simp_all
  · split at h
    · simp_all
    · split at h <;> simp_all

/-! ### Commands -/

/-- A memory command that passes its checks is its body. -/
theorem launch_passes {s : State} {spans : List Span} {clash : Bool} {run : State → Outcome}
    (hp : portError s.platform spans clash = none)
    (hd : spans.any (spanTouchesDevice s.platform) = false) : launch s spans clash run = run s := by
  simp [launch, hp, hd]

/-- A memory command that answers a next state either took an error or ran its body. -/
theorem launch_next {s t : State} {spans : List Span} {clash : Bool} {run : State → Outcome}
    (h : launch s spans clash run = .next t) :
    (∃ e, portError s.platform spans clash = some e ∧ t = s.raise e) ∨
      (portError s.platform spans clash = none ∧
        spans.any (spanTouchesDevice s.platform) = false ∧ run s = .next t) := by
  unfold launch at h
  split at h
  · rename_i e he
    exact .inl ⟨e, he, by injection h with h; exact h.symm⟩
  · rename_i hn
    split at h
    · cases h
    · rename_i hd
      exact .inr ⟨hn, by simpa using hd, h⟩

/-- A stream command that answers a next state ran inside a run. -/
theorem inRun_next {s t : State} {body : LcwRun → Outcome} (h : inRun s body = .next t) :
    ∃ r, s.lcw = some r ∧ body r = .next t := by
  unfold inRun at h
  split at h
  · cases h
  · rename_i r hr
    exact ⟨r, hr, h⟩

theorem inRun_some {s : State} {r : LcwRun} {body : LcwRun → Outcome} (h : s.lcw = some r) :
    inRun s body = body r := by simp [inRun, h]

/-- What a back-reference does: a stop, or the copy and the advance. -/
theorem backReference_next {s t : State} {r : LcwRun} {size offset count : Nat} {valid : Bool}
    (h : backReference s r size valid offset count = .next t) :
    (valid = false ∧ t = stopRun s r .abortRef) ∨
      (valid = true ∧ dstLeft s r < count ∧ t = stopRun s r .abortDst) ∨
      (valid = true ∧ count ≤ dstLeft s r ∧ t = advanceRun
        (copyBytes (s.dstAddr + BitVec.ofNat 32 offset) (s.dstAddr + r.dp) count s)
        r size count) := by
  unfold backReference at h
  split at h
  · rename_i hv
    exact .inl ⟨hv, by injection h with h; exact h.symm⟩
  · rename_i hv
    have hv : valid = true := by simpa using hv
    split at h
    · rename_i hd
      exact .inr (.inl ⟨hv, hd, by injection h with h; exact h.symm⟩)
    · rename_i hd
      exact .inr (.inr ⟨hv, by omega, by injection h with h; exact h.symm⟩)

/-! ### Registers -/

/-- `B[q]` after `B[r] <- v`. -/
theorem getB_setB (s : State) (r q : Reg) (v : Big) :
    (s.setB r v).getB q = if r = q then v else s.getB q := by
  simp only [State.getB, State.setB, Vector.getElem_set, BitVec.toNat_inj]

/-! ### Byte images -/

@[simp] theorem toLE_length (v : Big) (n : Nat) : (toLE v n).length = n := by simp [toLE]

@[simp] theorem toBE_length (v : Big) (n : Nat) : (toBE v n).length = n := by simp [toBE]

@[simp] theorem wordBytes_length (w : Word) : (wordBytes w).length = 4 := rfl

/-- `FromLE` of `n` bytes is below 256^n. -/
theorem fromLE_lt (bytes : List Byte) : fromLE bytes < 256 ^ bytes.length := by
  induction bytes with
  | nil => simp [fromLE]
  | cons v rest ih =>
    have hv := v.isLt
    simp only [fromLE, List.length_cons, Nat.pow_succ]
    omega

/-! ### Decoding -/

/-- A byte of the stream selects a stream command. -/
theorem decodeStreamByte_isStream (c : Byte) : (decodeStreamByte c).isStream = true := by
  unfold decodeStreamByte
  repeat' split
  all_goals rfl

/-- Running a command byte is running the instruction it decodes to. -/
theorem execStreamByte_eq_exec (c : Byte) (s : State) :
    execStreamByte c s = exec (decodeStreamByte c) s := by
  have h := decodeStreamByte_isStream c
  unfold execStreamByte
  cases hd : decodeStreamByte c <;> rw [hd] at h <;> first | rfl | exact absurd h Bool.false_ne_true

end Sys2Proof.Laws
end

