-- ==== Sys2Proof/Laws/PerInstr.lean ====
section
/-! SUPPORT. A statement made of every instruction, one lemma per constructor: the code an
instruction is given is of its own kind and selects its row of the opcode map. -/

namespace Sys2Proof.Laws.Encoding

/-- A CMD32 command is encoded as a word whose opcode byte is that of its row of the opcode map
(spec/30_encoding.md rule R97), a stream command as a first byte (rule R101). -/
def Statement (i : Instr) : Prop :=
  match encode i with
  | .cmd w =>
    i.isStream = false ∧ ∃ row ∈ opcodeMap, row.mnemonic = i.mnemonic ∧ fieldOp row.opmatch = fieldOp w
  | .stream _ => i.isStream = true

theorem sysNop : Statement (.sysNop) :=
  ⟨rfl, ⟨"SYS.NOP", 0x00000000#32, 0xFFFFFFFF#32⟩, by decide, rfl, (fieldOp_formatZ ..).symm⟩

theorem sysClrerr : Statement (.sysClrerr) :=
  ⟨rfl, ⟨"SYS.CLRERR", 0x01000000#32, 0xFFFFFFFF#32⟩, by decide, rfl, (fieldOp_formatZ ..).symm⟩

theorem biLdi (rd : Reg) (imm : BitVec 20) : Statement (.biLdi rd imm) :=
  ⟨rfl, ⟨"BI.LDI", 0x10000000#32, 0xFF000000#32⟩, by decide, rfl, (fieldOp_formatI20 ..).symm⟩

theorem biMov (rd : Reg) (ra : Reg) : Statement (.biMov rd ra) :=
  ⟨rfl, ⟨"BI.MOV", 0x11000000#32, 0xFF00FFFF#32⟩, by decide, rfl, (fieldOp_formatR ..).symm⟩

theorem biLdbe (rd : Reg) (len : BitVec 16) : Statement (.biLdbe rd len) :=
  ⟨rfl, ⟨"BI.LDBE", 0x12000000#32, 0xFF0F0000#32⟩, by decide, rfl, (fieldOp_formatI16 ..).symm⟩

theorem biLdle (rd : Reg) (len : BitVec 16) : Statement (.biLdle rd len) :=
  ⟨rfl, ⟨"BI.LDLE", 0x13000000#32, 0xFF0F0000#32⟩, by decide, rfl, (fieldOp_formatI16 ..).symm⟩

theorem biStbe (ra : Reg) (len : BitVec 16) : Statement (.biStbe ra len) :=
  ⟨rfl, ⟨"BI.STBE", 0x14000000#32, 0xFFF00000#32⟩, by decide, rfl, (fieldOp_formatI16 ..).symm⟩

theorem biStle (ra : Reg) (len : BitVec 16) : Statement (.biStle ra len) :=
  ⟨rfl, ⟨"BI.STLE", 0x15000000#32, 0xFFF00000#32⟩, by decide, rfl, (fieldOp_formatI16 ..).symm⟩

theorem biCmp (ra : Reg) (rb : Reg) : Statement (.biCmp ra rb) :=
  ⟨rfl, ⟨"BI.CMP", 0x18000000#32, 0xFFF00FFF#32⟩, by decide, rfl, (fieldOp_formatR ..).symm⟩

theorem biAdd (rd : Reg) (ra : Reg) (rb : Reg) : Statement (.biAdd rd ra rb) :=
  ⟨rfl, ⟨"BI.ADD", 0x19000000#32, 0xFF000FFF#32⟩, by decide, rfl, (fieldOp_formatR ..).symm⟩

theorem biSub (rd : Reg) (ra : Reg) (rb : Reg) : Statement (.biSub rd ra rb) :=
  ⟨rfl, ⟨"BI.SUB", 0x1A000000#32, 0xFF000FFF#32⟩, by decide, rfl, (fieldOp_formatR ..).symm⟩

theorem biShl1 (rd : Reg) (ra : Reg) : Statement (.biShl1 rd ra) :=
  ⟨rfl, ⟨"BI.SHL1", 0x1B000000#32, 0xFF00FFFF#32⟩, by decide, rfl, (fieldOp_formatR ..).symm⟩

theorem biShr1 (rd : Reg) (ra : Reg) : Statement (.biShr1 rd ra) :=
  ⟨rfl, ⟨"BI.SHR1", 0x1C000000#32, 0xFF00FFFF#32⟩, by decide, rfl, (fieldOp_formatR ..).symm⟩

theorem biBit (ra : Reg) (idx : BitVec 16) : Statement (.biBit ra idx) :=
  ⟨rfl, ⟨"BI.BIT", 0x1D000000#32, 0xFFF00000#32⟩, by decide, rfl, (fieldOp_formatI16 ..).symm⟩

theorem biHsb (ra : Reg) : Statement (.biHsb ra) :=
  ⟨rfl, ⟨"BI.HSB", 0x1E000000#32, 0xFFF0FFFF#32⟩, by decide, rfl, (fieldOp_formatR ..).symm⟩

theorem biTstz (ra : Reg) : Statement (.biTstz ra) :=
  ⟨rfl, ⟨"BI.TSTZ", 0x1F000000#32, 0xFFF0FFFF#32⟩, by decide, rfl, (fieldOp_formatR ..).symm⟩

theorem biMull (rd : Reg) (ra : Reg) (rb : Reg) : Statement (.biMull rd ra rb) :=
  ⟨rfl, ⟨"BI.MULL", 0x20000000#32, 0xFF000FFF#32⟩, by decide, rfl, (fieldOp_formatR ..).symm⟩

theorem biMulh (rd : Reg) (ra : Reg) (rb : Reg) : Statement (.biMulh rd ra rb) :=
  ⟨rfl, ⟨"BI.MULH", 0x21000000#32, 0xFF000FFF#32⟩, by decide, rfl, (fieldOp_formatR ..).symm⟩

theorem modMul (rd : Reg) (ra : Reg) (rb : Reg) (rc : Reg) : Statement (.modMul rd ra rb rc) :=
  ⟨rfl, ⟨"MOD.MUL", 0x28000000#32, 0xFF0000FF#32⟩, by decide, rfl, (fieldOp_formatR ..).symm⟩

theorem modExp (rd : Reg) (ra : Reg) (rb : Reg) (rc : Reg) : Statement (.modExp rd ra rb rc) :=
  ⟨rfl, ⟨"MOD.EXP", 0x29000000#32, 0xFF0000FF#32⟩, by decide, rfl, (fieldOp_formatR ..).symm⟩

theorem bfSetkey : Statement (.bfSetkey) :=
  ⟨rfl, ⟨"BF.SETKEY", 0x30000000#32, 0xFFFFFFFF#32⟩, by decide, rfl, (fieldOp_formatZ ..).symm⟩

theorem bfEncb : Statement (.bfEncb) :=
  ⟨rfl, ⟨"BF.ENCB", 0x31000000#32, 0xFFFFFFFF#32⟩, by decide, rfl, (fieldOp_formatZ ..).symm⟩

theorem bfDecb : Statement (.bfDecb) :=
  ⟨rfl, ⟨"BF.DECB", 0x32000000#32, 0xFFFFFFFF#32⟩, by decide, rfl, (fieldOp_formatZ ..).symm⟩

theorem bfEnc : Statement (.bfEnc) :=
  ⟨rfl, ⟨"BF.ENC", 0x33000000#32, 0xFFFFFFFF#32⟩, by decide, rfl, (fieldOp_formatZ ..).symm⟩

theorem bfDec : Statement (.bfDec) :=
  ⟨rfl, ⟨"BF.DEC", 0x34000000#32, 0xFFFFFFFF#32⟩, by decide, rfl, (fieldOp_formatZ ..).symm⟩

theorem bfClrkey : Statement (.bfClrkey) :=
  ⟨rfl, ⟨"BF.CLRKEY", 0x35000000#32, 0xFFFFFFFF#32⟩, by decide, rfl, (fieldOp_formatZ ..).symm⟩

theorem lcwDec : Statement (.lcwDec) :=
  ⟨rfl, ⟨"LCW.DEC", 0x40000000#32, 0xFFFFFFFF#32⟩, by decide, rfl, (fieldOp_formatZ ..).symm⟩

theorem rel (ccc : BitVec 3) (dddd : BitVec 4) : Statement (.rel ccc dddd) := rfl

theorem endMark : Statement (.endMark) := rfl

theorem lit (n : BitVec 6) : Statement (.lit n) := rfl

theorem abs (n : BitVec 6) : Statement (.abs n) := rfl

theorem fill : Statement (.fill) := rfl

theorem labs : Statement (.labs) := rfl

end Sys2Proof.Laws.Encoding
end

