-- ==== Sys2Proof/Tests/Slice0.lean ====
section
/-! SUPPORT. The model's own tests: ill-formed terms that are refused, words written out from the
encoding tables, one step of each instruction on a vector of spec/95_test_vectors.md, and for every
statement with hypotheses a state that meets them. -/

namespace Sys2Proof.Tests

open Sys2Proof Sys2Proof.Machine

-- One theorem after the other: each kernel evaluation would else wait in a thread of its own.
set_option Elab.async false

/-! ### Ill-formed terms -/

/-- `LIT` with count 0 is the byte of `END` (spec/30_encoding.md R101). -/
theorem test_wf_refuses_lit_zero : (Instr.lit 0#6).wf = false ∧ (Instr.lit 1#6).wf = true := by
  decide

/-- `ABS` with field 62 or 63 is the byte of `FILL` or `LABS` (spec/30_encoding.md R101). -/
theorem test_wf_refuses_abs_62_63 :
    (Instr.abs 62#6).wf = false ∧ (Instr.abs 63#6).wf = false ∧ (Instr.abs 61#6).wf = true := by
  decide

/-- Counts, distances and positions outside their fields (spec/30_encoding.md R102, R107). -/
theorem test_wf_refuses_stream_operands :
    (StreamCommand.rel 2 0).wf = false ∧ (StreamCommand.rel 11 0).wf = false ∧
    (StreamCommand.rel 3 4096).wf = false ∧ (StreamCommand.lit []).wf = false ∧
    (StreamCommand.lit (List.replicate 64 0#8)).wf = false ∧
    (StreamCommand.abs 2 0).wf = false ∧ (StreamCommand.abs 65 0).wf = false ∧
    (StreamCommand.abs 3 65536).wf = false ∧ (StreamCommand.fill 65536 0#8).wf = false ∧
    (StreamCommand.labs 65536 0).wf = false ∧ (StreamCommand.labs 0 65536).wf = false := by
  decide

/-- A region past 2^32, a platform that holds one, and a window base that is not aligned. -/
theorem test_wf_refuses_platform :
    Config.Region.wf ⟨4294967295, 2, .memory⟩ = false ∧
    Config.Platform.wf ⟨[⟨4294967295, 2, .memory⟩], 0⟩ = false ∧
    Config.Platform.wf ⟨[], 2⟩ = false ∧ Config.platformAtReset.wf = true := by
  decide

/-! ### Decoding: the words of V80 of spec/95_test_vectors.md, and stream bytes of R101 -/

theorem test_decode_sysNop : decode (.cmd 0x00000000#32) = .ok .sysNop := by decide
theorem test_decode_sysClrerr : decode (.cmd 0x01000000#32) = .ok .sysClrerr := by decide
theorem test_decode_biLdi : decode (.cmd 0x10110001#32) = .ok (.biLdi 1#4 65537#20) := by decide
theorem test_decode_biMov : decode (.cmd 0x11400000#32) = .ok (.biMov 4#4 0#4) := by decide
theorem test_decode_biLdbe : decode (.cmd 0x12200028#32) = .ok (.biLdbe 2#4 40#16) := by decide
theorem test_decode_biLdle : decode (.cmd 0x13500027#32) = .ok (.biLdle 5#4 39#16) := by decide
theorem test_decode_biStbe : decode (.cmd 0x14070028#32) = .ok (.biStbe 7#4 40#16) := by decide
theorem test_decode_biStle : decode (.cmd 0x15030026#32) = .ok (.biStle 3#4 38#16) := by decide
theorem test_decode_biCmp : decode (.cmd 0x1809A000#32) = .ok (.biCmp 9#4 10#4) := by decide
theorem test_decode_biAdd : decode (.cmd 0x19201000#32) = .ok (.biAdd 2#4 0#4 1#4) := by decide
theorem test_decode_biSub : decode (.cmd 0x1AFED000#32) = .ok (.biSub 15#4 14#4 13#4) := by decide
theorem test_decode_biShl1 : decode (.cmd 0x1B560000#32) = .ok (.biShl1 5#4 6#4) := by decide
theorem test_decode_biShr1 : decode (.cmd 0x1C650000#32) = .ok (.biShr1 6#4 5#4) := by decide
theorem test_decode_biBit : decode (.cmd 0x1D020137#32) = .ok (.biBit 2#4 311#16) := by decide
theorem test_decode_biHsb : decode (.cmd 0x1E020000#32) = .ok (.biHsb 2#4) := by decide
theorem test_decode_biTstz : decode (.cmd 0x1F0B0000#32) = .ok (.biTstz 11#4) := by decide
theorem test_decode_biMull : decode (.cmd 0x20201000#32) = .ok (.biMull 2#4 0#4 1#4) := by decide
theorem test_decode_biMulh : decode (.cmd 0x21301000#32) = .ok (.biMulh 3#4 0#4 1#4) := by decide
theorem test_decode_modMul :
    decode (.cmd 0x28301200#32) = .ok (.modMul 3#4 0#4 1#4 2#4) := by decide
theorem test_decode_modExp :
    decode (.cmd 0x29FEDC00#32) = .ok (.modExp 15#4 14#4 13#4 12#4) := by decide
theorem test_decode_bfSetkey : decode (.cmd 0x30000000#32) = .ok .bfSetkey := by decide
theorem test_decode_bfEncb : decode (.cmd 0x31000000#32) = .ok .bfEncb := by decide
theorem test_decode_bfDecb : decode (.cmd 0x32000000#32) = .ok .bfDecb := by decide
theorem test_decode_bfEnc : decode (.cmd 0x33000000#32) = .ok .bfEnc := by decide
theorem test_decode_bfDec : decode (.cmd 0x34000000#32) = .ok .bfDec := by decide
theorem test_decode_bfClrkey : decode (.cmd 0x35000000#32) = .ok .bfClrkey := by decide
theorem test_decode_lcwDec : decode (.cmd 0x40000000#32) = .ok .lcwDec := by decide
theorem test_decode_rel : decode (.stream 0b01011010#8) = .ok (.rel 5#3 10#4) := by decide
theorem test_decode_endMark : decode (.stream 0b10000000#8) = .ok .endMark := by decide
theorem test_decode_lit : decode (.stream 0b10000011#8) = .ok (.lit 3#6) := by decide
theorem test_decode_abs : decode (.stream 0b11111101#8) = .ok (.abs 61#6) := by decide
theorem test_decode_fill : decode (.stream 0b11111110#8) = .ok .fill := by decide
theorem test_decode_labs : decode (.stream 0b11111111#8) = .ok .labs := by decide

/-- A reserved opcode and a must-be-zero bit (V77). -/
theorem test_decode_illegal :
    decode (.cmd 0x02000000#32) = .error (.reservedOpcode 0x02#8) ∧
    decode (.cmd 0x11401000#32) = .error (.mustBeZero 0x11#8) ∧
    decode (.cmd 0x14100002#32) = .error (.mustBeZero 0x14#8) := by decide

/-- Stream text with its bytes (V82). -/
theorem test_stream_encode :
    (StreamCommand.rel 10 4095).encode = [0x7F#8, 0xFF#8] ∧
    (StreamCommand.abs 64 2).encode = [0xFD#8, 0x02#8, 0x00#8] ∧
    (StreamCommand.labs 258 772).encode = [0xFF#8, 0x02#8, 0x01#8, 0x04#8, 0x03#8] := by decide

/-- Assembler text (V80). -/
theorem test_asm :
    (Instr.modExp 3#4 0#4 1#4 2#4).asm = "MOD.EXP B3, B0, B1, B2" ∧
    (Instr.biBit 2#4 311#16).asm = "BI.BIT B2, 311" ∧
    (StreamCommand.lit [0x41#8, 0xAF#8]).asm = "LIT 41 AF" := by decide

/-! ### One step of each instruction

The test platform of spec/95_test_vectors.md, and what field `f` is after the step that runs word
`w`. -/

def plat : Config.Platform :=
  { memMap := [⟨0x1000, 0xFF000, .memory⟩, ⟨0xFFFFFF00, 0x100, .memory⟩], hostBase := 0 }

def idle : State := { State.reset with platform := plat }

def after {α : Type} (s : State) (w : Word) (f : State → α) : Option α :=
  (nextOf (step (s.withCommand w))).map f

/-- `B0 = x`, `B1 = y`, `B2 = z` on the test platform. -/
def regs (x y z : Big) : State := ((idle.setB 0#4 x).setB 1#4 y).setB 2#4 z

/-- `FLAGS` with these bits. -/
def withFlags (s : State) (c z : Bool) : State := { s with flags := { s.flags with c := c, z := z } }

def big319 : Big := 1#320 <<< 319

/-- V72: `ERRS` is sticky, `SYS.NOP` clears `ERR` alone, `SYS.CLRERR` both. -/
theorem test_sysNop :
    after (idle.raise .range) 0x00000000#32 (fun t => statusWord t.status) = some 0x100#32 := by
  decide +kernel
theorem test_sysClrerr :
    after (idle.raise .range) 0x01000000#32 (fun t => statusWord t.status) = some 0#32 := by
  decide +kernel

/-- V77: an illegal word. -/
theorem test_illegal :
    after idle 0x11400100#32 (fun t => statusWord t.status) = some 0x101#32 := by decide +kernel

theorem test_biLdi :
    after idle 0x10110001#32 (fun t => t.getB 1#4) = some 65537#320 := by decide +kernel
theorem test_biMov :
    after (regs 5 7 0) 0x11400000#32 (fun t => (t.getB 4#4, t.getB 0#4)) = some (5, 5) := by
  decide +kernel

/-- Memory `0x1000..0x1003 = 01 02 03 04` (V21). -/
def fourBytes : State :=
  { writeBytes 0x1000#32 [1#8, 2#8, 3#8, 4#8] idle with srcAddr := 0x1000#32 }

theorem test_biLdbe :
    after fourBytes 0x12200003#32 (fun t => t.getB 2#4) = some 0x10203#320 := by decide +kernel
theorem test_biLdbe_length_41 :
    after fourBytes 0x12200029#32 (fun t => (t.getB 2#4, t.status.err)) = some (0, .operand) := by
  decide +kernel
theorem test_biLdle :
    after fourBytes 0x13300003#32 (fun t => t.getB 3#4) = some 0x30201#320 := by decide +kernel
/-- An empty region is not examined (V21): address 0 is not `MemValid` here. -/
theorem test_biLdle_empty :
    after (regs 9 9 9) 0x13200000#32 (fun t => (t.getB 2#4, t.status.err)) = some (0, .ok) := by
  decide +kernel

/-- `B0 = 0x25262728`, `DST_ADDR = 0x4000` (V21). -/
def storing : State := { regs 0x25262728 0 0 with dstAddr := 0x4000#32 }

theorem test_biStbe :
    after storing 0x14000002#32 (fun t => readBytes t 0x4000#32 3) =
      some [0x27#8, 0x28#8, 0x00#8] := by decide +kernel
theorem test_biStle :
    after storing 0x15000002#32 (fun t => readBytes t 0x4000#32 3) =
      some [0x28#8, 0x27#8, 0x00#8] := by decide +kernel
/-- The last byte of the address space, and one past it. -/
theorem test_biStle_top :
    after { storing with dstAddr := 0xFFFFFFFF#32 } 0x15000001#32 (fun t => t.mem) =
      some [(0xFFFFFFFF, 0x28#8)] ∧
    after { storing with dstAddr := 0xFFFFFFFF#32 } 0x15000002#32
      (fun t => (t.mem, t.status.err)) = some ([], .range) := by decide +kernel

/-- V15: only `LT` and `EQ` are written. -/
theorem test_biCmp :
    after (withFlags (regs 5 7 0) true true) 0x18001000#32 (fun t => flagsWord t.flags) =
      some 7#32 := by decide +kernel
theorem test_biCmp_equal :
    after (withFlags (regs 7 7 0) true true) 0x18001000#32 (fun t => flagsWord t.flags) =
      some 0xB#32 := by decide +kernel
/-- V12: a wrap with carry, and a source that is the destination. -/
theorem test_biAdd :
    after (regs (-1) 1 5) 0x19201000#32 (fun t => (t.getB 2#4, flagsWord t.flags)) =
      some (0, 3#32) := by decide +kernel
theorem test_biAdd_same :
    after (regs (-1) 0 0) 0x19000000#32 (fun t => (t.getB 0#4, flagsWord t.flags)) =
      some (-2, 1#32) := by decide +kernel
/-- V14: a borrow, and zero. -/
theorem test_biSub :
    after (regs 5 7 0) 0x1A201000#32 (fun t => (t.getB 2#4, flagsWord t.flags)) =
      some (-2, 1#32) := by decide +kernel
theorem test_biSub_zero :
    after (regs 0x1234 0 0) 0x1A000000#32 (fun t => (t.getB 0#4, flagsWord t.flags)) =
      some (0, 2#32) := by decide +kernel
/-- V16. -/
theorem test_biShl1 :
    after (regs (big319 + 1) 0 0) 0x1B100000#32 (fun t => (t.getB 1#4, flagsWord t.flags)) =
      some (2, 1#32) := by decide +kernel
theorem test_biShr1 :
    after (regs 1 9 0) 0x1C100000#32 (fun t => (t.getB 1#4, flagsWord t.flags)) =
      some (0, 3#32) := by decide +kernel
/-- V17: the last index, and the first one past it. -/
theorem test_biBit :
    after (regs (big319 + 5) 0 0) 0x1D00013F#32 (fun t => t.result) = some 1#32 := by
  decide +kernel
theorem test_biBit_past :
    after (regs (-1) 0 0) 0x1D000140#32 (fun t => t.result) = some 0#32 := by decide +kernel
/-- V18. -/
theorem test_biHsb :
    after (regs 0x10001 0 0) 0x1E000000#32 (fun t => t.result) = some 16#32 := by decide +kernel
theorem test_biHsb_zero :
    after (regs 0 0 0) 0x1E000000#32 (fun t => t.result) = some 0xFFFFFFFF#32 := by decide +kernel
/-- V19. -/
theorem test_biTstz :
    after (withFlags (regs 0 0 0) true false) 0x1F000000#32
      (fun t => (t.result, flagsWord t.flags)) = some (1#32, 3#32) := by decide +kernel
theorem test_biTstz_nonzero :
    after (withFlags (regs big319 0 0) false true) 0x1F000000#32
      (fun t => (t.result, flagsWord t.flags)) = some (0#32, 0#32) := by decide +kernel
/-- V20. -/
theorem test_biMull :
    after (regs (-1) (-1) 0) 0x20201000#32 (fun t => t.getB 2#4) = some 1 := by decide +kernel
theorem test_biMulh :
    after (regs (-1) (-1) 0) 0x21301000#32 (fun t => t.getB 3#4) = some (-2) := by decide +kernel

/-- V25, and a modulus of 0 (V28). -/
theorem test_modMul :
    after (regs (-1) (-1) ((1 <<< 311) + 0x1D)) 0x28301200#32 (fun t => t.getB 3#4) =
      some 0xD247401 := by decide +kernel
theorem test_modMul_zero :
    after (regs 3 3 0) 0x28301200#32 (fun t => (t.getB 3#4, statusWord t.status)) =
      some (0, 0x103#32) := by decide +kernel
/-- V5, and exponent 0 with modulus 1 (V23). -/
theorem test_modExp :
    after (regs 3 5 13) 0x29301200#32 (fun t => t.getB 3#4) = some 9 := by decide +kernel
theorem test_modExp_exponent_zero :
    after (regs 0 0 1) 0x29301200#32 (fun t => t.getB 3#4) = some 1 := by decide +kernel

/-- V30: the P-array that an all-zero key leaves. -/
theorem test_keySchedule_p :
    (keySchedule [0#8, 0#8, 0#8, 0#8]).p =
      0x706D9FCC1792D23A2DB9D714966E1439AC21A76D8324E988AC0DC9DD2C38F6B370619520FA23ECBE17B2F676EBA13A048B949E617A147CAF56CCC6B64461B24D7361E6A1196A7C43#576 := by
  decide +kernel
/-- V32: the first encryption with the initial tables, and its inverse. -/
theorem test_first_encryption :
    encHalves (tableP ⟨initialP, initialS⟩) (tableS ⟨initialP, initialS⟩) (0#32, 0#32) =
      (0x706D9FCC#32, 0x1792D23A#32) ∧
    decHalves (tableP ⟨initialP, initialS⟩) (tableS ⟨initialP, initialS⟩)
      (0x706D9FCC#32, 0x1792D23A#32) = (0#32, 0#32) := by decide +kernel
/-- The mixed key word where the key wraps round (spec/42_blowfish.md R183). -/
theorem test_keyWord_wraps : keyWord [1#8, 2#8, 3#8] 1 = 0x02030102#32 := by decide

/-- A key of the initial tables themselves, and the two blocks of V32 at `0x1000`: zeros, then what
they encrypt to. -/
def keyed : State :=
  { writeBytes 0x1008#32 [0x70#8, 0x6D#8, 0x9F#8, 0xCC#8, 0x17#8, 0x92#8, 0xD2#8, 0x3A#8] idle with
    srcAddr := 0x1000#32, dstAddr := 0x2000#32, srcLen := 8#32,
    kp := tablesKp ⟨initialP, initialS⟩, ks := tablesKs ⟨initialP, initialS⟩,
    status := { idle.status with keyvalid := true } }

/-- `BF.SETKEY` sets `KEYVALID` (V1), and refuses 57 bytes (V68). -/
theorem test_bfSetkey :
    after { idle with srcAddr := 0x1000#32, srcLen := 4#32 } 0x30000000#32
      (fun t => statusWord t.status) = some 0x200#32 := by decide +kernel
theorem test_bfSetkey_long :
    after { idle with srcAddr := 0x1000#32, srcLen := 57#32 } 0x30000000#32
      (fun t => statusWord t.status) = some 0x105#32 := by decide +kernel
/-- V32 through the commands, out of place and in place. -/
theorem test_bfEncb :
    after keyed 0x31000000#32 (fun t => blockAt t.mem 0x2000) =
      some (0x706D9FCC#32, 0x1792D23A#32) := by decide +kernel
theorem test_bfDecb :
    after { keyed with srcAddr := 0x1008#32, dstAddr := 0x1008#32 } 0x32000000#32
      (fun t => blockAt t.mem 0x1008) = some (0#32, 0#32) := by decide +kernel
theorem test_bfEnc :
    after { keyed with srcLen := 8#32 } 0x33000000#32
      (fun t => (blockAt t.mem 0x2000, blockAt t.mem 0x2008)) =
      some ((0x706D9FCC#32, 0x1792D23A#32), (0#32, 0#32)) := by decide +kernel
theorem test_bfEnc_length :
    after { keyed with srcLen := 9#32 } 0x33000000#32 (fun t => statusWord t.status) =
      some 0x306#32 := by decide +kernel
theorem test_bfDec :
    after { keyed with srcAddr := 0x1008#32 } 0x34000000#32 (fun t => blockAt t.mem 0x2000) =
      some (0#32, 0#32) := by decide +kernel
/-- Partly overlapping regions (V69 and rule R300). -/
theorem test_bfDec_overlap :
    after { keyed with dstAddr := 0x1007#32 } 0x34000000#32 (fun t => t.status.err) =
      some .overlap := by decide +kernel
theorem test_bfClrkey :
    after keyed 0x35000000#32 (fun t => statusWord t.status) = some 0#32 := by decide +kernel

/-- A stream at `0x1000` and `c` bytes of room at `0x2000`. -/
def stream (bytes : List Byte) (c : Word) : State :=
  { writeBytes 0x1000#32 bytes idle with
    srcAddr := 0x1000#32, srcLen := BitVec.ofNat 32 bytes.length, dstAddr := 0x2000#32, dstLen := c }

/-- The output, `RESULT`, `LCW_SP` and `STATUS` that `LCW.DEC` leaves. -/
def decoded (bytes : List Byte) (c : Word) : Option (List Byte × Word × Word × Word) :=
  after (stream bytes c) 0x40000000#32 fun t =>
    (readBytes t 0x2000#32 t.result.toNat, t.result, t.lcwSp, statusWord t.status)

/-- V7. -/
theorem test_lcwDec_lit_end :
    decoded [0x83#8, 0x41#8, 0x42#8, 0x43#8, 0x80#8] 8#32 =
      some ([0x41#8, 0x42#8, 0x43#8], 3#32, 5#32, 0x1000#32) := by decide +kernel
/-- V8, and `FILL` clipped to the room. -/
theorem test_lcwDec_fill :
    decoded [0xFE#8, 0x05#8, 0x00#8, 0x41#8] 8#32 =
      some (List.replicate 5 0x41#8, 5#32, 4#32, 0x2000#32) := by decide +kernel
theorem test_lcwDec_fill_clipped :
    decoded [0xFE#8, 0x05#8, 0x00#8, 0x41#8] 3#32 =
      some (List.replicate 3 0x41#8, 3#32, 4#32, 0x2000#32) := by decide +kernel
/-- `REL` reads bytes it has just written (spec/44_lcw.md R224): distance 1 and 2. -/
theorem test_lcwDec_rel :
    decoded [0x82#8, 0x41#8, 0x42#8, 0x10#8, 0x02#8, 0x80#8] 16#32 =
      some ([0x41#8, 0x42#8, 0x41#8, 0x42#8, 0x41#8, 0x42#8], 6#32, 6#32, 0x1000#32) := by
  decide +kernel
/-- Distance 0 and a distance past the start stop with `ABORT_REF` (spec/44_lcw.md R226, R230). -/
theorem test_lcwDec_rel_abort :
    decoded [0x81#8, 0x41#8, 0x00#8, 0x00#8] 16#32 = some ([0x41#8], 1#32, 2#32, 0x5000#32) ∧
    decoded [0x81#8, 0x41#8, 0x00#8, 0x02#8] 16#32 = some ([0x41#8], 1#32, 2#32, 0x5000#32) := by
  decide +kernel
/-- `ABS` and `LABS` count positions from the start of the output (spec/44_lcw.md R233, R235). -/
theorem test_lcwDec_abs :
    decoded [0x82#8, 0x41#8, 0x42#8, 0xC0#8, 0x01#8, 0x00#8] 16#32 =
      some ([0x41#8, 0x42#8, 0x42#8, 0x42#8, 0x42#8], 5#32, 6#32, 0x2000#32) := by decide +kernel
theorem test_lcwDec_labs :
    decoded [0x82#8, 0x41#8, 0x42#8, 0xFF#8, 0x04#8, 0x00#8, 0x00#8, 0x00#8] 16#32 =
      some ([0x41#8, 0x42#8, 0x41#8, 0x42#8, 0x41#8, 0x42#8], 6#32, 8#32, 0x2000#32) := by
  decide +kernel
/-- Missing bytes and missing room (spec/44_lcw.md R226). -/
theorem test_lcwDec_abort :
    decoded [0x83#8, 0x41#8, 0x42#8] 8#32 = some ([], 0#32, 0#32, 0x3000#32) ∧
    decoded [0x83#8, 0x41#8, 0x42#8, 0x43#8] 2#32 = some ([], 0#32, 0#32, 0x4000#32) := by
  decide +kernel

/-- A stream command as the next step (spec/44_lcw.md R220): `END`, and `LIT` without room. -/
theorem test_step_stream :
    (nextOf (step (idle.withFetchWord 8 0x80))).map (fun t => (t.lcwSp, statusWord t.status)) =
      some (1#32, 0x1000#32) ∧
    (nextOf (step (idle.withFetchWord 8 0x82))).map (fun t => (t.lcwSp, statusWord t.status)) =
      some (0#32, 0x4000#32) := by decide +kernel

/-! ### The host's accesses and reset -/

/-- What the reads of a list of inputs return, in order. -/
def readsOf (s : State) (l : List Input) : Option (List Word) :=
  (nextOf (Host.Core.run Sys2Proof.core l.length { s with inputs := l })).map
    fun t => t.hostReads.reverse

/-- Operand registers hold what is written, `CMD` and the reserved offsets read 0 (spec/10_state.md
R22, R39). -/
theorem test_window :
    readsOf idle [.write 0x1C 4 0xABCD1234#32, .read 0x1C 4, .write 0x0C 4 5#32, .read 0x0C 4,
      .read 0x00 4, .write 0xFC 4 7#32, .read 0xFC 4] =
      some [0xABCD1234#32, 0#32, 0#32, 0#32] := by decide +kernel

/-- Memory written between commands is read back (spec/20_memory.md R73). -/
theorem test_host_memory :
    readsOf idle [.memWrite 0x1000#32 0x5A#8, .memRead 0x1000#32, .memRead 0x1001#32] =
      some [0x5A#32, 0#32] := by decide +kernel

/-- Reset clears a register and keeps memory (spec/70_reset_and_hazards.md R330). -/
theorem test_reset :
    (nextOf (step { fourBytes with inputs := [.reset] })).map
      (fun t => (t.srcAddr, t.readByte 0x1003#32)) = some (0#32, 4#8) := by decide +kernel

/-! ### Witnesses: states and operands that meet the hypotheses of the statements -/

/-- A region below 2^32 is ready on the platform of `State.reset`. -/
theorem ready_at_reset (r : Span) (h : r.base + r.len ≤ 4294967296) :
    SpanReady Config.platformAtReset r := by
  refine ⟨h, fun a _ h2 => ?_⟩
  simp [memValid, isDevice, Config.platformAtReset, Config.addressLimit]
  omega

/-- Regions that lie apart, by evaluation. -/
theorem apart (r q : Span)
    (h : decide (r.len = 0 ∨ q.len = 0 ∨ r.base + r.len ≤ q.base ∨ q.base + q.len ≤ r.base)) :
    SpansApart r q := by
  simp only [decide_eq_true_eq] at h
  exact h

/-- One region of plain memory and one of a device. -/
def deviceAt : Config.Platform :=
  { memMap := [⟨0x1000, 0x1000, .memory⟩, ⟨0x2000, 0x100, .device⟩], hostBase := 0x400 }

theorem witness_DecodeOfEncodeIsTheInstruction :
    (Instr.lit 63#6).wf = true ∧ (Instr.abs 61#6).wf = true ∧
    (Instr.biLdi 15#4 0xFFFFF#20).wf = true := by decide

theorem witness_EncodeOfDecodeIsTheCode :
    decode (.cmd 0x10FFFFFF#32) = .ok (.biLdi 15#4 0xFFFFF#20) ∧
    decode (.stream 0xFD#8) = .ok (.abs 61#6) := by decide

theorem witness_LegalWordsAreTheRowsOfTheOpcodeMap :
    decode (.cmd 0x1AFFF000#32) = .ok (.biSub 15#4 15#4 15#4) ∧
    (∃ row ∈ opcodeMap, 0x1AFFF000#32 &&& row.mask = row.opmatch) := by decide

theorem witness_StreamCommandsParseBack :
    (StreamCommand.rel 10 4095).wf = true ∧ (StreamCommand.rel 3 0).wf = true ∧
    (StreamCommand.lit (List.replicate 63 7#8)).wf = true ∧
    (StreamCommand.abs 64 65535).wf = true ∧ (StreamCommand.fill 65535 9#8).wf = true ∧
    (StreamCommand.labs 65535 65535).wf = true := by decide

theorem witness_FirstByteSelectsTheStreamCommand :
    (0x7F#8).toNat ≤ 0x7F ∧ (0x80#8).toNat = 0x80 ∧
    (0x81 ≤ (0x81#8).toNat ∧ (0xBF#8).toNat ≤ 0xBF) ∧
    (0xC0 ≤ (0xC0#8).toNat ∧ (0xFD#8).toNat ≤ 0xFD) ∧
    (0xFE#8).toNat = 0xFE ∧ (0xFF#8).toNat = 0xFF := by decide

theorem witness_StepRunsTheDecodedCommand :
    let s := idle.withCommand 0x40000000#32
    s.lcw = none ∧ s.platform.hostBase % 4 = 0 ∧
    s.inputs = .write s.platform.hostBase 4 0x40000000#32 :: [] ∧
    decode (.cmd 0x40000000#32) = .ok .lcwDec := by decide

/-- A run at `sp`, `dp` over the stream `bytes` at `0x1000`, with `c` bytes of room. -/
def running (bytes : List Byte) (c sp dp : Word) : State :=
  { stream bytes c with lcw := some ⟨sp, dp⟩ }

theorem witness_StepRunsTheStreamCommandAtSp :
    (let s := running [0x81#8, 0x41#8] 4#32 0#32 0#32
     s.lcw = some ⟨0#32, 0#32⟩ ∧ (0#32).toNat < s.srcLen.toNat ∧
     decode (.stream (s.readByte (s.srcAddr + 0#32))) = .ok (.lit 1#6)) ∧
    (let s := running [0x81#8, 0x41#8] 4#32 2#32 1#32
     s.lcw = some ⟨2#32, 1#32⟩ ∧ (2#32).toNat = s.srcLen.toNat) := by decide +kernel

theorem witness_IllegalWordOnlyRecordsTheError :
    let s := idle.withCommand 0x11401000#32
    s.lcw = none ∧ s.platform.hostBase % 4 = 0 ∧
    s.inputs = .write s.platform.hostBase 4 0x11401000#32 :: [] ∧
    (∀ row ∈ opcodeMap, 0x11401000#32 &&& row.mask ≠ row.opmatch) := by decide

theorem witness_EveryStepKeepsTheInvariant :
    (running [0x81#8, 0x41#8] 4#32 0#32 0#32).good = true ∧
    ∃ t, step (running [0x81#8, 0x41#8] 4#32 0#32 0#32) = .next t :=
  ⟨by decide +kernel, _, rfl⟩

theorem witness_FailedCommandChangesOnlyTheErrorRecord :
    Instr.bfEncb.isStream = false ∧
    ∃ t, exec .bfEncb State.reset = .next t ∧ t.status.err ≠ .ok :=
  ⟨rfl, _, rfl, by decide⟩

theorem witness_SuccessKeepsTheStickyBit :
    (∃ t, exec .sysClrerr (State.reset.raise .bus) = .next t ∧ t.status.err = .ok) ∧
    (∃ t, exec .sysNop (State.reset.raise .bus) = .next t ∧ t.status.err = .ok) :=
  ⟨⟨_, rfl, rfl⟩, _, rfl, rfl⟩

theorem witness_EveryCommandEnds :
    Instr.lcwDec.isStream = false ∧ State.reset.lcw = none ∧
    noDevices State.reset.platform = true := by decide

/-- `SYS.NOP` meets the premise of every clause but none of the excluded names. -/
theorem witness_CommandsKeepToTheirState :
    (∃ t, exec .sysNop State.reset = .next t) ∧ Instr.sysNop.isStream = false ∧
    Instr.sysNop.mnemonic ∉ ["BI.LDI", "BI.MOV", "BI.LDBE", "BI.LDLE", "BI.ADD", "BI.SUB",
      "BI.SHL1", "BI.SHR1", "BI.MULL", "BI.MULH", "MOD.MUL", "MOD.EXP", "BI.TSTZ", "BI.CMP",
      "BI.BIT", "BI.HSB", "LCW.DEC", "BF.SETKEY", "BF.CLRKEY", "BI.STBE", "BI.STLE", "BF.ENCB",
      "BF.DECB", "BF.ENC", "BF.DEC", "REL", "LIT", "ABS", "FILL", "LABS"] :=
  ⟨⟨_, rfl⟩, by decide, by decide⟩

theorem witness_SystemCommandsWriteTheErrorRecord :
    (0x00000001#32 ≠ 0x00000000#32 ∧ fieldOp 0x00000001#32 = 0x00#8) ∧
    (0x01800000#32 ≠ 0x01000000#32 ∧ fieldOp 0x01800000#32 = 0x01#8) := by decide

theorem witness_HsbIsTheLargestSetIndex :
    ((regs 0 0 0).getB 0#4).toNat = 0 ∧
    ((regs 1 0 0).getB 0#4).toNat.testBit 0 = true ∧
    (∀ j, 0 < j → ((regs 1 0 0).getB 0#4).toNat.testBit j = false) ∧
    ((regs big319 0 0).getB 0#4).toNat.testBit 319 = true ∧
    (∀ j, 319 < j → ((regs big319 0 0).getB 0#4).toNat.testBit j = false) := by
  have h1 : ((regs 1 0 0).getB 0#4).toNat = 1 := by decide +kernel
  have h2 : ((regs big319 0 0).getB 0#4).toNat = 1 <<< 319 := by decide +kernel
  refine ⟨by decide +kernel, by rw [h1]; rfl, fun j hj => ?_, ?_, fun j hj => ?_⟩
  · rw [h1]; exact Nat.testBit_two_pow_of_ne (n := 0) (by omega)
  · rw [h2]; decide +kernel
  · rw [h2, Nat.testBit_shiftLeft, Nat.testBit_two_pow_of_ne (n := 0) (by omega), Bool.and_false]

/-- The operand registers at both ends of the address space, lengths 0 and 40. -/
theorem witness_LoadsAssembleTheBytes :
    let s := { State.reset with srcAddr := 0xFFFFFFD8#32 }
    ((40#16).toNat ≤ 40 ∧ SpanReady s.platform (srcSpan s 40)) ∧
    ((0#16).toNat ≤ 40 ∧ SpanReady s.platform (srcSpan s 0)) :=
  ⟨⟨by decide, ready_at_reset _ (by decide)⟩, by decide, ready_at_reset _ (by decide)⟩

theorem witness_StoresWriteTheLowBytes :
    let s := { State.reset with dstAddr := 0xFFFFFFD8#32 }
    ((40#16).toNat ≤ 40 ∧ SpanReady s.platform (dstSpan s 40)) ∧
    ((0#16).toNat ≤ 40 ∧ SpanReady s.platform (dstSpan s 0)) :=
  ⟨⟨by decide, ready_at_reset _ (by decide)⟩, by decide, ready_at_reset _ (by decide)⟩

/-- One state and length for each clause: 41; one past the end; absent memory; a device. -/
theorem witness_BigIntMemoryErrorsInOrder :
    40 < (41#16).toNat ∧
    (0 < (1#16).toNat ∧ (2#16).toNat ≤ 40 ∧ 2 ^ 32 < 4294967295 + (2#16).toNat) ∧
    ((40#16).toNat ≤ 40 ∧ 4294967256 + (40#16).toNat ≤ 2 ^ 32 ∧
      ∃ a, 4294967256 ≤ a ∧ a < 4294967256 + (40#16).toNat ∧ memValid deviceAt a = false) ∧
    ((2#16).toNat ≤ 40 ∧ 0x1FFF + (2#16).toNat ≤ 2 ^ 32 ∧
      (∀ a, 0x1FFF ≤ a → a < 0x1FFF + (2#16).toNat → memValid deviceAt a = true) ∧
      ∃ a, 0x1FFF ≤ a ∧ a < 0x1FFF + (2#16).toNat ∧ isDevice deviceAt a = true) := by
  refine ⟨by decide, by decide, ⟨by decide, by decide, 4294967295, by decide⟩,
    by decide, by decide, fun a h1 h2 => ?_, 0x2000, by decide⟩
  have h3 : a < 0x2001 := h2
  simp [memValid, deviceAt]
  omega

/-- For `ModMulIsTheResidueOfTheProduct` and `ModExpIsTheResidueOfThePower`: modulus 0, then modulus 1
with exponent 0 and with exponent 1. -/
theorem witness_Modular :
    ((regs 3 0 0).getB 2#4).toNat = 0 ∧
    (((regs 3 0 1).getB 2#4).toNat ≠ 0 ∧ ((regs 3 0 1).getB 1#4).toNat = 0) ∧
    (((regs 3 1 1).getB 2#4).toNat ≠ 0 ∧ ((regs 3 1 1).getB 1#4).toNat ≠ 0) := by decide +kernel

/-- V29: 143 mod 7 by the source's algorithm, and the modulus 1. -/
theorem witness_ShiftSubtractAlgorithmComputesTheResidue :
    0 < 7 ∧ modMulReference 13 11 7 = 3 ∧ 0 < 1 ∧ modMulReference 13 11 1 = 0 := by decide

theorem witness_KeyBytesAreMixedCyclically :
    (1 ≤ [0x41#8].length ∧ [0x41#8].length ≤ 56 ∧ 17 < 18) ∧
    (1 ≤ (List.replicate 56 (1#8)).length ∧ (List.replicate 56 (1#8)).length ≤ 56) := by decide

theorem witness_SetkeyInstallsTheScheduleOfTheKey :
    (let s := { State.reset with srcLen := 56#32 }
     1 ≤ s.srcLen.toNat ∧ s.srcLen.toNat ≤ 56 ∧
     SpanReady s.platform (srcSpan s s.srcLen.toNat)) ∧
    (let s := { State.reset with srcLen := 1#32 }
     1 ≤ s.srcLen.toNat ∧ SpanReady s.platform (srcSpan s s.srcLen.toNat) ∧
     [0#8].length = s.srcLen.toNat ∧
     ∀ k, k < [0#8].length → [0#8].getD k 0#8 = memRead s.mem (s.srcAddr.toNat + k)) :=
  ⟨⟨by decide, by decide, ready_at_reset _ (by decide)⟩, by decide, ready_at_reset _ (by decide),
    by decide, by decide⟩

theorem witness_SetkeyRefusesTheKeyLength :
    State.reset.srcLen.toNat = 0 ∧
    56 < { State.reset with srcLen := 57#32 }.srcLen.toNat := by decide

/-- In place, and out of place with the regions touching. -/
def ciphering (src dst len : Word) : State :=
  { State.reset with srcAddr := src, dstAddr := dst, srcLen := len,
                     status := { State.reset.status with keyvalid := true } }

theorem witness_OneBlockCommandsCipherTheBlock :
    (let s := ciphering 0xFFFFFFF8#32 0xFFFFFFF8#32 0#32
     s.status.keyvalid = true ∧ SpanReady s.platform (srcSpan s 8) ∧
     SpanReady s.platform (dstSpan s 8) ∧ s.srcAddr = s.dstAddr) ∧
    (let s := ciphering 0x1000#32 0x1008#32 0#32
     s.status.keyvalid = true ∧ SpanReady s.platform (srcSpan s 8) ∧
     SpanReady s.platform (dstSpan s 8) ∧ SpansApart (srcSpan s 8) (dstSpan s 8)) :=
  ⟨⟨rfl, ready_at_reset _ (by decide), ready_at_reset _ (by decide), rfl⟩,
    rfl, ready_at_reset _ (by decide), ready_at_reset _ (by decide), apart _ _ (by decide)⟩

theorem witness_BulkCommandsCipherBlockByBlock :
    (let s := ciphering 0xFFFFFFF0#32 0xFFFFFFF0#32 16#32
     s.status.keyvalid = true ∧ s.srcLen.toNat % 8 = 0 ∧
     SpanReady s.platform (srcSpan s s.srcLen.toNat) ∧
     SpanReady s.platform (dstSpan s s.srcLen.toNat) ∧ s.srcAddr = s.dstAddr) ∧
    (let s := ciphering 0x1000#32 0x1010#32 16#32
     s.status.keyvalid = true ∧ s.srcLen.toNat % 8 = 0 ∧
     SpanReady s.platform (srcSpan s s.srcLen.toNat) ∧
     SpanReady s.platform (dstSpan s s.srcLen.toNat) ∧
     SpansApart (srcSpan s s.srcLen.toNat) (dstSpan s s.srcLen.toNat)) :=
  ⟨⟨rfl, by decide, ready_at_reset _ (by decide), ready_at_reset _ (by decide), rfl⟩,
    rfl, by decide, ready_at_reset _ (by decide), ready_at_reset _ (by decide), apart _ _ (by decide)⟩

theorem witness_BulkRoundTripRestoresMemory :
    let s := ciphering 0x1000#32 0x1000#32 16#32
    s.status.keyvalid = true ∧ s.srcLen.toNat % 8 = 0 ∧ s.srcAddr = s.dstAddr ∧
    SpanReady s.platform (srcSpan s s.srcLen.toNat) :=
  ⟨rfl, by decide, rfl, ready_at_reset _ (by decide)⟩

theorem witness_CipherCommandsNeedAKey : State.reset.status.keyvalid = false := by decide

theorem witness_BulkLengthMustBeAMultipleOfEight :
    ((ciphering 0#32 0#32 7#32).status.keyvalid = true ∧
      (ciphering 0#32 0#32 7#32).srcLen.toNat % 8 ≠ 0) ∧
    ((ciphering 0#32 0#32 0#32).status.keyvalid = true ∧
      (ciphering 0#32 0#32 0#32).srcLen.toNat = 0) := by decide

/-- `LCW.DEC` with the two lengths, on the platform with a device. -/
def decoding (src n dst c : Word) : State :=
  { State.reset with srcAddr := src, srcLen := n, dstAddr := dst, dstLen := c,
                     platform := deviceAt }

/-- Out of range by one; identical regions, which `LCW.DEC` forbids; an absent byte; a device byte. -/
theorem witness_RegionErrorsInOrder :
    (let s := decoding 0xFFFFFFFF#32 2#32 0x1000#32 1#32
     ¬(s.srcAddr.toNat + s.srcLen.toNat ≤ 2 ^ 32) ∧ s.srcLen.toNat ≠ 0) ∧
    (let s := decoding 0x1000#32 4#32 0x1003#32 1#32
     (s.srcAddr.toNat + s.srcLen.toNat ≤ 2 ^ 32 ∧ s.dstAddr.toNat + s.dstLen.toNat ≤ 2 ^ 32) ∧
     s.srcAddr.toNat < s.dstAddr.toNat + s.dstLen.toNat ∧
     s.dstAddr.toNat < s.srcAddr.toNat + s.srcLen.toNat) ∧
    (let s := decoding 0xFFF#32 1#32 0x1000#32 1#32
     ¬(s.dstAddr.toNat < s.srcAddr.toNat + s.srcLen.toNat) ∧
     memValid s.platform s.srcAddr.toNat = false) ∧
    (let s := decoding 0x1FFF#32 1#32 0x2000#32 1#32
     ¬(s.dstAddr.toNat < s.srcAddr.toNat + s.srcLen.toNat) ∧
     memValid s.platform 0x1FFF = true ∧ memValid s.platform 0x2000 = true ∧
     isDevice s.platform 0x2000 = true) := by decide

/-- The same four clauses of the cipher commands: identical regions are no clash for them. -/
theorem witness_RegionErrorsInOrder_cipher :
    (let s := ciphering 0xFFFFFFF9#32 0x1000#32 8#32
     s.status.keyvalid = true ∧ s.srcLen.toNat % 8 = 0 ∧ ¬(s.srcAddr.toNat + 8 ≤ 2 ^ 32)) ∧
    (let s := ciphering 0x1000#32 0x1007#32 8#32
     s.srcAddr.toNat < s.dstAddr.toNat + 8 ∧ s.dstAddr.toNat < s.srcAddr.toNat + 8 ∧
     s.srcAddr ≠ s.dstAddr) ∧
    memValid deviceAt 0xFFF = false ∧ isDevice deviceAt 0x2000 = true := by decide

/-- A run after `AB` was written out, with `r` at the command that follows. -/
def afterAB (rest : List Byte) (c : Word) : State :=
  { writeBytes 0x2000#32 [0x41#8, 0x42#8]
      (running ([0x82#8, 0x41#8, 0x42#8] ++ rest) c 3#32 2#32) with dstAddr := 0x2000#32 }

/-- Distance 1 and the largest distance, with the room exactly used. -/
theorem witness_RelRepeatsEarlierOutput :
    (let s := afterAB [0x00#8, 0x01#8] 5#32
     s.good = true ∧ s.lcw = some ⟨3#32, 2#32⟩ ∧ (3#32).toNat + 2 ≤ s.srcLen.toNat ∧
     1 ≤ (memRead s.mem (s.srcAddr.toNat + 3 + 1)).toNat ∧ 2 + 3 ≤ s.dstLen.toNat) ∧
    (let s := afterAB [0x00#8, 0x02#8] 5#32
     s.good = true ∧ (memRead s.mem (s.srcAddr.toNat + 3 + 1)).toNat ≤ 2) := by decide +kernel

theorem witness_AbsoluteReferencesRepeatEarlierOutput :
    (let s := afterAB [0xC0#8, 0x01#8, 0x00#8] 5#32
     s.good = true ∧ s.lcw = some ⟨3#32, 2#32⟩ ∧ (3#32).toNat + 3 ≤ s.srcLen.toNat ∧
     (memRead s.mem (s.srcAddr.toNat + 3 + 1)).toNat
       + 256 * (memRead s.mem (s.srcAddr.toNat + 3 + 2)).toNat < 2 ∧ 2 + 3 ≤ s.dstLen.toNat) ∧
    (let s := afterAB [0xFF#8, 0x03#8, 0x00#8, 0x00#8, 0x00#8] 5#32
     s.good = true ∧ s.lcw = some ⟨3#32, 2#32⟩ ∧ (3#32).toNat + 5 ≤ s.srcLen.toNat ∧
     (memRead s.mem (s.srcAddr.toNat + 3 + 1)).toNat = 3 ∧
     (memRead s.mem (s.srcAddr.toNat + 3 + 3)).toNat < 2) := by decide +kernel

theorem witness_LitCopiesTheLiteralBytes :
    let s := afterAB [0x81#8, 0x43#8] 3#32
    s.good = true ∧ s.lcw = some ⟨3#32, 2#32⟩ ∧
    (3#32).toNat + 1 + (1#6).toNat ≤ s.srcLen.toNat ∧ (2#32).toNat + (1#6).toNat ≤ s.dstLen.toNat := by
  decide +kernel

theorem witness_FillIsClippedToTheCapacity :
    let s := afterAB [0xFE#8, 0x05#8, 0x00#8, 0x41#8] 2#32
    s.good = true ∧ s.lcw = some ⟨3#32, 2#32⟩ ∧ (3#32).toNat + 4 ≤ s.srcLen.toNat := by
  decide +kernel

theorem witness_EndStopsTheRun :
    (afterAB [0x80#8] 2#32).lcw = some ⟨3#32, 2#32⟩ := by decide +kernel

/-- Each stop at its boundary: bytes missing by one, a reference at `dp`, room short by one. -/
theorem witness_StreamCommandsStopInOrder :
    let byte (s : State) (k : Nat) : Nat :=
      (s.readByte (s.srcAddr + 3#32 + BitVec.ofNat 32 k)).toNat
    let left (s : State) : Nat := s.srcLen.toNat - 3
    (left (afterAB [0x00#8] 5#32) < 2 ∧ left (afterAB [0x81#8] 5#32) < 1 + 1 ∧
      left (afterAB [0xC0#8, 0#8] 5#32) < 3 ∧ left (afterAB [0xFE#8, 0#8, 0#8] 5#32) < 4 ∧
      left (afterAB [0xFF#8, 0#8, 0#8, 0#8] 5#32) < 5) ∧
    (byte (afterAB [0x00#8, 0x00#8] 5#32) 1 = 0 ∧ 2 < byte (afterAB [0x00#8, 0x03#8] 5#32) 1 ∧
      2 ≤ byte (afterAB [0xC0#8, 0x02#8, 0#8] 5#32) 1 ∧
      2 ≤ byte (afterAB [0xFF#8, 0#8, 0#8, 0x02#8, 0#8] 5#32) 3) ∧
    ((afterAB [0x00#8, 0x01#8] 4#32).dstLen.toNat - 2 < 0 + 3 ∧
      (afterAB [0x81#8, 0x43#8] 2#32).dstLen.toNat - 2 < 1 ∧
      (afterAB [0xC0#8, 0x01#8, 0#8] 4#32).dstLen.toNat - 2 < 0 + 3 ∧
      (afterAB [0xFF#8, 0x03#8, 0#8, 0#8, 0#8] 4#32).dstLen.toNat - 2 <
        byte (afterAB [0xFF#8, 0x03#8, 0#8, 0#8, 0#8] 4#32) 1) := by decide +kernel

/-- For `LcwDecStaysInsideItsRegions` and `LcwDecIsItsStreamCommandsInOrder`: touching regions, and empty ones that coincide. -/
theorem witness_LcwDec :
    (let s := { State.reset with srcAddr := 0x1000#32, srcLen := 16#32, dstAddr := 0x1010#32,
                                 dstLen := 16#32 }
     SpanReady s.platform (srcSpan s s.srcLen.toNat) ∧
     SpanReady s.platform (dstSpan s s.dstLen.toNat) ∧
     SpansApart (srcSpan s s.srcLen.toNat) (dstSpan s s.dstLen.toNat)) ∧
    (let s := State.reset
     SpanReady s.platform (srcSpan s s.srcLen.toNat) ∧
     SpanReady s.platform (dstSpan s s.dstLen.toNat) ∧
     SpansApart (srcSpan s s.srcLen.toNat) (dstSpan s s.dstLen.toNat)) :=
  ⟨⟨ready_at_reset _ (by decide), ready_at_reset _ (by decide), apart _ _ (by decide)⟩,
    ready_at_reset _ (by decide), ready_at_reset _ (by decide), apart _ _ (by decide)⟩

/-- The source bytes of V7 at `a`, the output at `d`, on the platform of `State.reset`. -/
def v7At (a d : Word) : State :=
  { writeBytes a [0x83#8, 0x41#8, 0x42#8, 0x43#8, 0x80#8] State.reset with
    srcAddr := a, srcLen := 5#32, dstAddr := d, dstLen := 8#32 }

/-- An outcome that is a next state. -/
theorem exists_next (o : Outcome) (h : (nextOf o).isSome = true) : ∃ t, o = .next t := by
  cases o with
  | next t => exact ⟨t, rfl⟩
  | fault _ => cases h
  | refused _ => cases h

/-- The same five source bytes at two places, two places for the output, another `LCW_SP`. -/
theorem witness_LcwDecDependsOnSourceAndCapacityOnly :
    let s₁ := v7At 0x1000#32 0x2000#32
    let s₂ := { v7At 0x3000#32 0x1000#32 with lcwSp := 7#32 }
    (∀ s : State, s = s₁ ∨ s = s₂ →
      SpanReady s.platform (srcSpan s s.srcLen.toNat) ∧
      SpanReady s.platform (dstSpan s s.dstLen.toNat) ∧
      SpansApart (srcSpan s s.srcLen.toNat) (dstSpan s s.dstLen.toNat)) ∧
    s₁.srcLen = s₂.srcLen ∧ s₁.dstLen = s₂.dstLen ∧
    (∀ k, k < s₁.srcLen.toNat →
      memRead s₁.mem (s₁.srcAddr.toNat + k) = memRead s₂.mem (s₂.srcAddr.toNat + k)) ∧
    (∃ t₁, exec .lcwDec s₁ = .next t₁) ∧ (∃ t₂, exec .lcwDec s₂ = .next t₂) := by
  refine ⟨?_, rfl, rfl, by decide +kernel, exists_next _ (by decide +kernel),
    exists_next _ (by decide +kernel)⟩
  rintro s (rfl | rfl) <;>
    exact ⟨ready_at_reset _ (by decide), ready_at_reset _ (by decide), apart _ _ (by decide)⟩

theorem witness_WindowReadsReturnTheRegister :
    let s := { idle with inputs := [.read 0xFC 4] }
    s.lcw = none ∧ s.platform.hostBase % 4 = 0 ∧ 0xFC < 256 ∧ 0xFC % 4 = 0 ∧
    s.inputs = .read (s.platform.hostBase + 0xFC) 4 :: [] := by decide

/-- The first and the last offset, and the first and the last operand register. -/
theorem witness_WindowWritesReachOperandRegistersOnly :
    ∀ offset ∈ [0x04, 0x10, 0x1C, 0xFC],
      let s := { idle with inputs := [.write offset 4 9#32] }
      s.lcw = none ∧ s.platform.hostBase % 4 = 0 ∧ 0 < offset ∧ offset < 256 ∧ offset % 4 = 0 ∧
      s.inputs = .write (s.platform.hostBase + offset) 4 9#32 :: [] := by decide

/-- Below the window by one and just past it; its first and last bytes as halfwords; absent memory
and a device. -/
theorem witness_WhatHasNoMeaningStopsByName :
    deviceAt.hostBase = 0x400 ∧ (0x3FF < deviceAt.hostBase ∧ deviceAt.hostBase + 256 ≤ 0x500) ∧
    (deviceAt.hostBase ≤ 0x4FF ∧ 0x4FF < deviceAt.hostBase + 256 ∧ 0x4FF % 4 ≠ 0) ∧
    memValid deviceAt (0xFFF#32).toNat = false ∧
    (memValid deviceAt (0x20FF#32).toNat = true ∧ isDevice deviceAt (0x20FF#32).toNat = true) ∧
    Instr.labs.isStream = true := by decide

theorem witness_HostMemoryWriteIsReadBack :
    let s := { State.reset with inputs := [.memWrite 0xFFFFFFFF#32 3#8, .memRead 0xFFFFFFFF#32] }
    s.lcw = none ∧ memValid s.platform (0xFFFFFFFF#32).toNat = true ∧
    isDevice s.platform (0xFFFFFFFF#32).toNat = false ∧
    s.inputs = .memWrite 0xFFFFFFFF#32 3#8 :: .memRead 0xFFFFFFFF#32 :: [] := by decide

theorem witness_ResetPutsTheBlockAtItsResetState :
    let s := { fourBytes with inputs := [.reset] }
    s.lcw = none ∧ s.inputs = .reset :: [] := by decide +kernel

theorem witness_ResetDuringACommandLeavesOldOrNewBytes :
    let s := { storing with inputs := [.resetDuring 0x15000002#32] }
    s.lcw = none ∧ s.inputs = .resetDuring 0x15000002#32 :: [] ∧
    ∃ u, runCommand 0x15000002#32 { s with inputs := [] } = .next u :=
  ⟨by decide +kernel, by decide +kernel, _, rfl⟩

end Sys2Proof.Tests
end

