-- ==== Sys2Proof/Proofs/Commands.lean ====
section
/-! PROOF. What a command can answer, said once for each family of commands: a next state is the
error record written on the state before, or the state before with the family's own fields
replaced. -/

namespace Sys2Proof.Proofs

open Sys2Proof Sys2Proof.Machine Sys2Proof.Laws

/-! ### The two shapes every checked command is made of -/

/-- An outcome that is a next state is that state. -/
theorem eq_of_next_eq_next {s t : State} (h : (Host.Outcome.next s : Outcome) = .next t) : t = s :=
  (Host.Outcome.next.inj h).symm

/-- A check before a command: the error it takes, or the rest of the command. -/
theorem raise_or_of_check {c : Prop} [Decidable c] {e : Err} {o : Outcome} {s t : State}
    (h : (if c then .next (s.raise e) else o) = .next t) :
    (∃ e, t = s.raise e) ∨ o = .next t := by
  split at h
  · exact .inl ⟨e, eq_of_next_eq_next h⟩
  · exact .inr h

/-- A memory command whose body always answers: an error of the address checks, or the body. -/
theorem raise_or_of_launch {spans : List Span} {clash : Bool} {body : State → State} {s t : State}
    (h : launch s spans clash (fun s => .next (body s)) = .next t) :
    (∃ e, t = s.raise e) ∨ t = body s := by
  obtain ⟨e, -, ht⟩ | ⟨-, -, hrun⟩ := launch_next h
  · exact .inl ⟨e, ht⟩
  · exact .inr (eq_of_next_eq_next hrun)

/-! ### BigInt, modular and Blowfish commands -/

/-- A BigInt load takes an error or writes its register (spec/40_bigint.md rules R122, R123,
R137). -/
theorem loadBig_next {image : List Byte → Nat} {rd : Reg} {len : BitVec 16} {s t : State}
    (h : loadBig image rd len s = .next t) :
    (∃ e, t = s.raise e) ∨ ∃ v, t = (s.setB rd v).succeed := by
  obtain he | h := raise_or_of_check h
  · exact .inl he
  · exact (raise_or_of_launch h).imp_right fun ht => ⟨_, ht⟩

/-- A BigInt store takes an error or writes memory (spec/40_bigint.md rules R124, R125, R137). -/
theorem storeBig_next {image : Big → Nat → List Byte} {ra : Reg} {len : BitVec 16} {s t : State}
    (h : storeBig image ra len s = .next t) :
    (∃ e, t = s.raise e) ∨ ∃ m, t = { s with mem := m }.succeed := by
  obtain he | h := raise_or_of_check h
  · exact .inl he
  · refine (raise_or_of_launch h).imp_right fun ht => ?_
    rw [writeBytes_frame] at ht
    exact ⟨_, ht⟩

/-- `MOD.MUL` takes an error or writes its register (spec/41_modular.md rule R161). -/
theorem execModMul_next {rd ra rb rc : Reg} {s t : State} (h : execModMul rd ra rb rc s = .next t) :
    (∃ e, t = s.raise e) ∨ ∃ v, t = (s.setB rd v).succeed :=
  (raise_or_of_check h).imp_right fun h => ⟨_, eq_of_next_eq_next h⟩

/-- `MOD.EXP` takes an error or writes its register (spec/41_modular.md rule R163). -/
theorem execModExp_next {rd ra rb rc : Reg} {s t : State} (h : execModExp rd ra rb rc s = .next t) :
    (∃ e, t = s.raise e) ∨ ∃ v, t = (s.setB rd v).succeed :=
  (raise_or_of_check h).imp_right fun h => ⟨_, eq_of_next_eq_next h⟩

/-- The body of a cipher command takes an error or writes memory. -/
theorem launch_cryptBlocks_next {f : State → Word × Word → Word × Word} {n : Nat}
    {spans : List Span} {clash : Bool} {s t : State}
    (h : launch s spans clash (fun s => .next (cryptBlocks f n s.srcAddr s.dstAddr s).succeed) =
      .next t) :
    (∃ e, t = s.raise e) ∨ ∃ m, t = { s with mem := m }.succeed := by
  refine (raise_or_of_launch h).imp_right fun ht => ?_
  rw [cryptBlocks_frame] at ht
  exact ⟨_, ht⟩

/-- A cipher command on one block takes an error or writes memory (spec/42_blowfish.md rules R186,
R187). -/
theorem cryptOne_next {f : State → Word × Word → Word × Word} {s t : State}
    (h : cryptOne f s = .next t) :
    (∃ e, t = s.raise e) ∨ ∃ m, t = { s with mem := m }.succeed := by
  obtain he | h := raise_or_of_check h
  · exact .inl he
  · exact launch_cryptBlocks_next h

/-- A bulk cipher command takes an error or writes memory (spec/42_blowfish.md rules R188, R189). -/
theorem cryptBulk_next {f : State → Word × Word → Word × Word} {s t : State}
    (h : cryptBulk f s = .next t) :
    (∃ e, t = s.raise e) ∨ ∃ m, t = { s with mem := m }.succeed := by
  obtain he | h := raise_or_of_check h
  · exact .inl he
  · obtain he | h := raise_or_of_check h
    · exact .inl he
    · exact launch_cryptBlocks_next h

/-- `BF.SETKEY` takes an error or writes the key state (spec/42_blowfish.md rule R184). -/
theorem execBfSetkey_next {s t : State} (h : execBfSetkey s = .next t) :
    (∃ e, t = s.raise e) ∨ ∃ kp ks, t = { s with
      kp := kp, ks := ks, status := { s.status with keyvalid := true, err := .ok } } := by
  obtain he | h := raise_or_of_check h
  · exact .inl he
  · exact (raise_or_of_launch h).imp_right fun ht => ⟨_, _, ht⟩

/-! ### The LCW unit -/

/-- What the LCW unit may write: memory, `RESULT`, `LCW_SP`, its offsets, `STATUS.LCW_STOP` and
`STATUS.ERR`; every other field of `t` is that of `s` (spec/44_lcw.md rules R220, R237). -/
def LcwFrame (s t : State) : Prop :=
  t = { s with mem := t.mem, result := t.result, lcwSp := t.lcwSp, lcw := t.lcw,
               status := { s.status with err := t.status.err, lcwStop := t.status.lcwStop } }

theorem lcwFrame_refl (s : State) : LcwFrame s s := rfl

theorem lcwFrame_trans {s t u : State} (hst : LcwFrame s t) (htu : LcwFrame t u) :
    LcwFrame s u := by
  unfold LcwFrame at *
  rw [htu, hst]

theorem lcwFrame_startRun (s : State) : LcwFrame s (startRun s) := rfl

theorem lcwFrame_stopRun (s : State) (r : LcwRun) (stop : LcwStop) :
    LcwFrame s (stopRun s r stop) := rfl

/-- An advance after a change of memory alone. -/
theorem lcwFrame_advanceRun {s t : State} (h : t = { s with mem := t.mem }) (r : LcwRun)
    (stream output : Nat) : LcwFrame s (advanceRun t r stream output) := by
  rw [h]
  rfl

/-- A check of a stream command: the stop it takes, or the rest of the command. -/
theorem lcwFrame_of_check {c : Prop} [Decidable c] {r : LcwRun} {stop : LcwStop} {o : Outcome}
    {s t : State} (h : (if c then .next (stopRun s r stop) else o) = .next t)
    (ho : o = .next t → LcwFrame s t) : LcwFrame s t := by
  split at h
  · exact eq_of_next_eq_next h ▸ lcwFrame_stopRun ..
  · exact ho h

theorem lcwFrame_backReference {s t : State} {r : LcwRun} {size offset count : Nat} {valid : Bool}
    (h : backReference s r size valid offset count = .next t) : LcwFrame s t := by
  obtain ⟨-, rfl⟩ | ⟨-, -, rfl⟩ | ⟨-, -, rfl⟩ := backReference_next h
  · exact lcwFrame_stopRun ..
  · exact lcwFrame_stopRun ..
  · exact lcwFrame_advanceRun (copyBytes_frame ..) ..

/-- `END` stops the run just past its byte (spec/44_lcw.md rule R231). -/
theorem execEndMark_next {s t : State} (h : execEndMark s = .next t) :
    ∃ r, s.lcw = some r ∧ t = stopRun s { r with sp := r.sp + 1#32 } .endMark := by
  obtain ⟨r, hr, h⟩ := inRun_next h
  exact ⟨r, hr, eq_of_next_eq_next h⟩

/-- Every stream command keeps to the fields of the LCW unit. -/
theorem lcwFrame_exec {i : Instr} {s t : State} (hi : i.isStream = true)
    (h : exec i s = .next t) : LcwFrame s t := by
  cases i
  case rel | abs | labs =>
    obtain ⟨r, -, h⟩ := inRun_next h
    exact lcwFrame_of_check h lcwFrame_backReference
  case endMark =>
    obtain ⟨r, -, rfl⟩ := execEndMark_next h
    exact lcwFrame_stopRun ..
  case lit =>
    obtain ⟨r, -, h⟩ := inRun_next h
    refine lcwFrame_of_check h fun h => lcwFrame_of_check h fun h => ?_
    exact eq_of_next_eq_next h ▸ lcwFrame_advanceRun (copyBytes_frame ..) ..
  case fill =>
    obtain ⟨r, -, h⟩ := inRun_next h
    refine lcwFrame_of_check h fun h => ?_
    exact eq_of_next_eq_next h ▸ lcwFrame_advanceRun (fillBytes_frame ..) ..
  all_goals exact absurd hi Bool.false_ne_true

/-! ### The loop of `LCW.DEC` -/

/-- The next state of an outcome given on; a fault or a refusal stays what it is. -/
def andThen (o : Outcome) (rest : State → Outcome) : Outcome :=
  match o with
  | .next t => rest t
  | .fault f => .fault f
  | .refused f => .refused f

@[simp] theorem andThen_next (t : State) (g : State → Outcome) : andThen (.next t) g = g t := rfl
@[simp] theorem andThen_fault (f : Fault) (g : State → Outcome) :
    andThen (.fault f) g = .fault f := rfl
@[simp] theorem andThen_refused (f : Refusal) (g : State → Outcome) :
    andThen (.refused f) g = .refused f := rfl

theorem andThen_eq_next {o : Outcome} {g : State → Outcome} {u : State}
    (h : andThen o g = .next u) : ∃ t, o = .next t ∧ g t = .next u := by
  cases o with
  | next t => exact ⟨t, rfl, h⟩
  | fault f => cases h
  | refused f => cases h

theorem runLoop_of_idle {s : State} (passes : Nat) (h : s.lcw = none) :
    runLoop passes s = .next s := by
  cases passes with
  | zero => rfl
  | succ passes => simp [runLoop, h]

/-- A pass of the loop is a step of the machine, and the passes after it follow (spec/44_lcw.md rule
R220). -/
theorem runLoop_succ_of_run {s : State} {r : LcwRun} (passes : Nat) (h : s.lcw = some r) :
    runLoop (passes + 1) s = andThen (step s) (runLoop passes) := by
  by_cases hend : s.srcLen.toNat ≤ r.sp.toNat
  · simp only [runLoop, step, streamStep, h, if_pos hend, andThen_next]
    exact (runLoop_of_idle passes (stopRun_lcw ..)).symm
  · simp only [runLoop, step, streamStep, h, if_neg hend, decode, execStreamByte_eq_exec]
    rfl

/-- A step from a state that holds a run keeps to the fields of the LCW unit. -/
theorem lcwFrame_step {s t : State} {r : LcwRun} (hr : s.lcw = some r) (h : step s = .next t) :
    LcwFrame s t := by
  simp only [step, hr] at h
  exact lcwFrame_of_check h (lcwFrame_exec (decodeStreamByte_isStream _))

/-- Any number of passes of the loop of `LCW.DEC` keeps to the fields of the LCW unit. -/
theorem lcwFrame_runLoop {passes : Nat} {s t : State} (h : runLoop passes s = .next t) :
    LcwFrame s t := by
  induction passes generalizing s with
  | zero => exact eq_of_next_eq_next h ▸ lcwFrame_refl t
  | succ passes ih =>
    cases hr : s.lcw with
    | none =>
      rw [runLoop_of_idle _ hr] at h
      exact eq_of_next_eq_next h ▸ lcwFrame_refl t
    | some r =>
      rw [runLoop_succ_of_run _ hr] at h
      obtain ⟨u, hs, hrest⟩ := andThen_eq_next h
      exact lcwFrame_trans (lcwFrame_step hr hs) (ih hrest)

/-- `LCW.DEC` takes an error or keeps to the fields of the LCW unit (spec/44_lcw.md rule R220). -/
theorem execLcwDec_next {s t : State} (h : execLcwDec s = .next t) :
    (∃ e, t = s.raise e) ∨ LcwFrame s t := by
  unfold execLcwDec at h
  obtain ⟨e, -, ht⟩ | ⟨-, -, hrun⟩ := launch_next h
  · exact .inl ⟨e, ht⟩
  · exact .inr (lcwFrame_trans (lcwFrame_startRun s) (lcwFrame_runLoop hrun))

/-! ### Regions a memory command may use -/

/-- A ready region passes its own checks and touches no device. -/
theorem spanReady_passes {p : Config.Platform} {r : Span} (h : SpanReady p r) :
    spanInRange r = true ∧ spanValid p r = true ∧ spanTouchesDevice p r = false := by
  obtain ⟨hrange, hplain⟩ := h
  exact ⟨by simp [spanInRange, hrange], plainSpan_passes hplain⟩

/-- Regions that share no byte do not overlap. -/
theorem spansOverlap_of_spansApart {r q : Span} (h : SpansApart r q) :
    spansOverlap r q = false := by
  rw [← Bool.not_eq_true]
  simp only [spansOverlap, Bool.and_eq_true, bne_iff_ne, decide_eq_true_eq]
  unfold SpansApart at h
  omega

/-- A command on two ready regions without a forbidden overlap is its body (spec/20_memory.md rules
R64, R68; spec/60_exceptions.md rules R299 to R301). -/
theorem launch_pair_of_ready {s : State} {r q : Span} {clash : Bool} {body : State → Outcome}
    (hr : SpanReady s.platform r) (hq : SpanReady s.platform q) (hclash : clash = false) :
    launch s [r, q] clash body = body s := by
  obtain ⟨hrRange, hrValid, hrDevice⟩ := spanReady_passes hr
  obtain ⟨hqRange, hqValid, hqDevice⟩ := spanReady_passes hq
  exact launch_passes (portError_eq_none.mpr ⟨by simp [hrRange, hqRange], hclash,
    by simp [hrValid, hqValid]⟩) (by simp [hrDevice, hqDevice])

end Sys2Proof.Proofs
end

