-- ==== Sys2Proof/Proofs/Scope.lean ====
section
/-! PROOF. The statements that rest on spec/00_scope.md: what a command leaves alone (rule R11), and
`LCW.DEC` as one command against its stream commands one by one (rule R10). -/

namespace Sys2Proof.Proofs

open Sys2Proof Sys2Proof.Machine Sys2Proof.Laws

/-! ### What a command leaves alone -/

/-- Settles O16, by cases on the command: what each can answer names the fields it replaces. -/
theorem commandsKeepToTheirState : Obligations.CommandsKeepToTheirState := by
  unfold Obligations.CommandsKeepToTheirState
  intro i s t h
  cases i
  case sysNop | sysClrerr | biLdi | biMov | biCmp | biAdd | biSub | biShl1 | biShr1 | biBit | biHsb
      | biTstz | biMull | biMulh | bfClrkey =>
    obtain rfl := eq_of_next_eq_next h
    simp [Instr.mnemonic]
  case biLdbe | biLdle =>
    obtain ⟨e, rfl⟩ | ⟨v, rfl⟩ := loadBig_next h <;> simp [Instr.mnemonic]
  case biStbe | biStle =>
    obtain ⟨e, rfl⟩ | ⟨m, rfl⟩ := storeBig_next h <;> simp [Instr.mnemonic]
  case modMul =>
    obtain ⟨e, rfl⟩ | ⟨v, rfl⟩ := execModMul_next h <;> simp [Instr.mnemonic]
  case modExp =>
    obtain ⟨e, rfl⟩ | ⟨v, rfl⟩ := execModExp_next h <;> simp [Instr.mnemonic]
  case bfSetkey =>
    obtain ⟨e, rfl⟩ | ⟨kp, ks, rfl⟩ := execBfSetkey_next h <;> simp [Instr.mnemonic]
  case bfEncb | bfDecb =>
    obtain ⟨e, rfl⟩ | ⟨m, rfl⟩ := cryptOne_next h <;> simp [Instr.mnemonic]
  case bfEnc | bfDec =>
    obtain ⟨e, rfl⟩ | ⟨m, rfl⟩ := cryptBulk_next h <;> simp [Instr.mnemonic]
  case lcwDec =>
    obtain ⟨e, rfl⟩ | hframe := execLcwDec_next h
    · simp [Instr.mnemonic]
    · rw [hframe]
      simp [Instr.mnemonic]
  case endMark =>
    obtain ⟨r, -, rfl⟩ := execEndMark_next h
    simp [Instr.mnemonic, Instr.isStream]
  case rel | lit | abs | fill | labs =>
    rw [lcwFrame_exec rfl h]
    simp [Instr.mnemonic, Instr.isStream]

/-! ### `LCW.DEC` and its stream commands -/

/-- One step of the machine, then the steps after it. -/
theorem core_run_succ (k : Nat) (s : State) :
    Host.Core.run core (k + 1) s = andThen (step s) (Host.Core.run core k) := by
  change _ = andThen (core.step s) _
  cases h : core.step s <;> simp only [Host.Core.run, h] <;> rfl

/-- The loop of `LCW.DEC` is a run of the machine of at most as many steps as it has passes; fewer
where the run ends before its passes are used up. -/
theorem exists_core_run_eq_runLoop (passes : Nat) (s : State) :
    ∃ k, k ≤ passes ∧ Host.Core.run core k s = runLoop passes s := by
  induction passes generalizing s with
  | zero => exact ⟨0, le_rfl, rfl⟩
  | succ passes ih =>
    cases hr : s.lcw with
    | none => exact ⟨0, by omega, (runLoop_of_idle _ hr).symm⟩
    | some r =>
      rw [runLoop_succ_of_run _ hr]
      cases hs : step s with
      | next t =>
        obtain ⟨k, hk, hrun⟩ := ih t
        exact ⟨k + 1, by omega, by rw [core_run_succ, hs]; exact hrun⟩
      | fault f => exact ⟨1, by omega, by rw [core_run_succ, hs]; rfl⟩
      | refused f => exact ⟨1, by omega, by rw [core_run_succ, hs]; rfl⟩

/-- On ready regions that share no byte, `LCW.DEC` is its loop from `sp = dp = 0` (spec/44_lcw.md
rule R220). -/
theorem exec_lcwDec_of_ready {s : State} (hsrc : SpanReady s.platform (srcSpan s s.srcLen.toNat))
    (hdst : SpanReady s.platform (dstSpan s s.dstLen.toNat))
    (hapart : SpansApart (srcSpan s s.srcLen.toNat) (dstSpan s s.dstLen.toNat)) :
    exec .lcwDec s = runLoop (s.srcLen.toNat + 1) (startRun s) := by
  change execLcwDec s = _
  unfold execLcwDec
  exact launch_pair_of_ready hsrc hdst (spansOverlap_of_spansApart hapart)

/-- Settles O52: `LCW.DEC` is its loop, and the loop is a run of the machine. -/
theorem lcwDecIsItsStreamCommandsInOrder : Obligations.LcwDecIsItsStreamCommandsInOrder := by
  unfold Obligations.LcwDecIsItsStreamCommandsInOrder
  intro s hsrc hdst hapart
  rw [exec_lcwDec_of_ready hsrc hdst hapart]
  exact exists_core_run_eq_runLoop _ (startRun s)

end Sys2Proof.Proofs
end

