-- ==== Sys2Proof/Proofs/Step.lean ====
section
/-! PROOF. What one step of the machine is: the host's next action, an access of the register window
or of memory, one pass of the LCW unit; and what each can answer. -/

namespace Sys2Proof.Proofs

open Sys2Proof Sys2Proof.Machine Sys2Proof.Laws

/-! ### One step -/

/-- With no run in progress a step takes the next action (spec/10_state.md rule R21). -/
theorem step_of_input {s : State} {a : Input} {rest : List Input} (hidle : s.lcw = none)
    (hin : s.inputs = a :: rest) : step s = perform a { s with inputs := rest } := by
  simp only [step, hidle, hin]

/-- A step from a state without a run leaves it as it is or takes an action. -/
theorem step_next_of_idle {s t : State} (hidle : s.lcw = none) (h : step s = .next t) :
    t = s ∨ ∃ a rest, perform a { s with inputs := rest } = .next t := by
  cases hin : s.inputs with
  | nil =>
    simp only [step, hidle, hin] at h
    exact .inl (eq_of_next_eq_next h)
  | cons a rest => exact .inr ⟨a, rest, step_of_input hidle hin ▸ h⟩

/-- A step inside a run ends the source or runs a stream command (spec/44_lcw.md rule R220). -/
theorem step_next_of_run {s t : State} {r : LcwRun} (hrun : s.lcw = some r) (h : step s = .next t) :
    t = stopRun s r .srcEnd ∨ ∃ i, i.isStream = true ∧ exec i s = .next t := by
  simp only [step, hrun, streamStep, decode] at h
  split at h
  · exact .inl (eq_of_next_eq_next h)
  · exact .inr ⟨_, decodeStreamByte_isStream _, h⟩

/-! ### Accesses of the host -/

/-- An aligned 32-bit access inside the window reaches its offset (spec/10_state.md rules R22,
R39). -/
theorem inWindow_of_offset {s : State} {offset : Nat} {body : Nat → Outcome}
    (hbase : s.platform.hostBase % 4 = 0) (hlt : offset < 256) (halign : offset % 4 = 0) :
    inWindow s (s.platform.hostBase + offset) 4 body = body offset := by
  have hwindow : Config.windowBytes = 256 := rfl
  unfold inWindow
  rw [if_neg (by omega), if_pos ⟨rfl, by omega⟩, Nat.add_sub_cancel_left]

/-- An access outside the window is refused (spec/10_state.md rule R22). -/
theorem inWindow_of_outside {s : State} {addr bytes : Nat} {body : Nat → Outcome}
    (h : addr < s.platform.hostBase ∨ s.platform.hostBase + 256 ≤ addr) :
    inWindow s addr bytes body = .refused .outsideWindow :=
  if_pos h

/-- An access inside the window that is not an aligned 32-bit one is refused (spec/10_state.md rule
R39). -/
theorem inWindow_of_shape {s : State} {addr bytes : Nat} {body : Nat → Outcome}
    (hlo : s.platform.hostBase ≤ addr) (hhi : addr < s.platform.hostBase + 256)
    (hshape : bytes ≠ 4 ∨ addr % 4 ≠ 0) :
    inWindow s addr bytes body = .refused .hostAccessShape := by
  have hwindow : Config.windowBytes = 256 := rfl
  unfold inWindow
  rw [if_neg (by omega), if_neg (by omega)]

/-- A host read of the window records what its offset reads as. -/
theorem perform_read (addr bytes : Nat) (s : State) : perform (.read addr bytes) s =
    inWindow s addr bytes fun offset => .next (s.returned (windowRead s offset)) := rfl

/-- A host write of the window. -/
theorem perform_write (addr bytes : Nat) (v : Word) (s : State) :
    perform (.write addr bytes v) s =
      inWindow s addr bytes fun offset => windowWrite s offset v := rfl

/-- A window access that answers a next state is its body at some offset. -/
theorem inWindow_next {s t : State} {addr bytes : Nat} {body : Nat → Outcome}
    (h : inWindow s addr bytes body = .next t) : ∃ offset, body offset = .next t := by
  unfold inWindow at h
  split at h
  · cases h
  · split at h
    · exact ⟨_, h⟩
    · cases h

/-- A host access to absent memory is a fault (log 7). -/
theorem inMemory_of_absent {s : State} {a : Word} {body : Outcome}
    (h : memValid s.platform a.toNat = false) : inMemory s a body = .fault .hostMemoryAbsent :=
  if_pos h

/-- A host access to a device is refused (spec/20_memory.md rule R68). -/
theorem inMemory_of_device {s : State} {a : Word} {body : Outcome}
    (hvalid : memValid s.platform a.toNat = true) (hdevice : isDevice s.platform a.toNat = true) :
    inMemory s a body = .refused .deviceRegion := by
  simp [inMemory, hvalid, hdevice]

/-- A memory access that answers a next state is its body. -/
theorem inMemory_next {s t : State} {a : Word} {body : Outcome}
    (h : inMemory s a body = .next t) : body = .next t := by
  unfold inMemory at h
  split at h
  · cases h
  · split at h
    · cases h
    · exact h

/-! ### The register window -/

/-- A write of the window at an offset other than `CMD`'s, as one update of the operand registers
(spec/10_state.md rules R22, R39). -/
theorem windowStore_eq (s : State) (offset : Nat) (v : Word) :
    windowStore s offset v = { s with
      srcAddr := if offset = 0x10 then v else s.srcAddr,
      srcLen := if offset = 0x14 then v else s.srcLen,
      dstAddr := if offset = 0x18 then v else s.dstAddr,
      dstLen := if offset = 0x1C then v else s.dstLen } := by
  unfold windowStore
  split
  case h_5 h10 h14 h18 h1C => rw [if_neg h10, if_neg h14, if_neg h18, if_neg h1C]
  all_goals rfl

/-- A write of the window runs a command or stores. -/
theorem windowWrite_next {s t : State} {offset : Nat} {v : Word}
    (h : windowWrite s offset v = .next t) :
    runCommand v s = .next t ∨ t = windowStore s offset v := by
  unfold windowWrite at h
  split at h
  · exact .inl h
  · exact .inr (eq_of_next_eq_next h)

/-- A word written to `CMD` is an illegal word or runs a command (spec/10_state.md rule R23,
spec/60_exceptions.md rule R294). -/
theorem runCommand_next {s t : State} {w : Word} (h : runCommand w s = .next t) :
    t = s.raise .illegal ∨ ∃ i, exec i s = .next t := by
  unfold runCommand at h
  split at h
  · exact .inr ⟨_, h⟩
  · exact .inl (eq_of_next_eq_next h)

/-- A legal word written to `CMD` is its command. -/
theorem runCommand_of_decode {s : State} {w : Word} {i : Instr} (h : decode (.cmd w) = .ok i) :
    runCommand w s = exec i s := by
  simp only [runCommand, h]

/-- A reset during a command that answers a next state mixes the memory before the command with that
after it (spec/70_reset_and_hazards.md rule R331). -/
theorem resetDuringCommand_next {s t : State} {w : Word}
    (h : resetDuringCommand w s = .next t) :
    ∃ u, runCommand w s = .next u ∧
      t = { u.resetBlock with mem := memMix (Config.resetKeepsNew u.draws) s.mem u.mem } := by
  unfold resetDuringCommand at h
  split at h
  case h_1 u hu => exact ⟨u, hu, eq_of_next_eq_next h⟩
  all_goals cases h

/-- A step that takes an aligned 32-bit read of the window (spec/10_state.md rules R22, R39). -/
theorem step_of_read {s : State} {offset : Nat} {rest : List Input} (hidle : s.lcw = none)
    (hbase : s.platform.hostBase % 4 = 0) (hlt : offset < 256) (halign : offset % 4 = 0)
    (hin : s.inputs = .read (s.platform.hostBase + offset) 4 :: rest) :
    step s = .next ({ s with inputs := rest }.returned (windowRead s offset)) := by
  rw [step_of_input hidle hin, perform_read]
  exact inWindow_of_offset (s := { s with inputs := rest }) hbase hlt halign

/-- A step that takes an aligned 32-bit write of the window (spec/10_state.md rules R22, R39). -/
theorem step_of_write {s : State} {offset : Nat} {v : Word} {rest : List Input}
    (hidle : s.lcw = none) (hbase : s.platform.hostBase % 4 = 0) (hlt : offset < 256)
    (halign : offset % 4 = 0) (hin : s.inputs = .write (s.platform.hostBase + offset) 4 v :: rest) :
    step s = windowWrite { s with inputs := rest } offset v := by
  rw [step_of_input hidle hin, perform_write]
  exact inWindow_of_offset (s := { s with inputs := rest }) hbase hlt halign

/-- A step that takes a write of a word to `CMD` (spec/10_state.md rule R23). -/
theorem step_of_command {s : State} {w : Word} {rest : List Input} (hidle : s.lcw = none)
    (hbase : s.platform.hostBase % 4 = 0)
    (hin : s.inputs = .write s.platform.hostBase 4 w :: rest) :
    step s = runCommand w { s with inputs := rest } :=
  step_of_write (offset := 0) hidle hbase (by decide) rfl hin

/-- What an action of the host or the platform can answer (spec/10_state.md rules R21 to R23,
spec/20_memory.md rule R73, spec/70_reset_and_hazards.md rules R330, R331). -/
theorem perform_next {a : Input} {s t : State} (h : perform a s = .next t) :
    (∃ v, t = s.returned v) ∨ (∃ offset v, t = windowStore s offset v) ∨
      (∃ w, runCommand w s = .next t) ∨ (∃ x v, t = s.writeByte x v) ∨ t = s.resetBlock ∨
      ∃ w, resetDuringCommand w s = .next t := by
  cases a with
  | read addr bytes =>
    obtain ⟨offset, h⟩ := inWindow_next (perform_read .. ▸ h)
    exact .inl ⟨_, eq_of_next_eq_next h⟩
  | write addr bytes data =>
    obtain ⟨offset, h⟩ := inWindow_next (perform_write .. ▸ h)
    obtain h | h := windowWrite_next h
    · exact .inr (.inr (.inl ⟨data, h⟩))
    · exact .inr (.inl ⟨offset, data, h⟩)
  | memRead addr => exact .inl ⟨_, eq_of_next_eq_next (inMemory_next h)⟩
  | memWrite addr data =>
    exact .inr (.inr (.inr (.inl ⟨addr, data, eq_of_next_eq_next (inMemory_next h)⟩)))
  | reset => exact .inr (.inr (.inr (.inr (.inl (eq_of_next_eq_next h)))))
  | resetDuring cmd => exact .inr (.inr (.inr (.inr (.inr ⟨cmd, h⟩))))

/-- A stream command with no run in progress is refused (log 8). -/
theorem exec_stream_of_idle {i : Instr} {s : State} (hi : i.isStream = true) (hidle : s.lcw = none) :
    exec i s = .refused .streamCommandIdle := by
  have hrefuse (body : LcwRun → Outcome) : inRun s body = .refused .streamCommandIdle := by
    simp only [inRun, hidle]
  cases i
  case rel | endMark | lit | abs | fill | labs => exact hrefuse _
  all_goals exact absurd hi Bool.false_ne_true

end Sys2Proof.Proofs
end

