-- ==== Sys2Proof/Proofs/Invariant.lean ====
section
/-! PROOF. Every step keeps the platform and the invariant of a good state: the LCW unit's commands
first, then its loop, the commands of the host, and the step. -/

namespace Sys2Proof.Proofs

open Sys2Proof Sys2Proof.Machine Sys2Proof.Laws

/-! ### The invariant, part by part -/

/-- The registers that say where a run of `LCW.DEC` works, and the platform, are the same. -/
structure SamePorts (s t : State) : Prop where
  platform : t.platform = s.platform
  srcAddr : t.srcAddr = s.srcAddr
  srcLen : t.srcLen = s.srcLen
  dstAddr : t.dstAddr = s.dstAddr
  dstLen : t.dstLen = s.dstLen

/-- `LT` and `EQ` are not both 1 (spec/10_state.md rule R25). -/
def OrderFlagsExclusive (f : Flags) : Prop := (f.lt && f.eq) = false

/-- The regions of `LCW.DEC` passed the checks of its launch (spec/44_lcw.md rule R220). -/
def LcwRegionsPass (s : State) : Prop :=
  let src := srcSpan s s.srcLen.toNat
  let dst := dstSpan s s.dstLen.toNat
  portError s.platform [src, dst] (spansOverlap src dst) = none ∧
    [src, dst].any (spanTouchesDevice s.platform) = false

theorem lcwRegionsPass_of_samePorts {s t : State} (hports : SamePorts s t)
    (h : LcwRegionsPass s) : LcwRegionsPass t := by
  unfold LcwRegionsPass srcSpan dstSpan at *
  rwa [hports.platform, hports.srcAddr, hports.srcLen, hports.dstAddr, hports.dstLen]

theorem runWithin_iff {s : State} {r : LcwRun} :
    runWithin s r = true ↔
      r.sp.toNat ≤ s.srcLen.toNat ∧ r.dp.toNat ≤ s.dstLen.toNat ∧ LcwRegionsPass s := by
  simp only [runWithin, LcwRegionsPass, Bool.and_eq_true, decide_eq_true_eq, beq_iff_eq,
    Bool.not_eq_true', and_assoc]

theorem good_iff {s : State} :
    s.good = true ↔ memWf s.mem = true ∧ OrderFlagsExclusive s.flags ∧
      ∀ r, s.lcw = some r → runWithin s r = true := by
  unfold State.good OrderFlagsExclusive
  cases s.lcw <;>
    simp only [Bool.and_eq_true, Bool.not_eq_true', and_assoc, reduceCtorEq, Option.some.injEq,
      forall_eq', IsEmpty.forall_iff, implies_true]

/-- Without a run in progress the invariant is about memory and `FLAGS` alone. -/
theorem good_of_idle {s : State} (hidle : s.lcw = none) (hmem : memWf s.mem = true)
    (hflags : OrderFlagsExclusive s.flags) : s.good = true :=
  good_iff.mpr ⟨hmem, hflags, fun r hr => by simp [hidle] at hr⟩

/-- What leaves the run and its regions alone keeps the invariant, if it keeps memory canonical and
the order flags exclusive. -/
theorem good_of_same_run {s t : State} (hs : s.good = true) (hports : SamePorts s t)
    (hlcw : t.lcw = s.lcw) (hmem : memWf t.mem = true) (hflags : OrderFlagsExclusive t.flags) :
    t.good = true := by
  obtain ⟨-, -, hrun⟩ := good_iff.mp hs
  refine good_iff.mpr ⟨hmem, hflags, fun r hr => ?_⟩
  obtain ⟨hsp, hdp, hpass⟩ := runWithin_iff.mp (hrun r (hlcw ▸ hr))
  exact runWithin_iff.mpr ⟨by rwa [hports.srcLen], by rwa [hports.dstLen],
    lcwRegionsPass_of_samePorts hports hpass⟩

/-- An error keeps the invariant. -/
theorem good_raise {s : State} (e : Err) (hs : s.good = true) : (s.raise e).good = true := hs

/-! ### The stream commands -/

/-- The end of a run keeps the invariant. -/
theorem good_stopRun {s : State} (r : LcwRun) (stop : LcwStop) (hs : s.good = true) :
    (stopRun s r stop).good = true := by
  obtain ⟨hmem, hflags, -⟩ := good_iff.mp hs
  exact good_of_idle (stopRun_lcw ..) hmem hflags

/-- An offset advanced by no more than what is left stays inside, without a wrap. -/
theorem toNat_add_ofNat_le {a b : Word} {n : Nat} (hab : a.toNat ≤ b.toNat)
    (hn : n ≤ b.toNat - a.toNat) : (a + BitVec.ofNat 32 n).toNat ≤ b.toNat := by
  have hb := b.isLt
  rw [BitVec.toNat_add, BitVec.toNat_ofNat]
  omega

/-- An advance by no more than what is left, after a change of memory alone, keeps the invariant
(spec/44_lcw.md rule R236 (i)). -/
theorem good_advanceRun {s u : State} {r : LcwRun} {stream output : Nat} (hs : s.good = true)
    (hrun : s.lcw = some r) (hframe : u = { s with mem := u.mem }) (hmem : memWf u.mem = true)
    (hstream : stream ≤ srcLeft s r) (houtput : output ≤ dstLeft s r) :
    (advanceRun u r stream output).good = true := by
  obtain ⟨-, hflags, hwithin⟩ := good_iff.mp hs
  obtain ⟨hsp, hdp, hpass⟩ := runWithin_iff.mp (hwithin r hrun)
  rw [hframe]
  refine good_iff.mpr ⟨hmem, hflags, fun q hq => ?_⟩
  obtain rfl := Option.some.inj hq
  exact runWithin_iff.mpr ⟨toNat_add_ofNat_le hsp hstream, toNat_add_ofNat_le hdp houtput, hpass⟩

/-- A check of a stream command: the stop it takes, or the rest of the command with the check
passed. -/
theorem good_of_check {c : Prop} [Decidable c] {r : LcwRun} {stop : LcwStop} {o : Outcome}
    {s t : State} (hs : s.good = true)
    (h : (if c then .next (stopRun s r stop) else o) = .next t)
    (ho : ¬c → o = .next t → t.good = true) : t.good = true := by
  split at h
  case isTrue => exact eq_of_next_eq_next h ▸ good_stopRun r stop hs
  case isFalse hc => exact ho hc h

/-- A back-reference whose bytes are all there keeps the invariant. -/
theorem good_backReference {s t : State} {r : LcwRun} {size offset count : Nat} {valid : Bool}
    (hs : s.good = true) (hrun : s.lcw = some r) (hsize : ¬srcLeft s r < size)
    (h : backReference s r size valid offset count = .next t) : t.good = true := by
  obtain ⟨hmem, -, -⟩ := good_iff.mp hs
  obtain ⟨-, rfl⟩ | ⟨-, -, rfl⟩ | ⟨-, hspace, rfl⟩ := backReference_next h
  · exact good_stopRun _ _ hs
  · exact good_stopRun _ _ hs
  · exact good_advanceRun hs hrun (copyBytes_frame ..) (memWf_copyBytes hmem) (by omega) hspace

/-- Every stream command keeps the invariant. -/
theorem good_exec_stream {i : Instr} {s t : State} (hi : i.isStream = true) (hs : s.good = true)
    (h : exec i s = .next t) : t.good = true := by
  obtain ⟨hmem, -, -⟩ := good_iff.mp hs
  cases i
  case rel | abs | labs =>
    obtain ⟨r, hrun, h⟩ := inRun_next h
    exact good_of_check hs h fun hsize h => good_backReference hs hrun hsize h
  case endMark =>
    obtain ⟨r, -, rfl⟩ := execEndMark_next h
    exact good_stopRun _ _ hs
  case lit =>
    obtain ⟨r, hrun, h⟩ := inRun_next h
    refine good_of_check hs h fun hsize h => good_of_check hs h fun hspace h => ?_
    exact eq_of_next_eq_next h ▸ good_advanceRun hs hrun (copyBytes_frame ..)
      (memWf_copyBytes hmem) (by omega) (by omega)
  case fill =>
    obtain ⟨r, hrun, h⟩ := inRun_next h
    refine good_of_check hs h fun hsize h => ?_
    exact eq_of_next_eq_next h ▸ good_advanceRun hs hrun (fillBytes_frame ..)
      (memWf_fillBytes hmem) (by omega) (Nat.min_le_right ..)
  all_goals exact absurd hi Bool.false_ne_true

/-! ### `LCW.DEC` -/

/-- A step inside a run keeps the invariant. -/
theorem good_step_of_run {s t : State} {r : LcwRun} (hrun : s.lcw = some r) (hs : s.good = true)
    (h : step s = .next t) : t.good = true := by
  obtain rfl | ⟨i, hi, h⟩ := step_next_of_run hrun h
  · exact good_stopRun _ _ hs
  · exact good_exec_stream hi hs h

/-- Any number of passes of the loop of `LCW.DEC` keeps the invariant. -/
theorem good_runLoop {passes : Nat} {s t : State} (hs : s.good = true)
    (h : runLoop passes s = .next t) : t.good = true := by
  induction passes generalizing s with
  | zero => exact eq_of_next_eq_next h ▸ hs
  | succ passes ih =>
    cases hrun : s.lcw with
    | none =>
      rw [runLoop_of_idle _ hrun] at h
      exact eq_of_next_eq_next h ▸ hs
    | some r =>
      rw [runLoop_succ_of_run _ hrun] at h
      obtain ⟨u, hstep, hrest⟩ := andThen_eq_next h
      exact ih (good_step_of_run hrun hs hstep) hrest

/-- A run starts inside the regions its launch has checked. -/
theorem good_startRun {s : State} (hs : s.good = true) (hpass : LcwRegionsPass s) :
    (startRun s).good = true := by
  obtain ⟨hmem, hflags, -⟩ := good_iff.mp hs
  refine good_iff.mpr ⟨hmem, hflags, fun r hr => ?_⟩
  obtain rfl := Option.some.inj hr
  exact runWithin_iff.mpr ⟨Nat.zero_le _, Nat.zero_le _, hpass⟩

/-- `LCW.DEC` keeps the invariant. -/
theorem good_execLcwDec {s t : State} (hs : s.good = true) (h : execLcwDec s = .next t) :
    t.good = true := by
  unfold execLcwDec at h
  obtain ⟨e, -, rfl⟩ | ⟨herror, hdevice, hrun⟩ := launch_next h
  · exact good_raise e hs
  · exact good_runLoop (good_startRun hs ⟨herror, hdevice⟩) hrun

/-! ### The other commands -/

/-- A BigInt store keeps memory canonical. -/
theorem memWf_storeBig {image : Big → Nat → List Byte} {ra : Reg} {len : BitVec 16} {s t : State}
    (hmem : memWf s.mem = true) (h : storeBig image ra len s = .next t) : memWf t.mem = true := by
  obtain ⟨e, rfl⟩ | h := raise_or_of_check h
  · exact hmem
  · obtain ⟨e, rfl⟩ | rfl := raise_or_of_launch h
    · exact hmem
    · exact memWf_writeBytes hmem

/-- The body of a cipher command keeps memory canonical. -/
theorem memWf_launch_cryptBlocks {f : State → Word × Word → Word × Word} {n : Nat}
    {spans : List Span} {clash : Bool} {s t : State} (hmem : memWf s.mem = true)
    (h : launch s spans clash (fun s => .next (cryptBlocks f n s.srcAddr s.dstAddr s).succeed) =
      .next t) : memWf t.mem = true := by
  obtain ⟨e, rfl⟩ | rfl := raise_or_of_launch h
  · exact hmem
  · exact memWf_cryptBlocks hmem

/-- A cipher command on one block keeps memory canonical. -/
theorem memWf_cryptOne {f : State → Word × Word → Word × Word} {s t : State}
    (hmem : memWf s.mem = true) (h : cryptOne f s = .next t) : memWf t.mem = true := by
  obtain ⟨e, rfl⟩ | h := raise_or_of_check h
  · exact hmem
  · exact memWf_launch_cryptBlocks hmem h

/-- A bulk cipher command keeps memory canonical. -/
theorem memWf_cryptBulk {f : State → Word × Word → Word × Word} {s t : State}
    (hmem : memWf s.mem = true) (h : cryptBulk f s = .next t) : memWf t.mem = true := by
  obtain ⟨e, rfl⟩ | h := raise_or_of_check h
  · exact hmem
  · obtain ⟨e, rfl⟩ | h := raise_or_of_check h
    · exact hmem
    · exact memWf_launch_cryptBlocks hmem h

/-- A command that is none of those that write memory leaves it as it was (spec/00_scope.md rule
R11). -/
theorem exec_mem {i : Instr} {s t : State} (h : exec i s = .next t)
    (hi : i.mnemonic ∉ ["BI.STBE", "BI.STLE", "BF.ENCB", "BF.DECB", "BF.ENC", "BF.DEC", "LCW.DEC",
      "REL", "LIT", "ABS", "FILL", "LABS"]) : t.mem = s.mem := by
  obtain ⟨-, -, -, -, -, -, -, hmem, -⟩ := commandsKeepToTheirState i s t h
  exact hmem hi

/-- No instruction writes an operand register or the platform (spec/10_state.md rules R27 to
R30). -/
theorem samePorts_exec {i : Instr} {s t : State} (h : exec i s = .next t) : SamePorts s t := by
  obtain ⟨-, -, -, -, -, -, -, -, hsrcAddr, hsrcLen, hdstAddr, hdstLen, hplatform, -⟩ :=
    commandsKeepToTheirState i s t h
  exact ⟨hplatform, hsrcAddr, hsrcLen, hdstAddr, hdstLen⟩

/-- `BI.CMP` never finds a value both below another and equal to it (spec/40_bigint.md rule
R126). -/
theorem orderFlagsExclusive_cmp (f : Flags) (a b : Big) :
    OrderFlagsExclusive { f with lt := ltOf a b, eq := eqOf a b } := by
  unfold OrderFlagsExclusive
  rw [← Bool.not_eq_true, Bool.and_eq_true]
  rintro ⟨hlt, heq⟩
  simp only [ltOf, eqOf, decide_eq_true_eq, beq_iff_eq] at hlt heq
  subst heq
  exact absurd hlt (Nat.lt_irrefl _)

/-- A command keeps the invariant if it keeps memory canonical and is none of `BI.CMP` and
`LCW.DEC`. -/
theorem good_exec_of_memWf {i : Instr} {s t : State} (hstream : i.isStream = false)
    (hcmp : i.mnemonic ≠ "BI.CMP") (hdec : i.mnemonic ≠ "LCW.DEC") (hs : s.good = true)
    (h : exec i s = .next t) (hmem : memWf t.mem = true) : t.good = true := by
  obtain ⟨-, hflags, -⟩ := good_iff.mp hs
  obtain ⟨-, -, -, horder, -, hunit, -⟩ := commandsKeepToTheirState i s t h
  obtain ⟨hlt, heq⟩ := horder hcmp
  obtain ⟨-, -, hlcw⟩ := hunit hstream hdec
  refine good_of_same_run hs (samePorts_exec h) hlcw hmem ?_
  unfold OrderFlagsExclusive
  rwa [hlt, heq]

/-- Every instruction keeps the invariant. -/
theorem good_exec {i : Instr} {s t : State} (hs : s.good = true) (h : exec i s = .next t) :
    t.good = true := by
  obtain ⟨hmem, -, -⟩ := good_iff.mp hs
  cases i
  case rel | endMark | lit | abs | fill | labs => exact good_exec_stream rfl hs h
  case lcwDec => exact good_execLcwDec hs h
  case biCmp =>
    obtain rfl := eq_of_next_eq_next h
    exact good_of_same_run hs (samePorts_exec h) rfl hmem (orderFlagsExclusive_cmp ..)
  case biStbe | biStle =>
    exact good_exec_of_memWf rfl (by simp [Instr.mnemonic]) (by simp [Instr.mnemonic]) hs h
      (memWf_storeBig hmem h)
  case bfEncb | bfDecb =>
    exact good_exec_of_memWf rfl (by simp [Instr.mnemonic]) (by simp [Instr.mnemonic]) hs h
      (memWf_cryptOne hmem h)
  case bfEnc | bfDec =>
    exact good_exec_of_memWf rfl (by simp [Instr.mnemonic]) (by simp [Instr.mnemonic]) hs h
      (memWf_cryptBulk hmem h)
  all_goals
    refine good_exec_of_memWf rfl (by simp [Instr.mnemonic]) (by simp [Instr.mnemonic]) hs h ?_
    rw [exec_mem h (by simp [Instr.mnemonic])]
    exact hmem

/-! ### The step -/

/-- The platform is as it was, and a good state stays good. -/
def KeepsInvariant (s t : State) : Prop :=
  t.platform = s.platform ∧ (s.good = true → t.good = true)

/-- A word written to `CMD` keeps the invariant. -/
theorem keepsInvariant_runCommand {s t : State} {w : Word} (h : runCommand w s = .next t) :
    KeepsInvariant s t := by
  obtain rfl | ⟨i, h⟩ := runCommand_next h
  · exact ⟨rfl, good_raise _⟩
  · exact ⟨(samePorts_exec h).platform, fun hs => good_exec hs h⟩

/-- The reset state has no run and `FLAGS` 0, so it is good where memory is canonical. -/
theorem good_of_resetBlock {s : State} {m : List Host.Cell} (hmem : memWf m = true) :
    ({ s.resetBlock with mem := m } : State).good = true :=
  good_of_idle rfl hmem rfl

/-- An action of the host or the platform on a block without a run keeps the invariant. -/
theorem keepsInvariant_perform {a : Input} {s t : State} (hidle : s.lcw = none)
    (h : perform a s = .next t) : KeepsInvariant s t := by
  obtain ⟨v, rfl⟩ | ⟨offset, v, rfl⟩ | ⟨w, h⟩ | ⟨x, v, rfl⟩ | rfl | ⟨w, h⟩ := perform_next h
  · exact ⟨rfl, id⟩
  · rw [windowStore_eq]
    refine ⟨rfl, fun hs => ?_⟩
    obtain ⟨hmem, hflags, -⟩ := good_iff.mp hs
    exact good_of_idle hidle hmem hflags
  · exact keepsInvariant_runCommand h
  · refine ⟨rfl, fun hs => ?_⟩
    obtain ⟨hmem, hflags, -⟩ := good_iff.mp hs
    exact good_of_idle hidle (memWf_writeByte x v hmem) hflags
  · refine ⟨rfl, fun hs => ?_⟩
    obtain ⟨hmem, -, -⟩ := good_iff.mp hs
    exact good_of_resetBlock hmem
  · obtain ⟨u, hu, rfl⟩ := resetDuringCommand_next h
    obtain ⟨hplatform, hgood⟩ := keepsInvariant_runCommand hu
    refine ⟨hplatform, fun hs => ?_⟩
    obtain ⟨hold, -, -⟩ := good_iff.mp hs
    obtain ⟨hnew, -, -⟩ := good_iff.mp (hgood hs)
    exact good_of_resetBlock (memWf_memMix hold hnew)

/-- Settles O10: inside a run by the LCW unit's frame and bounds, else by what the next action
does. -/
theorem everyStepKeepsTheInvariant : Obligations.EveryStepKeepsTheInvariant := by
  unfold Obligations.EveryStepKeepsTheInvariant
  intro s t h
  cases hrun : s.lcw with
  | some r =>
    have hplatform : t.platform = s.platform := by rw [lcwFrame_step hrun h]
    exact ⟨hplatform, fun hs => good_step_of_run hrun hs h⟩
  | none =>
    obtain rfl | ⟨a, rest, h⟩ := step_next_of_idle hrun h
    · exact ⟨rfl, id⟩
    · exact keepsInvariant_perform (s := { s with inputs := rest }) hrun h

/-- Settles O11: the reset state is idle, its memory empty and its `FLAGS` 0. -/
theorem resetIsGood : Obligations.ResetIsGood :=
  good_of_idle rfl memWf_reset rfl

end Sys2Proof.Proofs
end

