-- ==== Sys2Proof/Proofs/Window.lean ====
section
/-! PROOF. The register window as the host sees it: the words `STATUS` and `FLAGS` read as, what a
read and a write at each offset do, the values after reset, and what stops by name. -/

namespace Sys2Proof.Proofs

open Sys2Proof Sys2Proof.Machine Sys2Proof.Laws

/-! ### The words of `STATUS` and `FLAGS` -/

/-- A one-bit field is worth its bit. -/
theorem toNat_bitWord (v : Bool) : (bitWord v).toNat = if v then 1 else 0 := by
  cases v <;> rfl

theorem toNat_bitWord_le (v : Bool) : (bitWord v).toNat ≤ 1 := by
  cases v <;> decide

/-- A field put at bit `k` is worth `2 ^ k` times its value, where none of it is shifted out. -/
theorem toNat_shiftLeft_of_lt {a : Word} {k : Nat} (h : a.toNat * 2 ^ k < 2 ^ 32) :
    (a <<< k).toNat = a.toNat * 2 ^ k := by
  rw [BitVec.toNat_shiftLeft, Nat.shiftLeft_eq, Nat.mod_eq_of_lt h]

/-- Fields that share no bit add up: those of `a` begin at bit `k`, and `b` ends below it. -/
theorem toNat_or_of_dvd_of_lt {a b : Word} (k : Nat) (ha : 2 ^ k ∣ a.toNat) (hb : b.toNat < 2 ^ k) :
    (a ||| b).toNat = a.toNat + b.toNat := by
  obtain ⟨x, hx⟩ := ha
  rw [BitVec.toNat_or, hx, Nat.two_pow_add_eq_or_of_lt hb]

/-- Four fields side by side, from bits 0, `i`, `j` and `k` on, each ending where the next begins. -/
theorem toNat_four_fields {a b c d : Word} {i j k : Nat} (hij : i ≤ j) (hjk : j ≤ k) (hk : k ≤ 32)
    (ha : a.toNat < 2 ^ i) (hb : b.toNat * 2 ^ i < 2 ^ j) (hc : c.toNat * 2 ^ j < 2 ^ k)
    (hd : d.toNat * 2 ^ k < 2 ^ 32) :
    (d <<< k ||| c <<< j ||| b <<< i ||| a).toNat =
      d.toNat * 2 ^ k + c.toNat * 2 ^ j + b.toNat * 2 ^ i + a.toNat := by
  have hkPow : 2 ^ k ≤ 2 ^ 32 := Nat.pow_le_pow_right (by decide) hk
  have hjPow : 2 ^ j ≤ 2 ^ k := Nat.pow_le_pow_right (by decide) hjk
  have hjDvd : 2 ^ j ∣ 2 ^ k := Nat.pow_dvd_pow 2 hjk
  have hiDvd : 2 ^ i ∣ 2 ^ j := Nat.pow_dvd_pow 2 hij
  have hdWord := toNat_shiftLeft_of_lt hd
  have hcWord := toNat_shiftLeft_of_lt (a := c) (k := j) (by omega)
  have hbWord := toNat_shiftLeft_of_lt (a := b) (k := i) (by omega)
  have hdc : (d <<< k ||| c <<< j).toNat = d.toNat * 2 ^ k + c.toNat * 2 ^ j := by
    rw [toNat_or_of_dvd_of_lt k (hdWord ▸ Nat.dvd_mul_left ..) (hcWord ▸ hc), hdWord, hcWord]
  have hdcDvd : 2 ^ j ∣ d.toNat * 2 ^ k + c.toNat * 2 ^ j :=
    Nat.dvd_add (hjDvd.mul_left _) (Nat.dvd_mul_left ..)
  have hdcb : (d <<< k ||| c <<< j ||| b <<< i).toNat =
      d.toNat * 2 ^ k + c.toNat * 2 ^ j + b.toNat * 2 ^ i := by
    rw [toNat_or_of_dvd_of_lt j (hdc ▸ hdcDvd) (hbWord ▸ hb), hdc, hbWord]
  have hdcbDvd : 2 ^ i ∣ d.toNat * 2 ^ k + c.toNat * 2 ^ j + b.toNat * 2 ^ i :=
    Nat.dvd_add (hiDvd.trans hdcDvd) (Nat.dvd_mul_left ..)
  rw [toNat_or_of_dvd_of_lt i (hdcb ▸ hdcbDvd) ha, hdcb]

/-- `STATUS` reads with `ERR` at bit 0, `ERRS` at 8, `KEYVALID` at 9 and `LCW_STOP` at 12
(spec/10_state.md rule R24). -/
theorem toNat_statusWord (st : Status) :
    (statusWord st).toNat = (errCode st.err).toNat + 256 * (if st.errs then 1 else 0)
      + 512 * (if st.keyvalid then 1 else 0) + 4096 * (stopCode st.lcwStop).toNat := by
  have herr : ((errCode st.err).setWidth 32).toNat = (errCode st.err).toNat :=
    BitVec.toNat_setWidth_of_le (by decide)
  have hstop : ((stopCode st.lcwStop).setWidth 32).toNat = (stopCode st.lcwStop).toNat :=
    BitVec.toNat_setWidth_of_le (by decide)
  have herrLt := (errCode st.err).isLt
  have hstopLt := (stopCode st.lcwStop).isLt
  have herrs := toNat_bitWord_le st.errs
  have hkey := toNat_bitWord_le st.keyvalid
  unfold statusWord
  rw [toNat_four_fields (by decide) (by decide) (by decide) (by omega) (by omega) (by omega)
    (by omega), herr, hstop, toNat_bitWord, toNat_bitWord]
  omega

/-- `FLAGS` reads with `C` at bit 0, `Z` at 1, `LT` at 2 and `EQ` at 3 (spec/10_state.md rule
R25). -/
theorem toNat_flagsWord (f : Flags) :
    (flagsWord f).toNat = (if f.c then 1 else 0) + 2 * (if f.z then 1 else 0)
      + 4 * (if f.lt then 1 else 0) + 8 * (if f.eq then 1 else 0) := by
  have hc := toNat_bitWord_le f.c
  have hz := toNat_bitWord_le f.z
  have hlt := toNat_bitWord_le f.lt
  have heq := toNat_bitWord_le f.eq
  unfold flagsWord
  rw [toNat_four_fields (by decide) (by decide) (by decide) (by omega) (by omega) (by omega)
    (by omega)]
  simp only [toNat_bitWord]
  omega

/-! ### Reads and writes -/

/-- The reserved offsets of the window read 0 (spec/10_state.md rule R22). -/
theorem windowRead_of_reserved (s : State) {offset : Nat} (h : 0x24 ≤ offset) :
    windowRead s offset = 0#32 := by
  unfold windowRead
  split
  case h_9 => rfl
  all_goals omega

/-- Settles O55: the access reaches its offset, where `windowRead` gives the register. -/
theorem windowReadsReturnTheRegister : Obligations.WindowReadsReturnTheRegister := by
  unfold Obligations.WindowReadsReturnTheRegister
  intro s offset rest hidle hbase hlt halign hin bit
  refine ⟨windowRead s offset, step_of_read hidle hbase hlt halign hin,
    ?cmd, ?status, ?flags, ?result, ?srcAddr, ?srcLen, ?dstAddr, ?dstLen, ?lcwSp,
    windowRead_of_reserved s⟩ <;> rintro rfl
  case status => exact toNat_statusWord s.status
  case flags => exact toNat_flagsWord s.flags
  all_goals rfl

/-- Settles O56: the access reaches its offset, where `windowStore` updates the operand registers. -/
theorem windowWritesReachOperandRegistersOnly :
    Obligations.WindowWritesReachOperandRegistersOnly := by
  unfold Obligations.WindowWritesReachOperandRegistersOnly
  intro s offset v rest hidle hbase hpos hlt halign hin
  rw [step_of_write hidle hbase hlt halign hin, windowWrite, if_neg (by omega), windowStore_eq]

/-- Settles O7: the access reaches offset 0, where `CMD` takes the word and runs its command. -/
theorem stepRunsTheDecodedCommand : Obligations.StepRunsTheDecodedCommand := by
  unfold Obligations.StepRunsTheDecodedCommand
  intro s w rest i hidle hbase hin hdecode
  rw [step_of_command hidle hbase hin, runCommand_of_decode hdecode]

/-! ### After reset -/

/-- Every BigInt register holds 0 after reset (spec/10_state.md rule R40). -/
theorem getB_reset (r : Reg) : State.reset.getB r = 0#320 := by
  simp only [State.getB, State.reset, Vector.getElem_replicate]

/-- Settles O12: the BigInt registers by `getB_reset`, the others as `State.reset` gives them. -/
theorem resetValues : Obligations.ResetValues :=
  ⟨getB_reset, rfl, rfl, rfl, rfl, rfl, rfl, rfl, rfl, rfl⟩

/-! ### What stops by name -/

/-- Settles O57: each access stops in the check of `inWindow` or `inMemory` it fails, a stream
command in the check for a run. -/
theorem whatHasNoMeaningStopsByName : Obligations.WhatHasNoMeaningStopsByName := by
  unfold Obligations.WhatHasNoMeaningStopsByName
  intro s rest hidle
  refine ⟨fun addr bytes v hin => ?_, fun a v hin => ?_, fun i hi => exec_stream_of_idle hi hidle⟩
  · obtain ⟨body, hstep⟩ : ∃ body, step s = inWindow { s with inputs := rest } addr bytes body := by
      obtain hin | hin := hin
      · exact ⟨_, (step_of_input hidle hin).trans (perform_read ..)⟩
      · exact ⟨_, (step_of_input hidle hin).trans (perform_write ..)⟩
    rw [hstep]
    exact ⟨inWindow_of_outside, inWindow_of_shape⟩
  · obtain ⟨body, hstep⟩ : ∃ body, step s = inMemory { s with inputs := rest } a body := by
      obtain hin | hin := hin <;> exact ⟨_, step_of_input hidle hin⟩
    rw [hstep]
    exact ⟨inMemory_of_absent, inMemory_of_device⟩

end Sys2Proof.Proofs
end

