-- ==== Sys2Proof/Proofs/HostMemory.lean ====
section
/-! PROOF. The host's accesses of memory, one byte each: a write, and the read of that byte after it
(spec/20_memory.md rules R68, R73). -/

namespace Sys2Proof.Proofs

open Sys2Proof Sys2Proof.Machine Sys2Proof.Laws

/-- A host access to plain memory is its body (spec/20_memory.md rule R68). -/
theorem inMemory_of_plain {s : State} {a : Word} {body : Outcome}
    (hvalid : memValid s.platform a.toNat = true) (hplain : isDevice s.platform a.toNat = false) :
    inMemory s a body = body := by
  simp [inMemory, hvalid, hplain]

/-- A step that takes a write of a byte of plain memory (spec/20_memory.md rule R73). -/
theorem step_of_memWrite {s : State} {a : Word} {v : Byte} {rest : List Input}
    (hidle : s.lcw = none) (hvalid : memValid s.platform a.toNat = true)
    (hplain : isDevice s.platform a.toNat = false) (hin : s.inputs = .memWrite a v :: rest) :
    step s = .next ({ s with inputs := rest }.writeByte a v) :=
  (step_of_input hidle hin).trans (inMemory_of_plain hvalid hplain)

/-- A step that takes a read of a byte of plain memory records the value of that byte
(spec/20_memory.md rule R73). -/
theorem step_of_memRead {s : State} {a : Word} {v : Byte} {rest : List Input}
    (hidle : s.lcw = none) (hvalid : memValid s.platform a.toNat = true)
    (hplain : isDevice s.platform a.toNat = false) (hin : s.inputs = .memRead a :: rest)
    (hbyte : s.readByte a = v) :
    step s = .next { s with
      inputs := rest, hostReads := BitVec.ofNat 32 v.toNat :: s.hostReads } := by
  rw [step_of_input hidle hin, BitVec.ofNat_toNat, ← hbyte]
  exact inMemory_of_plain hvalid hplain

/-- A write leaves every other byte of memory (spec/20_memory.md rule R73). -/
theorem memRead_writeByte_of_ne {s : State} {a : Word} {v : Byte} {x : Nat} (h : x ≠ a.toNat) :
    memRead (s.writeByte a v).mem x = memRead s.mem x := by
  rw [writeByte_mem, memRead_memWrite, if_neg h.symm]

/-- Settles O58: the write is `writeByte`, which leaves the platform and the block idle, so the read
takes place at the same plain byte and finds the one just written. -/
theorem hostMemoryWriteIsReadBack : Obligations.HostMemoryWriteIsReadBack := by
  unfold Obligations.HostMemoryWriteIsReadBack
  intro s a v rest hidle hvalid hplain hin
  have hbyte : ({ s with inputs := .memRead a :: rest }.writeByte a v).readByte a = v := by
    rw [readByte_writeByte, if_pos rfl]
  exact ⟨_, step_of_memWrite hidle hvalid hplain hin, rfl, fun x => memRead_writeByte_of_ne,
    step_of_memRead hidle hvalid hplain rfl hbyte⟩

end Sys2Proof.Proofs
end

