-- ==== Sys2Proof/Proofs/CommandWords.lean ====
section
/-! PROOF. Command words (spec/30_encoding.md rules R90 to R100): a word is its fields, the
must-be-zero bits of a row say that the word has the row's format, and the decoder reads the row of
the opcode map that has the word's opcode. -/

namespace Sys2Proof.Proofs

open Sys2Proof Sys2Proof.Laws

/-! ### A word is its fields -/

/-- Bits 7:0 of a command word, zero or part of an immediate (spec/30_encoding.md rules R92 to
R94). -/
def fieldLow (w : Word) : Byte := w.extractLsb' 0 8

/-- A word is the three fields of format `I20` (spec/30_encoding.md rule R93). -/
theorem eq_iff_fieldsI20 (v w : Word) :
    v = w ↔ fieldOp v = fieldOp w ∧ fieldRd v = fieldRd w ∧ fieldImm20 v = fieldImm20 w := by
  simp only [fieldOp, fieldRd, fieldImm20, ← BitVec.toNat_inj, BitVec.extractLsb'_toNat,
    Nat.shiftRight_eq_div_pow]
  omega

/-- The 20-bit immediate is `ra` and the 16-bit immediate side by side. -/
theorem fieldImm20_eq_iff (v w : Word) :
    fieldImm20 v = fieldImm20 w ↔ fieldRa v = fieldRa w ∧ fieldImm16 v = fieldImm16 w := by
  simp only [fieldImm20, fieldRa, fieldImm16, ← BitVec.toNat_inj, BitVec.extractLsb'_toNat,
    Nat.shiftRight_eq_div_pow]
  omega

/-- The 16-bit immediate is `rb`, `rc` and the low byte side by side. -/
theorem fieldImm16_eq_iff (v w : Word) :
    fieldImm16 v = fieldImm16 w ↔
      fieldRb v = fieldRb w ∧ fieldRc v = fieldRc w ∧ fieldLow v = fieldLow w := by
  simp only [fieldImm16, fieldRb, fieldRc, fieldLow, ← BitVec.toNat_inj, BitVec.extractLsb'_toNat,
    Nat.shiftRight_eq_div_pow]
  omega

/-- A word is the four fields of format `I16` (spec/30_encoding.md rule R94). -/
theorem eq_iff_fieldsI16 (v w : Word) :
    v = w ↔ fieldOp v = fieldOp w ∧ fieldRd v = fieldRd w ∧ fieldRa v = fieldRa w ∧
      fieldImm16 v = fieldImm16 w := by
  rw [eq_iff_fieldsI20, fieldImm20_eq_iff]

/-- A word is the five fields of format `R` and the byte below them (spec/30_encoding.md rule
R92). -/
theorem eq_iff_fieldsR (v w : Word) :
    v = w ↔ fieldOp v = fieldOp w ∧ fieldRd v = fieldRd w ∧ fieldRa v = fieldRa w ∧
      fieldRb v = fieldRb w ∧ fieldRc v = fieldRc w ∧ fieldLow v = fieldLow w := by
  rw [eq_iff_fieldsI16, fieldImm16_eq_iff]

/-! ### The fields a format leaves to the word -/

theorem formatZ_eq_formatR (op : Byte) : formatZ op = formatR op 0#4 0#4 0#4 0#4 := by
  simp [formatZ, formatR]

@[simp] theorem fieldLow_formatR (op : Byte) (rd ra rb rc : Reg) :
    fieldLow (formatR op rd ra rb rc) = 0#8 := by
  apply BitVec.eq_of_getLsbD_eq
  intro i hi
  rcases lt_eight_cases hi with rfl | rfl | rfl | rfl | rfl | rfl | rfl | rfl <;>
    simp [fieldLow, formatR]

@[simp] theorem fieldImm20_formatI20 (op : Byte) (rd : Reg) (imm : BitVec 20) :
    fieldImm20 (formatI20 op rd imm) = imm := by
  apply BitVec.eq_of_getLsbD_eq
  intro i hi
  have hop : i < 24 := by omega
  have hword : i < 32 := by omega
  simp [fieldImm20, formatI20, hi, hop, hword]

@[simp] theorem fieldImm16_formatI16 (op : Byte) (rd ra : Reg) (imm : BitVec 16) :
    fieldImm16 (formatI16 op rd ra imm) = imm := by
  apply BitVec.eq_of_getLsbD_eq
  intro i hi
  have hrd : i < 20 := by omega
  have hop : i < 24 := by omega
  have hword : i < 32 := by omega
  simp [fieldImm16, formatI16, hi, hrd, hop, hword]

/-- Format `I20` has no must-be-zero bits: every word is in it. -/
theorem formatI20_fields (w : Word) : formatI20 (fieldOp w) (fieldRd w) (fieldImm20 w) = w := by
  rw [eq_iff_fieldsI20]
  simp

/-! ### Must-be-zero bits

One lemma for each mask of the decoder: its bits are 0 in a word when the word has the format of the
mask's rows (spec/30_encoding.md rules R95, R100). -/

/-- Two words share no bit when they share none in any field. -/
theorem and_eq_zero_iff_fields (w mask : Word) :
    w &&& mask = 0#32 ↔
      fieldOp w &&& fieldOp mask = 0#8 ∧ fieldRd w &&& fieldRd mask = 0#4 ∧
        fieldRa w &&& fieldRa mask = 0#4 ∧ fieldRb w &&& fieldRb mask = 0#4 ∧
        fieldRc w &&& fieldRc mask = 0#4 ∧ fieldLow w &&& fieldLow mask = 0#8 := by
  rw [eq_iff_fieldsR]
  simp only [fieldOp, fieldRd, fieldRa, fieldRb, fieldRc, fieldLow, BitVec.extractLsb'_and,
    BitVec.extractLsb'_zero]

theorem byte_and_ones (b : Byte) : b &&& 0xFF#8 = b := BitVec.and_allOnes

theorem reg_and_ones (r : Reg) : r &&& 0xF#4 = r := BitVec.and_allOnes

/-- Bits 23:0 are 0 in format `Z`. -/
theorem mustBeZero_iff_formatZ (w : Word) :
    w &&& 0x00FFFFFF#32 = 0#32 ↔ w = formatZ (fieldOp w) :=
  calc w &&& 0x00FFFFFF#32 = 0#32
    _ ↔ fieldRd w = 0#4 ∧ fieldRa w = 0#4 ∧ fieldRb w = 0#4 ∧ fieldRc w = 0#4 ∧
        fieldLow w = 0#8 := by
      rw [and_eq_zero_iff_fields]
      simp [fieldOp, fieldRd, fieldRa, fieldRb, fieldRc, fieldLow, byte_and_ones, reg_and_ones]
    _ ↔ w = formatZ (fieldOp w) := by
      rw [formatZ_eq_formatR, eq_iff_fieldsR w]
      simp

/-- Bits 7:0 are 0 in format `R` with four registers. -/
theorem mustBeZero_iff_formatR_rd_ra_rb_rc (w : Word) :
    w &&& 0x000000FF#32 = 0#32 ↔
      w = formatR (fieldOp w) (fieldRd w) (fieldRa w) (fieldRb w) (fieldRc w) :=
  calc w &&& 0x000000FF#32 = 0#32
    _ ↔ fieldLow w = 0#8 := by
      rw [and_eq_zero_iff_fields]
      simp [fieldOp, fieldRd, fieldRa, fieldRb, fieldRc, fieldLow, byte_and_ones]
    _ ↔ w = formatR (fieldOp w) (fieldRd w) (fieldRa w) (fieldRb w) (fieldRc w) := by
      rw [eq_iff_fieldsR w]
      simp

/-- Bits 11:0 are 0 in format `R` without `rc`. -/
theorem mustBeZero_iff_formatR_rd_ra_rb (w : Word) :
    w &&& 0x00000FFF#32 = 0#32 ↔ w = formatR (fieldOp w) (fieldRd w) (fieldRa w) (fieldRb w) 0#4 :=
  calc w &&& 0x00000FFF#32 = 0#32
    _ ↔ fieldRc w = 0#4 ∧ fieldLow w = 0#8 := by
      rw [and_eq_zero_iff_fields]
      simp [fieldOp, fieldRd, fieldRa, fieldRb, fieldRc, fieldLow, byte_and_ones, reg_and_ones]
    _ ↔ w = formatR (fieldOp w) (fieldRd w) (fieldRa w) (fieldRb w) 0#4 := by
      rw [eq_iff_fieldsR w]
      simp

/-- Bits 15:0 are 0 in format `R` without `rb` and `rc`. -/
theorem mustBeZero_iff_formatR_rd_ra (w : Word) :
    w &&& 0x0000FFFF#32 = 0#32 ↔ w = formatR (fieldOp w) (fieldRd w) (fieldRa w) 0#4 0#4 :=
  calc w &&& 0x0000FFFF#32 = 0#32
    _ ↔ fieldRb w = 0#4 ∧ fieldRc w = 0#4 ∧ fieldLow w = 0#8 := by
      rw [and_eq_zero_iff_fields]
      simp [fieldOp, fieldRd, fieldRa, fieldRb, fieldRc, fieldLow, byte_and_ones, reg_and_ones]
    _ ↔ w = formatR (fieldOp w) (fieldRd w) (fieldRa w) 0#4 0#4 := by
      rw [eq_iff_fieldsR w]
      simp

/-- Bits 23:20 and 11:0 are 0 in format `R` without `rd` and `rc`. -/
theorem mustBeZero_iff_formatR_ra_rb (w : Word) :
    w &&& 0x00F00FFF#32 = 0#32 ↔ w = formatR (fieldOp w) 0#4 (fieldRa w) (fieldRb w) 0#4 :=
  calc w &&& 0x00F00FFF#32 = 0#32
    _ ↔ fieldRd w = 0#4 ∧ fieldRc w = 0#4 ∧ fieldLow w = 0#8 := by
      rw [and_eq_zero_iff_fields]
      simp [fieldOp, fieldRd, fieldRa, fieldRb, fieldRc, fieldLow, byte_and_ones, reg_and_ones]
    _ ↔ w = formatR (fieldOp w) 0#4 (fieldRa w) (fieldRb w) 0#4 := by
      rw [eq_iff_fieldsR w]
      simp

/-- Bits 23:20 and 15:0 are 0 in format `R` with `ra` alone. -/
theorem mustBeZero_iff_formatR_ra (w : Word) :
    w &&& 0x00F0FFFF#32 = 0#32 ↔ w = formatR (fieldOp w) 0#4 (fieldRa w) 0#4 0#4 :=
  calc w &&& 0x00F0FFFF#32 = 0#32
    _ ↔ fieldRd w = 0#4 ∧ fieldRb w = 0#4 ∧ fieldRc w = 0#4 ∧ fieldLow w = 0#8 := by
      rw [and_eq_zero_iff_fields]
      simp [fieldOp, fieldRd, fieldRa, fieldRb, fieldRc, fieldLow, byte_and_ones, reg_and_ones]
    _ ↔ w = formatR (fieldOp w) 0#4 (fieldRa w) 0#4 0#4 := by
      rw [eq_iff_fieldsR w]
      simp

/-- Bits 19:16 are 0 in format `I16` without `ra`. -/
theorem mustBeZero_iff_formatI16_rd (w : Word) :
    w &&& 0x000F0000#32 = 0#32 ↔ w = formatI16 (fieldOp w) (fieldRd w) 0#4 (fieldImm16 w) :=
  calc w &&& 0x000F0000#32 = 0#32
    _ ↔ fieldRa w = 0#4 := by
      rw [and_eq_zero_iff_fields]
      simp [fieldOp, fieldRd, fieldRa, fieldRb, fieldRc, fieldLow, reg_and_ones]
    _ ↔ w = formatI16 (fieldOp w) (fieldRd w) 0#4 (fieldImm16 w) := by
      rw [eq_iff_fieldsI16 w]
      simp

/-- Bits 23:20 are 0 in format `I16` without `rd`. -/
theorem mustBeZero_iff_formatI16_ra (w : Word) :
    w &&& 0x00F00000#32 = 0#32 ↔ w = formatI16 (fieldOp w) 0#4 (fieldRa w) (fieldImm16 w) :=
  calc w &&& 0x00F00000#32 = 0#32
    _ ↔ fieldRd w = 0#4 := by
      rw [and_eq_zero_iff_fields]
      simp [fieldOp, fieldRd, fieldRa, fieldRb, fieldRc, fieldLow, reg_and_ones]
    _ ↔ w = formatI16 (fieldOp w) 0#4 (fieldRa w) (fieldImm16 w) := by
      rw [eq_iff_fieldsI16 w]
      simp

/-! ### What the decoder answers for a word -/

theorem ifZero_eq_ok_iff {w mask : Word} {i j : Instr} :
    ifZero w mask i = .ok j ↔ w &&& mask = 0#32 ∧ i = j := by
  unfold ifZero
  split <;> simp [*]

theorem fieldOp_eq_ofNat {w : Word} {n : Nat} (h : (fieldOp w).toNat = n) :
    fieldOp w = BitVec.ofNat 8 n := by
  rw [← h, BitVec.ofNat_toNat, BitVec.setWidth_eq]

/-- A word that decodes is the encoding of its command: its must-be-zero bits are 0, so it has the
format of its row (spec/30_encoding.md rules R95, R98). -/
theorem encode_of_decodeCmd_eq_ok {w : Word} {i : Instr} (h : decodeCmd w = .ok i) :
    encode i = .cmd w := by
  unfold decodeCmd at h
  split at h
  case h_28 => cases h
  case h_3 hop =>
    cases h
    rw [encode, ← fieldOp_eq_ofNat hop, formatI20_fields]
  all_goals
    rename_i hop
    obtain ⟨hzero, rfl⟩ := ifZero_eq_ok_iff.1 h
    simp only [mustBeZero_iff_formatZ, mustBeZero_iff_formatR_rd_ra_rb_rc,
      mustBeZero_iff_formatR_rd_ra_rb, mustBeZero_iff_formatR_rd_ra, mustBeZero_iff_formatR_ra_rb,
      mustBeZero_iff_formatR_ra, mustBeZero_iff_formatI16_rd, mustBeZero_iff_formatI16_ra,
      fieldOp_eq_ofNat hop] at hzero
    exact congrArg Code.cmd hzero.symm

/-- The encoding of a command decodes to it: the word has the format of the command's row, and the
decoder reads back the fields put in (spec/30_encoding.md rules R97, R100). -/
theorem decodeCmd_of_encode_eq_cmd {w : Word} {i : Instr} (h : encode i = .cmd w) :
    decodeCmd w = .ok i := by
  cases i
  case rel | endMark | lit | abs | fill | labs => cases h
  all_goals cases h
  case sysNop | sysClrerr | bfSetkey | bfEncb | bfDecb | bfEnc | bfDec | bfClrkey | lcwDec => rfl
  case biLdi => simp [decodeCmd]
  case biMov | biShl1 | biShr1 =>
    simp [decodeCmd, ifZero_eq_ok_iff, mustBeZero_iff_formatR_rd_ra]
  case biLdbe | biLdle => simp [decodeCmd, ifZero_eq_ok_iff, mustBeZero_iff_formatI16_rd]
  case biStbe | biStle | biBit => simp [decodeCmd, ifZero_eq_ok_iff, mustBeZero_iff_formatI16_ra]
  case biCmp => simp [decodeCmd, ifZero_eq_ok_iff, mustBeZero_iff_formatR_ra_rb]
  case biAdd | biSub | biMull | biMulh =>
    simp [decodeCmd, ifZero_eq_ok_iff, mustBeZero_iff_formatR_rd_ra_rb]
  case biHsb | biTstz => simp [decodeCmd, ifZero_eq_ok_iff, mustBeZero_iff_formatR_ra]
  case modMul | modExp => simp [decodeCmd, ifZero_eq_ok_iff, mustBeZero_iff_formatR_rd_ra_rb_rc]

/-! ### The opcode map -/

/-- A row's match holds its opcode alone, and its mask covers the opcode (spec/30_encoding.md rule
R97). -/
theorem opmatch_and_mask_of_row :
    ∀ row ∈ opcodeMap, row.opmatch = formatZ (fieldOp row.opmatch) ∧ fieldOp row.mask = 0xFF#8 := by
  decide

/-- A word matches a row when it has the row's opcode and its must-be-zero bits are 0
(spec/30_encoding.md rules R95, R97). -/
theorem matches_row_iff {row : OpRow} (hrow : row ∈ opcodeMap) (w : Word) :
    w &&& row.mask = row.opmatch ↔
      fieldOp w = fieldOp row.opmatch ∧ w &&& (row.mask &&& 0x00FFFFFF#32) = 0#32 := by
  obtain ⟨hopmatch, hmask⟩ := opmatch_and_mask_of_row row hrow
  rw [hopmatch, formatZ_eq_formatR, eq_iff_fieldsR, and_eq_zero_iff_fields]
  simp only [fieldOp_formatR, fieldRd_formatR, fieldRa_formatR, fieldRb_formatR, fieldRc_formatR,
    fieldLow_formatR]
  simp only [fieldOp, fieldRd, fieldRa, fieldRb, fieldRc, fieldLow, BitVec.extractLsb'_and]
    at hmask ⊢
  simp [hmask, byte_and_ones, reg_and_ones]

/-- A word that decodes has the opcode of some row. -/
theorem exists_row_of_decodeCmd_eq_ok {w : Word} {i : Instr} (h : decodeCmd w = .ok i) :
    ∃ row ∈ opcodeMap, fieldOp w = fieldOp row.opmatch := by
  unfold decodeCmd at h
  split at h
  case h_28 => cases h
  all_goals
    rename_i hop
    rw [fieldOp_eq_ofNat hop]
    decide

/-- A word with the opcode of a row decodes to the row's command when the row's must-be-zero bits
are 0 (spec/30_encoding.md rules R95, R97). -/
theorem decodeCmd_of_row {w : Word} {row : OpRow} (hrow : row ∈ opcodeMap)
    (hop : fieldOp w = fieldOp row.opmatch) :
    ∃ i, decodeCmd w = ifZero w (row.mask &&& 0x00FFFFFF#32) i ∧ i.mnemonic = row.mnemonic := by
  simp only [opcodeMap, List.cons_append, List.nil_append, List.mem_cons, List.not_mem_nil,
    or_false] at hrow
  unfold decodeCmd
  rw [hop]
  rcases hrow with rfl | rfl | rfl | rfl | rfl | rfl | rfl | rfl | rfl | rfl | rfl | rfl | rfl |
    rfl | rfl | rfl | rfl | rfl | rfl | rfl | rfl | rfl | rfl | rfl | rfl | rfl | rfl
  -- `BI.LDI` has no must-be-zero bits, so its mask below the opcode is 0.
  case inr.inr.inl => exact ⟨_, (if_pos BitVec.and_zero).symm, rfl⟩
  all_goals exact ⟨_, rfl, rfl⟩

/-- Settles O3: both directions read the row with the word's opcode, where the word decodes when its
must-be-zero bits are 0, which is what matching the row adds to the opcode. -/
theorem legalWordsAreTheRowsOfTheOpcodeMap : Obligations.LegalWordsAreTheRowsOfTheOpcodeMap := by
  unfold Obligations.LegalWordsAreTheRowsOfTheOpcodeMap
  refine fun w => ⟨fun i hi => ?_, fun row hrow hmatch => ?_⟩
  · obtain ⟨row, hrow, hop⟩ := exists_row_of_decodeCmd_eq_ok hi
    obtain ⟨j, hj, hname⟩ := decodeCmd_of_row hrow hop
    obtain ⟨hzero, rfl⟩ := ifZero_eq_ok_iff.1 (hj.symm.trans hi)
    exact ⟨row, hrow, hname.symm, (matches_row_iff hrow w).2 ⟨hop, hzero⟩⟩
  · obtain ⟨hop, hzero⟩ := (matches_row_iff hrow w).1 hmatch
    obtain ⟨j, hj, hname⟩ := decodeCmd_of_row hrow hop
    exact ⟨j, hj.trans (ifZero_eq_ok_iff.2 ⟨hzero, rfl⟩), hname⟩

end Sys2Proof.Proofs
end

