-- ==== Sys2Proof/Proofs/StreamBytes.lean ====
section
/-! PROOF. Stream bytes (spec/30_encoding.md rules R101 to R107): what a first byte selects, by the
range its value is in, and the bytes of a stream command read back. -/

namespace Sys2Proof.Proofs

open Sys2Proof Sys2Proof.Laws

/-! ### The first byte, by the range of its value -/

/-- The ranges of R101. -/
theorem byte_cases (c : Byte) :
    c.toNat < 0x80 ∨ c = 0x80#8 ∨ (0x81 ≤ c.toNat ∧ c.toNat ≤ 0xBF) ∨
      (0xC0 ≤ c.toNat ∧ c.toNat ≤ 0xFD) ∨ c = 0xFE#8 ∨ c = 0xFF#8 := by
  bv_omega

theorem toNat_bits (c : Byte) (start len : Nat) :
    (c.extractLsb' start len).toNat = c.toNat / 2 ^ start % 2 ^ len := by
  rw [BitVec.extractLsb'_toNat, Nat.shiftRight_eq_div_pow]

theorem bit7_eq_zero_iff (c : Byte) : c.extractLsb' 7 1 = 0#1 ↔ c.toNat < 0x80 := by
  rw [← BitVec.toNat_inj, toNat_bits, BitVec.toNat_ofNat]
  omega

theorem bit6_eq_zero_iff (c : Byte) : c.extractLsb' 6 1 = 0#1 ↔ c.toNat / 64 % 2 = 0 := by
  rw [← BitVec.toNat_inj, toNat_bits, BitVec.toNat_ofNat]
  omega

/-- `00` to `7F` is `REL`. -/
theorem decodeStreamByte_rel {c : Byte} (h : c.toNat < 0x80) :
    decodeStreamByte c = .rel (c.extractLsb' 4 3) (c.extractLsb' 0 4) := by
  rw [decodeStreamByte, if_pos ((bit7_eq_zero_iff c).2 h)]

/-- `81` to `BF` is `LIT`. -/
theorem decodeStreamByte_lit {c : Byte} (h : 0x81 ≤ c.toNat ∧ c.toNat ≤ 0xBF) :
    decodeStreamByte c = .lit (c.extractLsb' 0 6) := by
  rw [decodeStreamByte, if_neg (by rw [bit7_eq_zero_iff]; omega), if_neg (by bv_omega),
    if_neg (by bv_omega), if_neg (by bv_omega), if_pos (by rw [bit6_eq_zero_iff]; omega)]

/-- `C0` to `FD` is `ABS`. -/
theorem decodeStreamByte_abs {c : Byte} (h : 0xC0 ≤ c.toNat ∧ c.toNat ≤ 0xFD) :
    decodeStreamByte c = .abs (c.extractLsb' 0 6) := by
  rw [decodeStreamByte, if_neg (by rw [bit7_eq_zero_iff]; omega), if_neg (by bv_omega),
    if_neg (by bv_omega), if_neg (by bv_omega), if_neg (by rw [bit6_eq_zero_iff]; omega)]

/-- Bytes that follow the first byte of a stream command (spec/30_encoding.md rule R104). -/
def operandBytes : Instr → Nat
  | .rel _ _ => 1
  | .lit n => n.toNat
  | .abs _ => 2
  | .fill => 3
  | .labs => 4
  | _ => 0

/-- A stream command's length is its first byte and the operand bytes its instruction names
(spec/30_encoding.md rule R104). -/
theorem streamLength_eq (c : Byte) : streamLength c = 1 + operandBytes (decodeStreamByte c) := by
  unfold streamLength
  obtain h | rfl | h | h | rfl | rfl := byte_cases c
  · rw [decodeStreamByte_rel h, if_pos h, operandBytes]
  · rfl
  · have hlow : (c &&& 0x3F#8).toNat = c.toNat % 2 ^ 6 := by
      rw [BitVec.toNat_and]
      exact Nat.and_two_pow_sub_one_eq_mod c.toNat 6
    rw [decodeStreamByte_lit h, operandBytes, toNat_bits, hlow, if_neg (by omega),
      if_neg (by omega), if_pos (by omega), pow_zero, Nat.div_one]
  · rw [decodeStreamByte_abs h, operandBytes, if_neg (by omega), if_neg (by omega),
      if_neg (by omega), if_pos (by omega)]
  · rfl
  · rfl

/-- Settles O5: the instruction of each range, and from it the length. -/
theorem firstByteSelectsTheStreamCommand : Obligations.FirstByteSelectsTheStreamCommand := by
  unfold Obligations.FirstByteSelectsTheStreamCommand
  intro c
  rw [streamLength_eq]
  refine ⟨fun h => ?rel, fun h => ?endMark, fun h => ?lit, fun h => ?abs, fun h => ?fill,
    fun h => ?labs⟩
  case rel => rw [decodeStreamByte_rel (by omega)]; exact ⟨rfl, rfl⟩
  case lit =>
    rw [decodeStreamByte_lit h, operandBytes, toNat_bits, pow_zero, Nat.div_one]
    exact ⟨rfl, rfl⟩
  case abs => rw [decodeStreamByte_abs h]; exact ⟨rfl, rfl⟩
  case endMark => obtain rfl : c = 0x80#8 := BitVec.eq_of_toNat_eq h; exact ⟨rfl, rfl⟩
  case fill => obtain rfl : c = 0xFE#8 := BitVec.eq_of_toNat_eq h; exact ⟨rfl, rfl⟩
  case labs => obtain rfl : c = 0xFF#8 := BitVec.eq_of_toNat_eq h; exact ⟨rfl, rfl⟩

/-! ### The first byte and its instruction determine each other -/

/-- The byte `0cccdddd`. -/
theorem toNat_relByte (ccc : BitVec 3) (dddd : BitVec 4) :
    (ccc.setWidth 8 <<< 4 ||| dddd.setWidth 8 : Byte).toNat = 16 * ccc.toNat + dddd.toNat := by
  have hccc := ccc.isLt
  rw [BitVec.toNat_or, BitVec.toNat_shiftLeft, BitVec.toNat_setWidth_of_le (by decide),
    BitVec.toNat_setWidth_of_le (by decide), Nat.shiftLeft_eq, Nat.mod_eq_of_lt (by omega),
    Nat.mul_comm, ← Nat.two_pow_add_eq_or_of_lt dddd.isLt]

/-- A byte of two leading bits, worth `top`, and the six bits of `n`. -/
theorem toNat_sixBitsByte {top : Nat} (htop : top < 4) (n : BitVec 6) :
    (BitVec.ofNat 8 (64 * top) ||| n.setWidth 8).toNat = 64 * top + n.toNat := by
  rw [BitVec.toNat_or, BitVec.toNat_ofNat, Nat.mod_eq_of_lt (by omega),
    BitVec.toNat_setWidth_of_le (by decide)]
  exact (Nat.two_pow_add_eq_or_of_lt (i := 6) n.isLt top).symm

/-- The byte `10nnnnnn`. -/
theorem toNat_litByte (n : BitVec 6) : (0x80#8 ||| n.setWidth 8).toNat = 128 + n.toNat :=
  toNat_sixBitsByte (top := 2) (by decide) n

/-- The byte `11nnnnnn`. -/
theorem toNat_absByte (n : BitVec 6) : (0xC0#8 ||| n.setWidth 8).toNat = 192 + n.toNat :=
  toNat_sixBitsByte (top := 3) (by decide) n

theorem wf_lit_iff (n : BitVec 6) : (Instr.lit n).wf = true ↔ 1 ≤ n.toNat := by
  rw [Instr.wf, bne_iff_ne]
  bv_omega

theorem wf_abs_iff (n : BitVec 6) : (Instr.abs n).wf = true ↔ n.toNat ≤ 61 := by
  have hn := n.isLt
  rw [Instr.wf, Bool.and_eq_true, bne_iff_ne, bne_iff_ne]
  bv_omega

/-- A first byte is the encoding of the well-formed instruction it selects (spec/30_encoding.md
rules R101, R103). -/
theorem wf_and_encode_decodeStreamByte (c : Byte) :
    (decodeStreamByte c).wf = true ∧ encode (decodeStreamByte c) = .stream c := by
  obtain h | rfl | h | h | rfl | rfl := byte_cases c
  · rw [decodeStreamByte_rel h]
    refine ⟨rfl, congrArg Code.stream (BitVec.eq_of_toNat_eq ?_)⟩
    rw [toNat_relByte, toNat_bits, toNat_bits]
    omega
  · exact ⟨rfl, rfl⟩
  · rw [decodeStreamByte_lit h, wf_lit_iff, toNat_bits]
    refine ⟨by omega, congrArg Code.stream (BitVec.eq_of_toNat_eq ?_)⟩
    rw [toNat_litByte, toNat_bits]
    omega
  · rw [decodeStreamByte_abs h, wf_abs_iff, toNat_bits]
    refine ⟨by omega, congrArg Code.stream (BitVec.eq_of_toNat_eq ?_)⟩
    rw [toNat_absByte, toNat_bits]
    omega
  · exact ⟨rfl, rfl⟩
  · exact ⟨rfl, rfl⟩

/-- The first byte of a well-formed instruction selects it (spec/30_encoding.md rule R101). -/
theorem decodeStreamByte_of_encode_eq_stream {c : Byte} {i : Instr} (hwf : i.wf = true)
    (h : encode i = .stream c) : decodeStreamByte c = i := by
  cases i
  case rel ccc dddd =>
    cases h
    have hbyte := toNat_relByte ccc dddd
    rw [decodeStreamByte_rel (by omega), Instr.rel.injEq, ← BitVec.toNat_inj, ← BitVec.toNat_inj,
      toNat_bits, toNat_bits, hbyte]
    omega
  case lit n =>
    cases h
    have hbyte := toNat_litByte n
    have hn := (wf_lit_iff n).1 hwf
    rw [decodeStreamByte_lit (by omega), Instr.lit.injEq, ← BitVec.toNat_inj, toNat_bits, hbyte]
    omega
  case abs n =>
    cases h
    have hbyte := toNat_absByte n
    have hn := (wf_abs_iff n).1 hwf
    rw [decodeStreamByte_abs (by omega), Instr.abs.injEq, ← BitVec.toNat_inj, toNat_bits, hbyte]
    omega
  all_goals cases h
  case endMark | fill | labs => rfl

/-! ### Parsing what a stream command is written as -/

/-! Each instruction of a first byte, with its operand bytes after it (spec/30_encoding.md rules
R102, R104). -/

theorem parseStream_rel {c x : Byte} {ccc : BitVec 3} {dddd : BitVec 4} {rest : List Byte}
    (h : decodeStreamByte c = .rel ccc dddd) :
    parseStream (c :: x :: rest) = some (.rel (relCount ccc) (relDistance dddd x), rest) := by
  simp [parseStream, streamLength_eq, operandBytes, h]

theorem parseStream_lit {c : Byte} {n : BitVec 6} {data rest : List Byte}
    (h : decodeStreamByte c = .lit n) (hlen : data.length = n.toNat) :
    parseStream (c :: data ++ rest) = some (.lit data, rest) := by
  simp [parseStream, streamLength_eq, operandBytes, litCount, h, ← hlen]
  omega

theorem parseStream_abs {c x y : Byte} {n : BitVec 6} {rest : List Byte}
    (h : decodeStreamByte c = .abs n) :
    parseStream (c :: x :: y :: rest) = some (.abs (absCount n) (le16 x y), rest) := by
  simp [parseStream, streamLength_eq, operandBytes, h]

theorem parseStream_endMark (rest : List Byte) :
    parseStream (0x80#8 :: rest) = some (.endMark, rest) := by
  have h : decodeStreamByte 0x80#8 = .endMark := rfl
  simp [parseStream, streamLength_eq, operandBytes, h]

theorem parseStream_fill (x y v : Byte) (rest : List Byte) :
    parseStream (0xFE#8 :: x :: y :: v :: rest) = some (.fill (le16 x y) v, rest) := by
  have h : decodeStreamByte 0xFE#8 = .fill := rfl
  simp [parseStream, streamLength_eq, operandBytes, h]

theorem parseStream_labs (x y u v : Byte) (rest : List Byte) :
    parseStream (0xFF#8 :: x :: y :: u :: v :: rest) =
      some (.labs (le16 x y) (le16 u v), rest) := by
  have h : decodeStreamByte 0xFF#8 = .labs := rfl
  simp [parseStream, streamLength_eq, operandBytes, h]

/-! An operand is read back from the field or the bytes it was cut into (spec/30_encoding.md rules
R102, R107). -/

theorem relCount_ofNat {c : Nat} (hmin : 3 ≤ c) (hmax : c ≤ 10) :
    relCount (BitVec.ofNat 3 (c - 3)) = c := by
  rw [relCount, BitVec.toNat_ofNat]
  omega

theorem relDistance_ofNat {d : Nat} (h : d ≤ 4095) :
    relDistance (BitVec.ofNat 4 (d >>> 8)) (BitVec.ofNat 8 d) = d := by
  rw [relDistance, BitVec.toNat_ofNat, BitVec.toNat_ofNat, Nat.shiftRight_eq_div_pow]
  omega

theorem absCount_ofNat {c : Nat} (hmin : 3 ≤ c) (hmax : c ≤ 64) :
    absCount (BitVec.ofNat 6 (c - 3)) = c := by
  rw [absCount, BitVec.toNat_ofNat]
  omega

theorem le16_ofNat {n : Nat} (h : n ≤ 65535) :
    le16 (BitVec.ofNat 8 n) (BitVec.ofNat 8 (n >>> 8)) = n := by
  rw [le16, BitVec.toNat_ofNat, BitVec.toNat_ofNat, Nat.shiftRight_eq_div_pow]
  omega

theorem ofNat_shiftLeft (x k : Nat) : BitVec.ofNat 8 (x <<< k) = BitVec.ofNat 8 x <<< k := by
  rw [← BitVec.toNat_inj]
  simp [Nat.shiftLeft_eq]

/-! The first byte a stream command is written with selects the instruction that carries its fields
(spec/30_encoding.md rules R101, R107). -/

theorem decodeStreamByte_relByte {c d : Nat} (hc : c ≤ 10) (hd : d ≤ 4095) :
    decodeStreamByte (BitVec.ofNat 8 (((c - 3) <<< 4) ||| (d >>> 8))) =
      .rel (BitVec.ofNat 3 (c - 3)) (BitVec.ofNat 4 (d >>> 8)) := by
  have hhigh : d >>> 8 < 2 ^ 4 := by
    rw [Nat.shiftRight_eq_div_pow]
    omega
  refine decodeStreamByte_of_encode_eq_stream rfl (congrArg Code.stream ?_)
  rw [BitVec.setWidth_ofNat_of_le_of_lt (by decide) (by omega),
    BitVec.setWidth_ofNat_of_le_of_lt (by decide) hhigh, BitVec.ofNat_or, ofNat_shiftLeft]

theorem decodeStreamByte_litByte {n : Nat} (hmin : 1 ≤ n) (hmax : n ≤ 63) :
    decodeStreamByte (BitVec.ofNat 8 (0x80 ||| n)) = .lit (BitVec.ofNat 6 n) := by
  have hwf : (Instr.lit (BitVec.ofNat 6 n)).wf = true := by
    rw [wf_lit_iff, BitVec.toNat_ofNat]
    omega
  refine decodeStreamByte_of_encode_eq_stream hwf (congrArg Code.stream ?_)
  rw [BitVec.setWidth_ofNat_of_le_of_lt (by decide) (by omega), BitVec.ofNat_or]

theorem decodeStreamByte_absByte {c : Nat} (hmin : 3 ≤ c) (hmax : c ≤ 64) :
    decodeStreamByte (BitVec.ofNat 8 (0xC0 ||| (c - 3))) = .abs (BitVec.ofNat 6 (c - 3)) := by
  have hwf : (Instr.abs (BitVec.ofNat 6 (c - 3))).wf = true := by
    rw [wf_abs_iff, BitVec.toNat_ofNat]
    omega
  refine decodeStreamByte_of_encode_eq_stream hwf (congrArg Code.stream ?_)
  rw [BitVec.setWidth_ofNat_of_le_of_lt (by decide) (by omega), BitVec.ofNat_or]

/-- Settles O4: the first byte selects the command, and its operands are read back from the bytes
they were cut into. -/
theorem streamCommandsParseBack : Obligations.StreamCommandsParseBack := by
  unfold Obligations.StreamCommandsParseBack
  intro c rest hwf
  cases c
  case rel count distance =>
    simp only [StreamCommand.wf, Bool.and_eq_true, decide_eq_true_eq] at hwf
    obtain ⟨⟨hmin, hmax⟩, hdistance⟩ := hwf
    simp only [StreamCommand.encode, List.cons_append, List.nil_append,
      parseStream_rel (decodeStreamByte_relByte hmax hdistance), relCount_ofNat hmin hmax,
      relDistance_ofNat hdistance]
  case endMark => exact parseStream_endMark rest
  case lit data =>
    simp only [StreamCommand.wf, Bool.and_eq_true, decide_eq_true_eq] at hwf
    obtain ⟨hmin, hmax⟩ := hwf
    have hlen : data.length = (BitVec.ofNat 6 data.length).toNat := by
      rw [BitVec.toNat_ofNat, Nat.mod_eq_of_lt (by omega)]
    exact parseStream_lit (decodeStreamByte_litByte hmin hmax) hlen
  case abs count pos =>
    simp only [StreamCommand.wf, Bool.and_eq_true, decide_eq_true_eq] at hwf
    obtain ⟨⟨hmin, hmax⟩, hpos⟩ := hwf
    simp only [StreamCommand.encode, List.cons_append, List.nil_append,
      parseStream_abs (decodeStreamByte_absByte hmin hmax), absCount_ofNat hmin hmax,
      le16_ofNat hpos]
  case fill count value =>
    have hcount := of_decide_eq_true hwf
    simp only [StreamCommand.encode, List.cons_append, List.nil_append, parseStream_fill,
      le16_ofNat hcount]
  case labs count pos =>
    simp only [StreamCommand.wf, Bool.and_eq_true, decide_eq_true_eq] at hwf
    obtain ⟨hcount, hpos⟩ := hwf
    simp only [StreamCommand.encode, List.cons_append, List.nil_append, parseStream_labs,
      le16_ofNat hcount, le16_ofNat hpos]

end Sys2Proof.Proofs
end

