-- ==== Sys2Proof/Proofs/RoundTrip.lean ====
section
/-! PROOF. Decoding and encoding undo each other, over command words and stream bytes together
(spec/30_encoding.md rules R95 to R103). -/

namespace Sys2Proof.Proofs

open Sys2Proof Sys2Proof.Laws

/-- What a command word decodes to is well-formed: every field value is legal (spec/30_encoding.md
rules R92, R96). -/
theorem wf_of_encode_eq_cmd {i : Instr} {w : Word} (h : encode i = .cmd w) : i.wf = true := by
  cases i
  case lit | abs => cases h
  all_goals rfl

/-- Settles O1: by the kind of code the instruction is given, a word or a first byte. -/
theorem decodeOfEncodeIsTheInstruction : Obligations.DecodeOfEncodeIsTheInstruction := by
  unfold Obligations.DecodeOfEncodeIsTheInstruction
  intro i hwf
  cases hcode : encode i with
  | cmd w => exact decodeCmd_of_encode_eq_cmd hcode
  | stream c => exact congrArg Except.ok (decodeStreamByte_of_encode_eq_stream hwf hcode)

/-- Settles O2: by the kind of code that decodes. -/
theorem encodeOfDecodeIsTheCode : Obligations.EncodeOfDecodeIsTheCode := by
  unfold Obligations.EncodeOfDecodeIsTheCode
  intro code i h
  cases code with
  | cmd w =>
    have hcode := encode_of_decodeCmd_eq_ok h
    exact ⟨wf_of_encode_eq_cmd hcode, hcode⟩
  | stream c =>
    obtain rfl : decodeStreamByte c = i := Except.ok.inj h
    exact wf_and_encode_decodeStreamByte c

/-- Settles O6: each code is what the encoder gives for its instruction, so it decodes to it. -/
theorem sampleCodesDecode : Obligations.SampleCodesDecode :=
  ⟨decodeOfEncodeIsTheInstruction (.modExp 3#4 0#4 1#4 2#4) rfl,
    decodeOfEncodeIsTheInstruction (.biLdi 1#4 0x10001#20) rfl,
    decodeOfEncodeIsTheInstruction (.biStle 3#4 38#16) rfl,
    decodeOfEncodeIsTheInstruction .sysClrerr rfl,
    decodeOfEncodeIsTheInstruction .bfEnc rfl,
    decodeOfEncodeIsTheInstruction (.rel 7#3 15#4) rfl,
    decodeOfEncodeIsTheInstruction (.lit 63#6) rfl⟩

end Sys2Proof.Proofs
end

