-- ==== Sys2Proof/Proofs/BigIntRegisters.lean ====
section
/-! PROOF. The BigInt commands that work on registers alone (spec/40_bigint.md rules R120, R121,
R126 to R136): what their results and flags are as numbers, then the commands. -/

namespace Sys2Proof.Proofs

open Sys2Proof Sys2Proof.Machine Sys2Proof.Laws

/-! ### Results as numbers, at every width -/

theorem mod_two_pow_lt (n w : Nat) : n % 2 ^ w < 2 ^ w := Nat.mod_lt _ (Nat.two_pow_pos w)

theorem add_eq_ofNat_mod {w : Nat} (a b : BitVec w) :
    a + b = BitVec.ofNat w ((a.toNat + b.toNat) % 2 ^ w) :=
  BitVec.eq_of_toNat_eq (by rw [BitVec.toNat_add, BitVec.toNat_ofNat, Nat.mod_mod])

/-- A difference wraps exactly where it borrows. -/
theorem sub_eq_ofNat_of_borrow {w : Nat} (a b : BitVec w) :
    a - b = BitVec.ofNat w
      (if b.toNat ≤ a.toNat then a.toNat - b.toNat else a.toNat + 2 ^ w - b.toNat) := by
  have hb := b.isLt
  apply BitVec.eq_of_toNat_eq
  rw [BitVec.toNat_sub, BitVec.toNat_ofNat]
  split
  case isTrue hle =>
    have hwrap : 2 ^ w - b.toNat + a.toNat = a.toNat - b.toNat + 2 ^ w := by omega
    rw [hwrap, Nat.add_mod_right]
  case isFalse hlt =>
    have hborrow : 2 ^ w - b.toNat + a.toNat = a.toNat + 2 ^ w - b.toNat := by omega
    rw [hborrow]

theorem shiftLeft_one_eq_ofNat_mod {w : Nat} (a : BitVec w) :
    a <<< 1 = BitVec.ofNat w ((2 * a.toNat) % 2 ^ w) :=
  BitVec.eq_of_toNat_eq (by
    rw [BitVec.toNat_shiftLeft, BitVec.toNat_ofNat, Nat.mod_mod, Nat.shiftLeft_eq, Nat.mul_comm,
      pow_one])

/-- Half of a value fits where the value does. -/
theorem half_lt_two_pow {w : Nat} (a : BitVec w) : a.toNat / 2 < 2 ^ w :=
  Nat.lt_of_le_of_lt (Nat.div_le_self ..) a.isLt

theorem shiftRight_one_eq_ofNat_div {w : Nat} (a : BitVec w) :
    a >>> 1 = BitVec.ofNat w (a.toNat / 2) :=
  BitVec.eq_of_toNat_eq (by
    rw [BitVec.toNat_ushiftRight, BitVec.toNat_ofNat, Nat.shiftRight_eq_div_pow, pow_one,
      Nat.mod_eq_of_lt (half_lt_two_pow a)])

theorem ofNat_mod_two_pow (w n : Nat) : BitVec.ofNat w (n % 2 ^ w) = BitVec.ofNat w n :=
  BitVec.eq_of_toNat_eq (by rw [BitVec.toNat_ofNat, BitVec.toNat_ofNat, Nat.mod_mod])

/-- The two halves of a double-width product, each stored in a word, make the product again. -/
theorem mul_eq_halves {w : Nat} (a b : BitVec w) :
    a.toNat * b.toNat = (BitVec.ofNat w (a.toNat * b.toNat / 2 ^ w)).toNat * 2 ^ w
      + (BitVec.ofNat w (a.toNat * b.toNat % 2 ^ w)).toNat := by
  have hhigh : a.toNat * b.toNat / 2 ^ w < 2 ^ w :=
    (Nat.div_lt_iff_lt_mul (Nat.two_pow_pos w)).mpr (Nat.mul_lt_mul'' a.isLt b.isLt)
  rw [BitVec.toNat_ofNat, BitVec.toNat_ofNat, Nat.mod_mod, Nat.mod_eq_of_lt hhigh, Nat.div_add_mod']

/-- Two numbers of `w` bits carry at most once. -/
theorem carry_iff_div_eq_one {w : Nat} (a b : BitVec w) :
    2 ^ w ≤ a.toNat + b.toNat ↔ (a.toNat + b.toNat) / 2 ^ w = 1 := by
  have ha := a.isLt
  have hb := b.isLt
  rw [Nat.div_eq_iff (Nat.two_pow_pos w)]
  omega

theorem sub_eq_zero_iff_toNat_eq {w : Nat} (a b : BitVec w) : a - b = 0#w ↔ a.toNat = b.toNat := by
  rw [BitVec.sub_eq_iff_eq_add, BitVec.zero_add, BitVec.toNat_eq]

theorem eq_zero_iff_toNat_eq_zero {w : Nat} (a : BitVec w) : a = 0#w ↔ a.toNat = 0 := by
  rw [BitVec.toNat_eq, BitVec.toNat_ofNat, Nat.zero_mod]

/-- A number that fits is stored as zero only where it is zero. -/
theorem ofNat_eq_zero_iff {w n : Nat} (h : n < 2 ^ w) : BitVec.ofNat w n = 0#w ↔ n = 0 := by
  rw [eq_zero_iff_toNat_eq_zero, BitVec.toNat_ofNat, Nat.mod_eq_of_lt h]

/-- A set bit with no set bit above it has the logarithm as its index. -/
theorem log2_eq_of_testBit {n i : Nat} (hset : n.testBit i = true)
    (habove : ∀ j, i < j → n.testBit j = false) : n.log2 = i := by
  have hge := Nat.ge_two_pow_of_testBit hset
  have hne : n ≠ 0 := Nat.ne_of_gt (Nat.lt_of_lt_of_le (Nat.two_pow_pos i) hge)
  exact (Nat.log2_eq_iff hne).mpr ⟨hge, Nat.lt_pow_two_of_testBit n habove⟩

/-! ### Flags and one-bit results as conditions on numbers -/

theorem eqOf_eq_decide (a b : Big) : eqOf a b = decide (a.toNat = b.toNat) := by
  rw [eqOf, Bool.beq_eq_decide_eq, decide_eq_decide, BitVec.toNat_eq]

theorem zeroOf_eq_decide (v : Big) : zeroOf v = decide (v.toNat = 0) := by
  rw [zeroOf, Bool.beq_eq_decide_eq, decide_eq_decide, eq_zero_iff_toNat_eq_zero]

/-- `Z` of a result given as a number that fits. -/
theorem zeroOf_ofNat {n : Nat} (h : n < 2 ^ 320) :
    zeroOf (BitVec.ofNat 320 n) = decide (n = 0) := by
  rw [zeroOf, Bool.beq_eq_decide_eq, decide_eq_decide, ofNat_eq_zero_iff h]

/-- `Z` of a difference is the equality of the operands (spec/40_bigint.md rule R128). -/
theorem zeroOf_sub (a b : Big) : zeroOf (a - b) = decide (a.toNat = b.toNat) := by
  rw [zeroOf, Bool.beq_eq_decide_eq, decide_eq_decide, sub_eq_zero_iff_toNat_eq]

theorem carryOfAdd_eq_decide (a b : Big) :
    carryOfAdd a b = decide ((a.toNat + b.toNat) / 2 ^ 320 = 1) :=
  decide_eq_decide.mpr (carry_iff_div_eq_one a b)

theorem bitWord_decide (p : Prop) [Decidable p] :
    bitWord (decide p) = if p then 1#32 else 0#32 := by
  simp only [bitWord, decide_eq_true_eq]

/-- The bit `BI.BIT` tests: index `idx` of a value that has 320 bits (spec/40_bigint.md rule
R131). -/
theorem bit_eq_decide (a : Big) (idx : Nat) :
    (if idx < 320 then a.getLsbD idx else false) =
      decide (idx < 320 ∧ a.toNat.testBit idx = true) := by
  split
  case isTrue h => simp only [h, true_and, BitVec.getLsbD, Bool.decide_eq_true]
  case isFalse h => simp only [h, false_and, decide_false]

/-! ### The commands that write a register -/

/-- Settles O18. -/
theorem ldiAndMovWriteTheRegister : Obligations.LdiAndMovWriteTheRegister := by
  unfold Obligations.LdiAndMovWriteTheRegister
  refine ⟨fun rd ra imm s => ⟨rfl, ?ldi, rfl, rfl⟩, rfl, rfl, fun r q v s => ⟨?read, rfl⟩⟩
  case ldi =>
    rw [BitVec.ofNat_toNat]
    rfl
  case read => simp only [getB_setB, eq_comm]

/-- Settles O20: the sum and its carry as numbers. -/
theorem addWrapsAndReportsTheCarry : Obligations.AddWrapsAndReportsTheCarry := by
  unfold Obligations.AddWrapsAndReportsTheCarry
  refine ⟨fun rd ra rb s => ⟨rfl, ?_⟩, rfl⟩
  rw [← carryOfAdd_eq_decide, ← zeroOf_ofNat (mod_two_pow_lt _ 320),
    ← add_eq_ofNat_mod]
  rfl

/-- Settles O21: the difference and its zero as numbers; the borrow is the model's own condition. -/
theorem subWrapsAndReportsTheBorrow : Obligations.SubWrapsAndReportsTheBorrow := by
  unfold Obligations.SubWrapsAndReportsTheBorrow
  refine ⟨fun rd ra rb s => ⟨rfl, ?_⟩, rfl⟩
  rw [← sub_eq_ofNat_of_borrow, ← zeroOf_sub]
  rfl

/-- Settles O22: the shifted values as numbers; the carries are the model's own bits. -/
theorem shiftsMoveOneBitIntoTheCarry : Obligations.ShiftsMoveOneBitIntoTheCarry := by
  unfold Obligations.ShiftsMoveOneBitIntoTheCarry
  refine ⟨fun rd ra s => ⟨rfl, ?shl, rfl, ?shr⟩, rfl, rfl⟩
  case shl =>
    rw [← zeroOf_ofNat (mod_two_pow_lt _ 320), ← shiftLeft_one_eq_ofNat_mod]
    rfl
  case shr =>
    rw [← zeroOf_ofNat (half_lt_two_pow _), ← shiftRight_one_eq_ofNat_div]
    rfl

/-- Settles O26. -/
theorem multipliesGiveTheTwoHalves : Obligations.MultipliesGiveTheTwoHalves := by
  unfold Obligations.MultipliesGiveTheTwoHalves
  refine ⟨fun rd ra rb s => ⟨rfl, ?low, rfl, ?high⟩, rfl, rfl⟩
  case low =>
    rw [ofNat_mod_two_pow]
    rfl
  case high =>
    rw [← Nat.shiftRight_eq_div_pow]
    rfl

/-- Settles O27: the two commands leave the halves, and the halves make the product. -/
theorem halvesMakeTheExactProduct : Obligations.HalvesMakeTheExactProduct := by
  unfold Obligations.HalvesMakeTheExactProduct
  intro rd ra rb s
  obtain ⟨-, hlow, -, hhigh⟩ := multipliesGiveTheTwoHalves.1 rd ra rb s
  refine ⟨_, _, hlow, hhigh, ?_⟩
  change _ = ((s.setB rd _).getB rd).toNat * 2 ^ 320 + ((s.setB rd _).getB rd).toNat
  rw [getB_setB, getB_setB, if_pos rfl, if_pos rfl]
  exact mul_eq_halves ..

/-! ### The commands that report -/

/-- Settles O19. -/
theorem cmpReportsTheUnsignedOrder : Obligations.CmpReportsTheUnsignedOrder := by
  unfold Obligations.CmpReportsTheUnsignedOrder
  refine ⟨fun ra rb s => ⟨rfl, ?_⟩, rfl⟩
  rw [← eqOf_eq_decide]
  rfl

/-- Settles O23. -/
theorem bitTestReadsTheBit : Obligations.BitTestReadsTheBit := by
  unfold Obligations.BitTestReadsTheBit
  refine ⟨fun ra idx s => ⟨rfl, ?_⟩, rfl⟩
  rw [← bitWord_decide, ← bit_eq_decide]
  rfl

/-- Settles O25. -/
theorem tstzReportsZero : Obligations.TstzReportsZero := by
  unfold Obligations.TstzReportsZero
  refine ⟨fun ra s => ⟨rfl, ?_⟩, rfl⟩
  rw [← bitWord_decide, ← zeroOf_eq_decide]
  rfl

/-- What `BI.HSB` reports (spec/40_bigint.md rule R132). -/
theorem exec_biHsb (ra : Reg) (s : State) :
    exec (.biHsb ra) s = .next (s.setResult
      (if s.getB ra = 0#320 then 0xFFFFFFFF#32
       else BitVec.ofNat 32 (s.getB ra).toNat.log2)).succeed :=
  rfl

/-- Settles O24: the value is 0, or its logarithm is the index of its highest set bit. -/
theorem hsbIsTheLargestSetIndex : Obligations.HsbIsTheLargestSetIndex := by
  unfold Obligations.HsbIsTheLargestSetIndex
  refine ⟨fun ra s => ⟨rfl, fun hzero => ?zero, fun i hset habove => ⟨?bound, ?index⟩⟩, rfl⟩
  case zero =>
    rw [exec_biHsb, if_pos ((eq_zero_iff_toNat_eq_zero _).mpr hzero)]
    rfl
  case bound => exact Nat.le_of_lt_succ (BitVec.lt_of_getLsbD (x := s.getB ra) hset)
  case index =>
    have hne : s.getB ra ≠ 0#320 := by
      intro hzero
      rw [(eq_zero_iff_toNat_eq_zero _).mp hzero, Nat.zero_testBit] at hset
      exact absurd hset Bool.false_ne_true
    rw [exec_biHsb, if_neg hne, log2_eq_of_testBit hset habove]
    rfl

end Sys2Proof.Proofs
end

