-- ==== Sys2Proof/Proofs/BigIntMemory.lean ====
section
/-! PROOF. The BigInt commands that load and store (spec/40_bigint.md rules R122 to R125, R137):
byte images as sums and digits, the checks of a region in their order, then the commands. -/

namespace Sys2Proof.Proofs

open Sys2Proof Sys2Proof.Machine Sys2Proof.Laws

/-! ### Byte images -/

/-- `FromLE` weighs byte `k` with `256 ^ k` (spec/20_memory.md rule R62). -/
theorem fromLE_eq_sum (bytes : List Byte) :
    fromLE bytes = ∑ k ∈ Finset.range bytes.length, (bytes.getD k 0#8).toNat * 256 ^ k := by
  induction bytes with
  | nil => rfl
  | cons v rest ih =>
    rw [List.length_cons, Finset.sum_range_succ', fromLE, ih, Finset.mul_sum, Nat.add_comm]
    simp only [List.getD_cons_succ, List.getD_cons_zero, pow_succ', pow_zero, Nat.mul_one,
      Nat.mul_left_comm]

/-- `FromBE` weighs byte `k` of `n` with `256 ^ (n - 1 - k)` (spec/20_memory.md rule R62). -/
theorem fromBE_eq_sum (bytes : List Byte) :
    fromBE bytes = ∑ k ∈ Finset.range bytes.length,
      (bytes.getD k 0#8).toNat * 256 ^ (bytes.length - 1 - k) := by
  rw [fromBE, fromLE_eq_sum, List.length_reverse, ← Finset.sum_range_reflect]
  refine Finset.sum_congr rfl fun k hk => ?_
  have hlt := Finset.mem_range.mp hk
  have hback : bytes.length - 1 - (bytes.length - 1 - k) = k := by omega
  rw [List.getD_reverse _ (by omega), hback]

/-- Byte `k` of `ToLE` is the base-256 digit `k` (spec/20_memory.md rule R62). -/
theorem toNat_getD_toLE (v : Big) {n k : Nat} (h : k < n) :
    ((toLE v n).getD k 0#8).toNat = v.toNat / 256 ^ k % 256 := by
  have hpow : 2 ^ (8 * k) = 256 ^ k := pow_mul 2 8 k
  rw [toLE, List.getD_eq_getElem _ _ (by simpa using h), List.getElem_map, List.getElem_range,
    BitVec.extractLsb'_toNat, Nat.shiftRight_eq_div_pow, hpow]

/-- Byte `k` of `ToBE` with `n` bytes is the base-256 digit `n - 1 - k` (spec/20_memory.md rule
R62). -/
theorem toNat_getD_toBE (v : Big) {n k : Nat} (h : k < n) :
    ((toBE v n).getD k 0#8).toNat = v.toNat / 256 ^ (n - 1 - k) % 256 := by
  rw [toBE, List.getD_reverse _ (by rwa [toLE_length]), toLE_length, toNat_getD_toLE v (by omega)]

/-! ### The checks of one region -/

/-- An empty region is in range, and one that does not run past 2^32 (spec/20_memory.md rule
R70). -/
theorem spanInRange_iff (base len : Nat) :
    spanInRange { base, len } = true ↔ len = 0 ∨ base + len ≤ Config.addressLimit := by
  simp only [spanInRange, Bool.or_eq_true, beq_iff_eq, decide_eq_true_eq]

/-- A region with a device byte touches a device (spec/20_memory.md rule R68). -/
theorem spanTouchesDevice_of_isDevice {p : Config.Platform} {r : Span} {a : Nat}
    (hlo : r.base ≤ a) (hhi : a < r.base + r.len) (hdevice : isDevice p a = true) :
    spanTouchesDevice p r = true := by
  simp only [isDevice, List.any_eq_true, Bool.and_eq_true, decide_eq_true_eq] at hdevice
  obtain ⟨g, hg, ⟨hkind, hbase⟩, hend⟩ := hdevice
  simp only [spanTouchesDevice, spansOverlap, List.any_eq_true, Bool.and_eq_true, bne_iff_ne,
    decide_eq_true_eq]
  exact ⟨g, hg, hkind, ⟨⟨by omega, by omega⟩, by omega⟩, by omega⟩

/-- A region past 2^32 is refused before any other check (spec/60_exceptions.md rules R299,
R303). -/
theorem launch_of_outOfRange {s : State} {spans : List Span} {clash : Bool} {run : State → Outcome}
    (h : spans.all spanInRange = false) : launch s spans clash run = .next (s.raise .range) := by
  simp [launch, portError, h]

/-- Regions in range and without a forbidden overlap, a byte of which is absent
(spec/60_exceptions.md rules R301, R303). -/
theorem launch_of_invalid {s : State} {spans : List Span} {run : State → Outcome}
    (hrange : spans.all spanInRange = true) (hvalid : spans.all (spanValid s.platform) = false) :
    launch s spans false run = .next (s.raise .bus) := by
  simp [launch, portError, hrange, hvalid]

/-- Regions that pass every check and touch a device (spec/20_memory.md rule R68, log 4). -/
theorem launch_of_device {s : State} {spans : List Span} {clash : Bool} {run : State → Outcome}
    (hpass : portError s.platform spans clash = none)
    (hdevice : spans.any (spanTouchesDevice s.platform) = true) :
    launch s spans clash run = .refused .deviceRegion := by
  simp [launch, hpass, hdevice]

/-- A command on one ready region is its body. -/
theorem launch_single_of_ready {s : State} {r : Span} {body : State → Outcome}
    (h : SpanReady s.platform r) : launch s [r] false body = body s := by
  obtain ⟨hrange, hvalid, hdevice⟩ := spanReady_passes h
  exact launch_passes (portError_eq_none.mpr ⟨by simp [hrange], rfl, by simp [hvalid]⟩)
    (by simp [hdevice])

/-- The four BigInt memory commands share their checks: the length, then those of the region
(spec/40_bigint.md rule R137). -/
theorem exec_bigMemory {r : Reg} {len : BitVec 16} {s : State} {i : Instr} {base : Nat}
    (h : (i = .biLdbe r len ∨ i = .biLdle r len) ∧ base = s.srcAddr.toNat ∨
      (i = .biStbe r len ∨ i = .biStle r len) ∧ base = s.dstAddr.toNat) :
    ∃ run, exec i s = if 40 < len.toNat then .next (s.raise .operand)
      else launch s [{ base, len := len.toNat }] false run := by
  obtain ⟨rfl | rfl, rfl⟩ | ⟨rfl | rfl, rfl⟩ := h
  all_goals exact ⟨_, rfl⟩

/-- Settles O30: the checks of the region, one by one, where those before it pass. -/
theorem bigIntMemoryErrorsInOrder : Obligations.BigIntMemoryErrorsInOrder := by
  unfold Obligations.BigIntMemoryErrorsInOrder
  intro r len s i base h
  obtain ⟨run, hexec⟩ := exec_bigMemory h
  have hlimit : Config.addressLimit = 2 ^ 32 := rfl
  have hinRange := spanInRange_iff base len.toNat
  have hspanValid := spanValid_iff s.platform { base, len := len.toNat }
  rw [hexec]
  refine ⟨fun hlen => if_pos hlen, fun hpos hlen hpast => ?range, fun hlen hfits habsent => ?bus,
    fun hlen hfits hvalid hdevice => ?device⟩
  all_goals rw [if_neg (Nat.not_lt.mpr hlen)]
  case range =>
    have hpast : spanInRange { base, len := len.toNat } = false := by
      rw [← Bool.not_eq_true, hinRange]
      omega
    exact launch_of_outOfRange (by simp [hpast])
  case bus =>
    obtain ⟨a, hlo, hhi, habsent⟩ := habsent
    have hinvalid : spanValid s.platform { base, len := len.toNat } = false := by
      rw [← Bool.not_eq_true, hspanValid]
      exact fun hall => Bool.false_ne_true (habsent.symm.trans (hall a hlo hhi))
    exact launch_of_invalid (by simp [hinRange.mpr (.inr hfits)]) (by simp [hinvalid])
  case device =>
    obtain ⟨a, hlo, hhi, hdevice⟩ := hdevice
    refine launch_of_device (portError_eq_none.mpr ⟨?_, rfl, ?_⟩) ?_
    · simp [hinRange.mpr (.inr hfits)]
    · simp [hspanValid.mpr hvalid]
    · simp [spanTouchesDevice_of_isDevice (r := { base, len := len.toNat }) hlo hhi hdevice]

/-! ### Loads -/

/-- A load of at most 40 bytes from a ready region (spec/40_bigint.md rules R122, R123). -/
theorem loadBig_of_ready {image : List Byte → Nat} {rd : Reg} {len : BitVec 16} {s : State}
    (hlen : len.toNat ≤ 40) (hready : SpanReady s.platform (srcSpan s len.toNat)) :
    loadBig image rd len s =
      .next (s.setB rd (bigOf (image (readBytes s s.srcAddr len.toNat)))).succeed := by
  unfold loadBig
  rw [if_neg (Nat.not_lt.mpr hlen), launch_single_of_ready hready]

/-- A weighted sum over bytes read from a ready region. -/
theorem sum_readBytes {s : State} {n : Nat} (hready : SpanReady s.platform (srcSpan s n))
    (weight : Nat → Nat) :
    ∑ k ∈ Finset.range n, ((readBytes s s.srcAddr n).getD k 0#8).toNat * weight k =
      ∑ k ∈ Finset.range n, (memRead s.mem (s.srcAddr.toNat + k)).toNat * weight k :=
  Finset.sum_congr rfl fun k hk => by
    rw [getD_readBytes s s.srcAddr n k hready.1 (Finset.mem_range.mp hk)]

/-- Settles O28: the image of the bytes read is their weighted sum. -/
theorem loadsAssembleTheBytes : Obligations.LoadsAssembleTheBytes := by
  unfold Obligations.LoadsAssembleTheBytes
  intro rd len s hlen hready
  constructor
  case left =>
    change loadBig fromBE rd len s = _
    rw [loadBig_of_ready hlen hready, fromBE_eq_sum, readBytes_length,
      sum_readBytes hready fun k => 256 ^ (len.toNat - 1 - k)]
    rfl
  case right =>
    change loadBig fromLE rd len s = _
    rw [loadBig_of_ready hlen hready, fromLE_eq_sum, readBytes_length,
      sum_readBytes hready fun k => 256 ^ k]
    rfl

/-! ### Stores -/

/-- A store of at most 40 bytes to a ready region: the bytes of the image, and nothing else changed
(spec/40_bigint.md rules R124, R125). -/
theorem storeBig_of_ready {image : Big → Nat → List Byte} {ra : Reg} {len : BitVec 16} {s : State}
    (himage : (image (s.getB ra) len.toNat).length = len.toNat) (hlen : len.toNat ≤ 40)
    (hready : SpanReady s.platform (dstSpan s len.toNat)) :
    ∃ t, storeBig image ra len s = .next t ∧
      t = { s with mem := t.mem, status := { s.status with err := .ok } } ∧
      SameOutside s t (dstSpan s len.toNat) ∧
      ∀ k, k < len.toNat → memRead t.mem (s.dstAddr.toNat + k) =
        (image (s.getB ra) len.toNat).getD k 0#8 := by
  have hread (x : Nat) := memRead_writeBytes (image (s.getB ra) len.toNat) s.dstAddr s x
    (himage.symm ▸ hready.1)
  rw [himage] at hread
  refine ⟨(writeBytes s.dstAddr (image (s.getB ra) len.toNat) s).succeed, ?_, ?_,
    fun a ha => ?_, fun k hk => ?_⟩
  · unfold storeBig
    rw [if_neg (Nat.not_lt.mpr hlen), launch_single_of_ready hready]
  · rw [writeBytes_frame]
    rfl
  · exact (hread a).trans (if_neg ha)
  · rw [succeed_mem, hread, if_pos ⟨by omega, by omega⟩, Nat.add_sub_cancel_left]

/-- Settles O29: each image stored byte by byte, each byte a digit of the register. -/
theorem storesWriteTheLowBytes : Obligations.StoresWriteTheLowBytes := by
  unfold Obligations.StoresWriteTheLowBytes
  intro ra len s hlen hready
  obtain ⟨t, htExec, htFrame, htOutside, htBytes⟩ :=
    storeBig_of_ready (image := toBE) (ra := ra) (toBE_length ..) hlen hready
  obtain ⟨u, huExec, huFrame, huOutside, huBytes⟩ :=
    storeBig_of_ready (image := toLE) (ra := ra) (toLE_length ..) hlen hready
  exact ⟨t, u, htExec, htFrame, htOutside,
    fun k hk => by rw [htBytes k hk, toNat_getD_toBE _ hk],
    huExec, huFrame, huOutside, fun k hk => by rw [huBytes k hk, toNat_getD_toLE _ hk]⟩

end Sys2Proof.Proofs
end

