-- ==== Sys2Proof/Proofs/Modular.lean ====
section
/-! PROOF. The modular commands (spec/41_modular.md rules R161 to R164): shift-and-subtract as a
residue, square-and-multiply as the residue of the power, then the commands. -/

namespace Sys2Proof.Proofs

open Sys2Proof Sys2Proof.Machine Sys2Proof.Laws

/-! ### Shift-and-subtract -/

/-- A conditional subtraction is a whole reduction where the value is below twice the modulus. -/
theorem conditionalSub_eq_mod {p k : Nat} (h : p < 2 * k) :
    (if k ≤ p then p - k else p) = p % k := by
  split
  case isTrue hle => rw [Nat.mod_eq_sub_mod hle, Nat.mod_eq_of_lt (by omega)]
  case isFalse hlt => exact (Nat.mod_eq_of_lt (Nat.lt_of_not_ge hlt)).symm

/-- Each shift reduces modulo the shifted modulus, and every shifted modulus is a multiple of the
next, so what is left at shift 0 is the residue (spec/41_modular.md rule R162). -/
theorem shiftSubtract_eq_mod {m s p : Nat} (hm : 0 < m) (h : p < m * 2 ^ (s + 1)) :
    shiftSubtract m s p = p % m := by
  induction s generalizing p with
  | zero => exact conditionalSub_eq_mod (by omega)
  | succ s ih =>
    have hpos : 0 < m * 2 ^ (s + 1) := Nat.mul_pos hm (Nat.two_pow_pos _)
    have htwice : p < 2 * (m * 2 ^ (s + 1)) := by rwa [Nat.mul_left_comm, ← pow_succ']
    rw [shiftSubtract, Nat.shiftLeft_eq, conditionalSub_eq_mod htwice, ih (Nat.mod_lt _ hpos),
      Nat.mod_mul_right_mod]

/-- Shifting `m` by the distance of the highest set bits brings it above half of `p`. -/
theorem lt_mul_two_pow_of_log2_le {m p : Nat} (hm : m ≠ 0) (h : m.log2 ≤ p.log2) :
    p < m * 2 ^ (p.log2 - m.log2 + 1) :=
  calc p < 2 ^ (p.log2 + 1) := Nat.lt_log2_self
    _ = 2 ^ m.log2 * 2 ^ (p.log2 - m.log2 + 1) := by rw [← pow_add]; congr 1; omega
    _ ≤ m * 2 ^ (p.log2 - m.log2 + 1) := Nat.mul_le_mul_right _ (Nat.log2_self_le hm)

/-- Settles O33: either the loop reduces the product, or the product is below the modulus. -/
theorem shiftSubtractAlgorithmComputesTheResidue :
    Obligations.ShiftSubtractAlgorithmComputesTheResidue := by
  unfold Obligations.ShiftSubtractAlgorithmComputesTheResidue
  intro a b m hm
  have hne : m ≠ 0 := Nat.ne_of_gt hm
  dsimp only [modMulReference]
  split
  case isTrue h => exact shiftSubtract_eq_mod hm (lt_mul_two_pow_of_log2_le hne h.2)
  case isFalse h =>
    refine (Nat.mod_eq_of_lt ?_).symm
    by_cases hzero : a * b = 0
    · rwa [hzero]
    · have hlog : (a * b).log2 < m.log2 := by omega
      exact ((Nat.log2_lt hzero).mp hlog).trans_le (Nat.log2_self_le hne)

/-! ### Square-and-multiply -/

theorem modPow_zero_exponent (m bits r x : Nat) : modPow m bits r x 0 = r := by
  cases bits
  all_goals rfl

/-- One bit of the exponent moved into the accumulator, and the square reduced, leave accumulator
times remaining power as it was, modulo `m` (spec/41_modular.md rule R164). -/
theorem modPow_step_modEq (m r x e : Nat) :
    (if e % 2 = 1 then modMul r x m else r) * modMul x x m ^ (e / 2) ≡ r * x ^ e [MOD m] := by
  have hsquare : modMul x x m ^ (e / 2) ≡ x ^ (2 * (e / 2)) [MOD m] := by
    rw [pow_mul, pow_two]
    exact (Nat.mod_modEq (x * x) m).pow _
  split
  case isTrue hodd =>
    have he : e = 1 + 2 * (e / 2) := by omega
    calc modMul r x m * modMul x x m ^ (e / 2)
        ≡ r * x * x ^ (2 * (e / 2)) [MOD m] := (Nat.mod_modEq (r * x) m).mul hsquare
      _ = r * x ^ e := by rw [Nat.mul_assoc, ← pow_succ', Nat.add_comm, ← he]
  case isFalse heven =>
    have he : 2 * (e / 2) = e := by omega
    exact (he ▸ hsquare).mul_left r

/-- Over enough bits the loop gives the residue of accumulator times power; the last bit of a
non-zero exponent is set, so the accumulator ends reduced (spec/41_modular.md rule R164). -/
theorem modPow_eq_mod {m bits r x e : Nat} (he : e ≠ 0) (hbits : e < 2 ^ bits) :
    modPow m bits r x e = r * x ^ e % m := by
  induction bits generalizing r x e with
  | zero => exact absurd (Nat.lt_one_iff.mp hbits) he
  | succ bits ih =>
    rw [modPow, if_neg he]
    by_cases hhalf : e / 2 = 0
    · obtain rfl : e = 1 := by omega
      rw [hhalf, modPow_zero_exponent, if_pos rfl, modMul, pow_one]
    · rw [ih hhalf (by rw [pow_succ] at hbits; omega)]
      exact modPow_step_modEq m r x e

/-- As many bits as the exponent is wide are enough. -/
theorem modPow_toNat_eq_mod {w : Nat} {e : BitVec w} (m r x : Nat) (he : e.toNat ≠ 0) :
    modPow m w r x e.toNat = r * x ^ e.toNat % m :=
  modPow_eq_mod he e.isLt

/-- The loop runs over every bit of a 320-bit exponent (spec/41_modular.md rule R163). -/
theorem modExp_toNat_eq_pow_mod {e : Big} (a m : Nat) (he : e.toNat ≠ 0) :
    modExp a e.toNat m = a ^ e.toNat % m := by
  rw [modExp, modPow_toNat_eq_mod m 1 a he, Nat.one_mul]

/-! ### The commands -/

/-- `MOD.MUL` with a modulus (spec/41_modular.md rule R161). -/
theorem exec_modMul_of_ne_zero {rd ra rb rc : Reg} {s : State} (hm : (s.getB rc).toNat ≠ 0) :
    exec (.modMul rd ra rb rc) s = .next (s.setB rd (bigOf
      (modMul (s.getB ra).toNat (s.getB rb).toNat (s.getB rc).toNat))).succeed :=
  if_neg hm

/-- `MOD.EXP` with a modulus (spec/41_modular.md rule R163). -/
theorem exec_modExp_of_ne_zero {rd ra rb rc : Reg} {s : State} (hm : (s.getB rc).toNat ≠ 0) :
    exec (.modExp rd ra rb rc) s = .next (s.setB rd (bigOf
      (modExp (s.getB ra).toNat (s.getB rb).toNat (s.getB rc).toNat))).succeed :=
  if_neg hm

/-- Settles O31: the residue is what the model writes. -/
theorem modMulIsTheResidueOfTheProduct : Obligations.ModMulIsTheResidueOfTheProduct := by
  unfold Obligations.ModMulIsTheResidueOfTheProduct
  exact ⟨fun rd ra rb rc s => ⟨rfl, fun hzero => if_pos hzero, exec_modMul_of_ne_zero⟩, rfl⟩

/-- Settles O32: the loop leaves 1 for exponent 0, and the residue of the power for another. -/
theorem modExpIsTheResidueOfThePower : Obligations.ModExpIsTheResidueOfThePower := by
  unfold Obligations.ModExpIsTheResidueOfThePower
  refine ⟨fun rd ra rb rc s => ⟨rfl, fun hzero => if_pos hzero, fun hm he => ?one,
    fun hm he => ?power⟩, rfl⟩
  case one =>
    rw [exec_modExp_of_ne_zero hm, he, modExp, modPow_zero_exponent]
    rfl
  case power =>
    rw [exec_modExp_of_ne_zero hm, modExp_toNat_eq_pow_mod _ _ he]
    rfl

end Sys2Proof.Proofs
end

