-- ==== Sys2Proof/Proofs/Cipher.lean ====
section
/-! PROOF. The Blowfish cipher over any tables (spec/42_blowfish.md rules R181, R182, R185): the
F-function on numbers, the rounds as a fold, and the network undone by the reversed subkeys. -/

namespace Sys2Proof.Proofs

open Sys2Proof Sys2Proof.Machine Sys2Proof.Laws

/-! ### The F-function and one round -/

/-- The F-function with each box indexed by a quotient of the half (spec/42_blowfish.md rule
R181). -/
theorem blowfishF_eq_quotients (S : Fin 4 → Byte → Word) (x : Word) :
    blowfishF S x =
      ((S 0 (BitVec.ofNat 8 (x.toNat / 2 ^ 24)) + S 1 (BitVec.ofNat 8 (x.toNat / 2 ^ 16)))
        ^^^ S 2 (BitVec.ofNat 8 (x.toNat / 2 ^ 8))) + S 3 (BitVec.ofNat 8 x.toNat) := by
  simp only [← Nat.shiftRight_eq_div_pow]
  rfl

/-- One round: subkey `i` into the left half, F into the right half, swap (spec/42_blowfish.md rule
R182). -/
def feistelRound (P : Fin 18 → Word) (S : Fin 4 → Byte → Word) (x : Word × Word) (i : Fin 18) :
    Word × Word :=
  (x.2 ^^^ blowfishF S (x.1 ^^^ P i), x.1 ^^^ P i)

/-- The end of the network: the last swap undone, `P[kr]` into the right half, `P[kl]` into the left
one (spec/42_blowfish.md rule R182). -/
def whiten (P : Fin 18 → Word) (kr kl : Fin 18) (x : Word × Word) : Word × Word :=
  (x.2 ^^^ P kl, x.1 ^^^ P kr)

theorem feistelRounds_eq_foldl (P : Fin 18 → Word) (S : Fin 4 → Byte → Word)
    (order : List (Fin 18)) (lr : Word × Word) :
    feistelRounds P S order lr = order.foldl (feistelRound P S) lr := by
  induction order generalizing lr with
  | nil => rfl
  | cons i rest ih => exact ih _

theorem feistel_eq_whiten (P : Fin 18 → Word) (S : Fin 4 → Byte → Word) (order : List (Fin 18))
    (kr kl : Fin 18) (lr : Word × Word) :
    feistel P S order kr kl lr = whiten P kr kl (order.foldl (feistelRound P S) lr) := by
  rw [← feistelRounds_eq_foldl]
  rfl

/-! ### The network undone -/

/-- A round with the left subkey of the ending takes the last round back: what is left is the ending
one round earlier (spec/42_blowfish.md rule R185). -/
theorem feistelRound_whiten_feistelRound (P : Fin 18 → Word) (S : Fin 4 → Byte → Word)
    (i kr kl : Fin 18) (x : Word × Word) :
    feistelRound P S (whiten P kr kl (feistelRound P S x i)) kl = whiten P i kr x := by
  simp only [feistelRound, whiten, BitVec.xor_assoc, BitVec.xor_self, BitVec.xor_zero, Prod.mk.injEq,
    and_true]
  rw [BitVec.xor_comm (P kr), ← BitVec.xor_assoc (blowfishF ..), BitVec.xor_self, BitVec.zero_xor]

theorem whiten_whiten (P : Fin 18 → Word) (kr kl : Fin 18) (x : Word × Word) :
    whiten P kl kr (whiten P kr kl x) = x := by
  simp only [whiten, BitVec.xor_assoc, BitVec.xor_self, BitVec.xor_zero]

/-- The rounds with the subkeys taken backwards, from the last down to the third, leave the ending of
the network without rounds. -/
theorem foldl_feistelRound_reverse (P : Fin 18 → Word) (S : Fin 4 → Byte → Word)
    (i j kr kl : Fin 18) (middle : List (Fin 18)) (lr : Word × Word) :
    (kl :: kr :: middle.reverse).foldl (feistelRound P S)
      (whiten P kr kl ((i :: j :: middle).foldl (feistelRound P S) lr)) =
      whiten P i j lr := by
  induction middle using List.reverseRecOn generalizing kr kl with
  | nil =>
    simp only [List.reverse_nil, List.foldl_cons, List.foldl_nil, feistelRound_whiten_feistelRound]
  | append_singleton rest last ih =>
    rw [← List.cons_append, ← List.cons_append, List.foldl_concat, List.reverse_concat,
      List.foldl_cons, feistelRound_whiten_feistelRound]
    exact ih last kr

/-- The network with all its subkeys in reverse undoes the network (spec/42_blowfish.md rule
R185). -/
theorem feistel_reverse (P : Fin 18 → Word) (S : Fin 4 → Byte → Word)
    (i j kr kl : Fin 18) (middle : List (Fin 18)) (lr : Word × Word) :
    feistel P S (kl :: kr :: middle.reverse) j i
      (feistel P S (i :: j :: middle) kr kl lr) = lr := by
  rw [feistel_eq_whiten, feistel_eq_whiten, foldl_feistelRound_reverse, whiten_whiten]

theorem decHalves_encHalves (P : Fin 18 → Word) (S : Fin 4 → Byte → Word) (lr : Word × Word) :
    decHalves P S (encHalves P S lr) = lr :=
  feistel_reverse P S 0 1 16 17 [2, 3, 4, 5, 6, 7, 8, 9, 10, 11, 12, 13, 14, 15] lr

theorem encHalves_decHalves (P : Fin 18 → Word) (S : Fin 4 → Byte → Word) (lr : Word × Word) :
    encHalves P S (decHalves P S lr) = lr :=
  feistel_reverse P S 17 16 1 0 [15, 14, 13, 12, 11, 10, 9, 8, 7, 6, 5, 4, 3, 2] lr

/-- Settles O34: both networks are folds of the round, and each has the other's subkeys reversed. -/
theorem decryptionUndoesEncryption : Obligations.DecryptionUndoesEncryption := by
  unfold Obligations.DecryptionUndoesEncryption
  intro P S lr F round encRounds decRounds
  have hround : feistelRound P S = round := by
    funext x i
    simp only [feistelRound, blowfishF_eq_quotients]
    rfl
  refine ⟨?enc, ?dec, decHalves_encHalves P S lr, encHalves_decHalves P S lr⟩
  case enc => rw [encHalves, feistel_eq_whiten, hround, whiten]
  case dec => rw [decHalves, feistel_eq_whiten, hround, whiten]

end Sys2Proof.Proofs
end

