-- ==== Sys2Proof/Proofs/KeySchedule.lean ====
section
/-! PROOF. `BF.SETKEY` (spec/42_blowfish.md rules R183, R184): key words as numbers, the chained
encryptions of the schedule as one recurrence over words, then the command. -/

namespace Sys2Proof.Proofs

open Sys2Proof Sys2Proof.Machine Sys2Proof.Laws

/-! ### The key mixed into `P` -/

/-- `BE32` weighs its bytes, the first one most significant (spec/00_scope.md rule R8). -/
theorem toNat_be32 (b0 b1 b2 b3 : Byte) :
    (be32 b0 b1 b2 b3).toNat =
      b0.toNat * 2 ^ 24 + b1.toNat * 2 ^ 16 + b2.toNat * 2 ^ 8 + b3.toNat := by
  have hwiden (b : Byte) : (b.setWidth 32).toNat = b.toNat :=
    BitVec.toNat_setWidth_of_le (by decide)
  have h0 := b0.isLt
  have h1 := b1.isLt
  have h2 := b2.isLt
  have h3 := b3.isLt
  rw [be32, toNat_four_fields (i := 8) (j := 16) (k := 24) (by decide) (by decide) (by decide)]
  all_goals simp only [hwiden]
  all_goals omega

theorem be32_eq_ofNat (b0 b1 b2 b3 : Byte) :
    be32 b0 b1 b2 b3 = BitVec.ofNat 32
      (b0.toNat * 2 ^ 24 + b1.toNat * 2 ^ 16 + b2.toNat * 2 ^ 8 + b3.toNat) := by
  rw [← toNat_be32, BitVec.ofNat_toNat, BitVec.setWidth_eq]

/-- The words of `P` below `m` mixed, those from `m` on as before (spec/42_blowfish.md rule R183). -/
theorem wordAt_foldl_mix (w : Nat → Word) (p : BitVec 576) {m i : Nat} (hm : m ≤ 18) (hi : i < 18) :
    wordAt 576 ((List.range m).foldl (fun p i => setWordAt 576 p i (wordAt 576 p i ^^^ w i)) p) i =
      if i < m then wordAt 576 p i ^^^ w i else wordAt 576 p i := by
  induction m with
  | zero => rfl
  | succ m ih =>
    rw [List.range_succ, List.foldl_concat, wordAt_setWordAt _ _ _ _ _ (by omega) (by omega)]
    have ih := ih (by omega)
    by_cases h : i = m
    · subst h
      simp [ih]
    · simp [ih, h, show i < m + 1 ↔ i < m by omega]

/-- Each word of `P` is XORed with its key word (spec/42_blowfish.md rule R183). -/
theorem wordAt_mixKey (key : List Byte) (p : BitVec 576) {i : Nat} (hi : i < 18) :
    wordAt 576 (mixKey key p) i = wordAt 576 p i ^^^ keyWord key i := by
  rw [mixKey, wordAt_foldl_mix _ _ le_rfl hi, if_pos hi]

/-- Settles O35: word by word, and the word of four bytes as a number. -/
theorem keyBytesAreMixedCyclically : Obligations.KeyBytesAreMixedCyclically := by
  unfold Obligations.KeyBytesAreMixedCyclically
  intro key p i _ _ hi byte
  rw [wordAt_mixKey key p hi, keyWord, be32_eq_ofNat]

/-! ### Chained encryptions that replace a table pair by pair -/

/-- `j` chained encryptions: each takes the output of the one before and replaces the next pair of
words of the table it reads (spec/42_blowfish.md rule R184). `fillP` and `fillS` are two cases of
it. -/
def fillPairs (n : Nat) (enc : BitVec n → Word × Word → Word × Word) :
    Nat → BitVec n × (Word × Word) → BitVec n × (Word × Word)
  | 0, x => x
  | j + 1, x =>
    let y := fillPairs n enc j x
    let out := enc y.1 y.2
    (setWordAt n (setWordAt n y.1 (2 * j) out.1) (2 * j + 1) out.2, out)

/-- Pair `i` of a table. -/
def pairAt (n : Nat) (t : BitVec n) (i : Nat) : Word × Word :=
  (wordAt n t (2 * i), wordAt n t (2 * i + 1))

theorem fillP_append (xs ys : List Nat) (x : Tables × (Word × Word)) :
    fillP (xs ++ ys) x = fillP ys (fillP xs x) := by
  induction xs generalizing x with
  | nil => rfl
  | cons j xs ih => exact ih _

theorem fillS_append (xs ys : List Nat) (x : Tables × (Word × Word)) :
    fillS (xs ++ ys) x = fillS ys (fillS xs x) := by
  induction xs generalizing x with
  | nil => rfl
  | cons j xs ih => exact ih _

theorem fillP_range (j : Nat) (t : Tables) (lr : Word × Word) :
    fillP (List.range j) (t, lr) =
      let r := fillPairs 576 (fun p => encHalves (tableP { t with p := p }) (tableS t)) j (t.p, lr)
      ({ t with p := r.1 }, r.2) := by
  induction j with
  | zero => rfl
  | succ j ih =>
    rw [List.range_succ, fillP_append, ih]
    rfl

theorem fillS_range (j : Nat) (t : Tables) (lr : Word × Word) :
    fillS (List.range j) (t, lr) =
      let r := fillPairs 32768 (fun s => encHalves (tableP t) (tableS { t with s := s })) j (t.s, lr)
      ({ t with s := r.1 }, r.2) := by
  induction j with
  | zero => rfl
  | succ j ih =>
    rw [List.range_succ, fillS_append, ih]
    rfl

section
variable {n : Nat} (enc : BitVec n → Word × Word → Word × Word) (x : BitVec n × (Word × Word))

/-- One more encryption writes its pair and no other word. -/
theorem wordAt_fillPairs_succ {j k : Nat} (hj : 64 * (j + 1) ≤ n) (hk : 32 * (k + 1) ≤ n)
    (hne : k < 2 * j ∨ 2 * j + 1 < k) :
    wordAt n (fillPairs n enc (j + 1) x).1 k = wordAt n (fillPairs n enc j x).1 k := by
  rw [fillPairs, wordAt_setWordAt _ _ _ _ _ (by omega) hk, if_neg (by omega),
    wordAt_setWordAt _ _ _ _ _ (by omega) hk, if_neg (by omega)]

/-- The pair written is the output given on. -/
theorem pairAt_fillPairs_succ {j : Nat} (hj : 64 * (j + 1) ≤ n) :
    pairAt n (fillPairs n enc (j + 1) x).1 j = (fillPairs n enc (j + 1) x).2 := by
  rw [pairAt, fillPairs, wordAt_setWordAt _ _ _ _ _ (by omega) (by omega), if_neg (by omega),
    wordAt_setWordAt _ _ _ _ _ (by omega) (by omega), if_pos rfl,
    wordAt_setWordAt _ _ _ _ _ (by omega) (by omega), if_pos rfl]

/-- A word not yet reached is the one the table began with. -/
theorem wordAt_fillPairs_of_le {j k : Nat} (hj : 64 * j ≤ n) (hk : 32 * (k + 1) ≤ n)
    (hle : 2 * j ≤ k) : wordAt n (fillPairs n enc j x).1 k = wordAt n x.1 k := by
  induction j with
  | zero => rfl
  | succ j ih =>
    rw [wordAt_fillPairs_succ enc x hj hk (.inr (by omega)), ih (by omega) (by omega)]

/-- A word once written stays. -/
theorem wordAt_fillPairs_of_lt {j m k : Nat} (hjm : j ≤ m) (hm : 64 * m ≤ n) (hk : k < 2 * j) :
    wordAt n (fillPairs n enc m x).1 k = wordAt n (fillPairs n enc j x).1 k := by
  induction m, hjm using Nat.le_induction with
  | base => rfl
  | succ m hjm ih =>
    rw [wordAt_fillPairs_succ enc x hm (by omega) (.inl (by omega)), ih (by omega)]

/-- The table in the middle of the run: the words already replaced are those of the end, the others
those of the beginning. -/
theorem wordAt_fillPairs_eq_ite {j m k : Nat} (hjm : j ≤ m) (hm : 64 * m ≤ n)
    (hk : 32 * (k + 1) ≤ n) :
    wordAt n (fillPairs n enc j x).1 k =
      if k < 2 * j then wordAt n (fillPairs n enc m x).1 k else wordAt n x.1 k := by
  split
  case isTrue h => exact (wordAt_fillPairs_of_lt enc x hjm hm h).symm
  case isFalse h => exact wordAt_fillPairs_of_le enc x (by omega) hk (by omega)

/-- The output given on after `j` encryptions: the block at the start, then the pair before. -/
theorem fillPairs_snd {j m : Nat} (hjm : j ≤ m) (hm : 64 * m ≤ n) :
    (fillPairs n enc j x).2 =
      if j = 0 then x.2 else pairAt n (fillPairs n enc m x).1 (j - 1) := by
  cases j with
  | zero => rfl
  | succ j =>
    rw [← pairAt_fillPairs_succ enc x (by omega), if_neg (Nat.succ_ne_zero j), Nat.add_sub_cancel,
      pairAt, pairAt, wordAt_fillPairs_of_lt enc x hjm hm (by omega),
      wordAt_fillPairs_of_lt enc x hjm hm (by omega)]

/-- The recurrence: pair `j` of the final table is the encryption of the pair before it, under the
table half replaced (spec/42_blowfish.md rule R184). -/
theorem pairAt_fillPairs {j m : Nat} (hjm : j < m) (hm : 64 * m ≤ n) :
    pairAt n (fillPairs n enc m x).1 j =
      enc (fillPairs n enc j x).1
        (if j = 0 then x.2 else pairAt n (fillPairs n enc m x).1 (j - 1)) := by
  rw [← fillPairs_snd enc x hjm.le hm, pairAt, wordAt_fillPairs_of_lt enc x hjm hm (by omega),
    wordAt_fillPairs_of_lt enc x hjm hm (by omega)]
  exact pairAt_fillPairs_succ enc x (by omega)

end

/-! ### The schedule as a recurrence -/

section
variable (start : Tables) (lr : Word × Word)

/-- The tables of a schedule from `start` and the block `lr`, with `m` encryptions into `P` and then
`n` into the S-boxes (spec/42_blowfish.md rule R184: 9 and 512). -/
def scheduleFrom (m n : Nat) : Tables :=
  (fillS (List.range n) (fillP (List.range m) (start, lr))).1

/-- The key schedule is that of the initial tables with the key mixed into `P`, from the zero block
(spec/42_blowfish.md rules R183, R184). -/
theorem keySchedule_eq_scheduleFrom (key : List Byte) : keySchedule key =
    scheduleFrom { p := mixKey key initialP, s := initialS } (0#32, 0#32) 9 512 := rfl

/-- The first phase reads the S-boxes of the start and replaces `P` pair by pair. -/
theorem pairAt_scheduleFrom_p {m n j : Nat} (hj : j < m) (hm : m ≤ 9) :
    let t := scheduleFrom start lr m n
    pairAt 576 t.p j =
      encHalves (fun i => if i.val < 2 * j then tableP t i else tableP start i) (tableS start)
        (if j = 0 then lr else pairAt 576 t.p (j - 1)) := by
  simp only [scheduleFrom, fillP_range, fillS_range]
  rw [pairAt_fillPairs _ _ hj (by omega)]
  refine congrArg (encHalves · _ _) (funext fun i => ?_)
  exact wordAt_fillPairs_eq_ite _ _ hj.le (by omega) (by omega)

/-- The second phase reads the final `P`, begins with its last pair and replaces the S-boxes pair by
pair. -/
theorem pairAt_scheduleFrom_s {m n j : Nat} (hj : j < n) (hn : n ≤ 512) (hpos : m ≠ 0)
    (hm : m ≤ 9) :
    let t := scheduleFrom start lr m n
    pairAt 32768 t.s j =
      encHalves (tableP t)
        (fun b x => if 256 * b.val + x.toNat < 2 * j then tableS t b x else tableS start b x)
        (if j = 0 then pairAt 576 t.p (m - 1) else pairAt 32768 t.s (j - 1)) := by
  simp only [scheduleFrom, fillP_range, fillS_range]
  rw [pairAt_fillPairs _ _ hj (by omega), fillPairs_snd _ _ le_rfl (by omega), if_neg hpos]
  refine congrArg (encHalves _ · _) (funext fun b => funext fun x => ?_)
  exact wordAt_fillPairs_eq_ite _ _ hj.le (by omega) (by omega)

end

/-! ### The command -/

/-- Word `i` of `P`, with the index written as a number. -/
theorem tableP_ofNat (t : Tables) {i : Nat} (h : i < 18) :
    tableP t (Fin.ofNat 18 i) = wordAt 576 t.p i := by
  rw [tableP, Fin.val_ofNat, Nat.mod_eq_of_lt h]

/-- Word `i` of the four S-boxes in order, with box and entry taken from the number. -/
theorem tableS_ofNat (t : Tables) {i : Nat} (h : i < 1024) :
    tableS t (Fin.ofNat 4 (i / 256)) (BitVec.ofNat 8 i) = wordAt 32768 t.s i := by
  have hindex : 256 * (i / 256 % 4) + i % 2 ^ 8 = i := by omega
  rw [tableS, Fin.val_ofNat, BitVec.toNat_ofNat, hindex]

theorem getElem_tablesKp (t : Tables) (i : Fin 18) : (tablesKp t)[i.val] = tableP t i := by
  simp [tablesKp]

theorem getElem_tablesKs (t : Tables) (b : Fin 4) (x : Byte) :
    ((tablesKs t)[b.val])[x.toNat] = tableS t b x := by
  simp [tablesKs]

/-- A key in memory is the bytes read at its address. -/
theorem readBytes_eq_of_getD {s : State} {a : Word} {key : List Byte}
    (hfits : a.toNat + key.length ≤ Config.addressLimit)
    (hkey : ∀ k, k < key.length → key.getD k 0#8 = memRead s.mem (a.toNat + k)) :
    readBytes s a key.length = key := by
  refine List.ext_getElem (readBytes_length ..) fun k _ hk => ?_
  rw [← List.getD_eq_getElem _ 0#8, ← List.getD_eq_getElem _ 0#8, hkey k hk,
    getD_readBytes s a _ k hfits hk]

/-- The key word of the bytes at an address (spec/42_blowfish.md rule R183). -/
theorem keyWord_readBytes {s : State} {a : Word} {n : Nat} (hpos : 0 < n)
    (hfits : a.toNat + n ≤ Config.addressLimit) (i : Nat) :
    let keyByte (k : Nat) : Nat := (memRead s.mem (a.toNat + k % n)).toNat
    keyWord (readBytes s a n) i = BitVec.ofNat 32 (keyByte (4 * i) * 2 ^ 24
      + keyByte (4 * i + 1) * 2 ^ 16 + keyByte (4 * i + 2) * 2 ^ 8 + keyByte (4 * i + 3)) := by
  have hbyte (k : Nat) :
      (readBytes s a n).getD (k % n) 0#8 = memRead s.mem (a.toNat + k % n) :=
    getD_readBytes s a n _ hfits (Nat.mod_lt k hpos)
  simp only [keyWord, be32_eq_ofNat, readBytes_length, hbyte, Nat.add_zero]

/-- `BF.SETKEY` with a key of 1 to 56 bytes in a ready region (spec/42_blowfish.md rule R184). -/
theorem exec_bfSetkey_of_ready {s : State} (hmin : 1 ≤ s.srcLen.toNat) (hmax : s.srcLen.toNat ≤ 56)
    (hready : SpanReady s.platform (srcSpan s s.srcLen.toNat)) :
    let t := keySchedule (readBytes s s.srcAddr s.srcLen.toNat)
    exec .bfSetkey s = .next { s with
      kp := tablesKp t, ks := tablesKs t,
      status := { s.status with keyvalid := true, err := .ok } } := by
  change execBfSetkey s = _
  unfold execBfSetkey
  rw [if_neg (by omega), launch_single_of_ready hready]

/-- The block an encryption takes as its input, written word by word. -/
theorem previousPair_eq {n j : Nat} {t : BitVec n} {w : Nat → Word} (x : Word × Word)
    (hw : ∀ i, i < 2 * j → w i = wordAt n t i) :
    (if j = 0 then x else (w (2 * j - 2), w (2 * j - 1))) =
      if j = 0 then x else pairAt n t (j - 1) := by
  by_cases h : j = 0
  · rw [if_pos h, if_pos h]
  · have hfirst : 2 * (j - 1) = 2 * j - 2 := by omega
    have hsecond : 2 * (j - 1) + 1 = 2 * j - 1 := by omega
    rw [if_neg h, if_neg h, pairAt, hsecond, hfirst, hw _ (by omega), hw _ (by omega)]

/-- Settles O36: the tables installed are those of the schedule, whose two phases are the two
recurrences, read word by word. -/
theorem setkeyInstallsTheScheduleOfTheKey : Obligations.SetkeyInstallsTheScheduleOfTheKey := by
  unfold Obligations.SetkeyInstallsTheScheduleOfTheKey
  intro s hmin hmax hready
  let start : Tables :=
    { p := mixKey (readBytes s s.srcAddr s.srcLen.toNat) initialP, s := initialS }
  let final := scheduleFrom start (0#32, 0#32) 9 512
  obtain ⟨t, ht⟩ : ∃ t : State, t = { s with
    kp := tablesKp final, ks := tablesKs final,
    status := { s.status with keyvalid := true, err := .ok } } := ⟨_, rfl⟩
  have hkpAt : t.kpAt = tableP final := funext fun i => by rw [ht]; exact getElem_tablesKp final i
  have hksAt : t.ksAt = tableS final :=
    funext fun b => funext fun x => by rw [ht]; exact getElem_tablesKs final b x
  refine ⟨t, ?exec, by rw [ht], fun key hlen hkey => ?schedule, ?_⟩
  case exec => rw [exec_bfSetkey_of_ready hmin hmax hready, ht, keySchedule_eq_scheduleFrom]
  case schedule =>
    have hfinal : keySchedule key = final := by
      rw [← readBytes_eq_of_getD (hlen ▸ hready.1) hkey, hlen, keySchedule_eq_scheduleFrom]
    rw [hfinal, hkpAt, hksAt]
    exact ⟨fun _ => rfl, fun _ _ => rfl⟩
  intro keyByte P0 S0 kp ks
  have hP0 : tableP start = P0 := funext fun i => by
    rw [tableP, wordAt_mixKey _ _ i.isLt, keyWord_readBytes hmin hready.1]
  have hkp {i : Nat} (h : i < 18) : kp i = wordAt 576 final.p i :=
    (congrFun hkpAt _).trans (tableP_ofNat final h)
  have hks {i : Nat} (h : i < 1024) : ks i = wordAt 32768 final.s i :=
    (congrFun (congrFun hksAt _) _).trans (tableS_ofNat final h)
  refine ⟨fun j hj => ?p, fun j hj => ?s⟩
  case p =>
    rw [previousPair_eq _ fun i hi => hkp (by omega), hkp (by omega), hkp (by omega), hkpAt, ← hP0]
    exact pairAt_scheduleFrom_p start _ hj le_rfl
  case s =>
    rw [previousPair_eq _ fun i hi => hks (by omega), hks (by omega), hks (by omega),
      hkp (by decide), hkp (by decide), hkpAt, hksAt]
    exact pairAt_scheduleFrom_s start _ hj le_rfl (by decide) le_rfl

end Sys2Proof.Proofs
end

