-- ==== Sys2Proof/Proofs/CipherCommands.lean ====
section
/-! PROOF. The Blowfish commands that use or discard a key (spec/42_blowfish.md rules R186 to R191):
blocks of memory byte by byte, a run of blocks, then the commands and the round trip. -/

namespace Sys2Proof.Proofs

open Sys2Proof Sys2Proof.Machine Sys2Proof.Laws

/-! ### A block of memory and its eight bytes -/

/-- A half is the `BE32` of four bytes exactly when they are its bytes, the first one most
significant (spec/20_memory.md rule R63). -/
theorem be32_eq_iff {b0 b1 b2 b3 : Byte} {w : Word} :
    be32 b0 b1 b2 b3 = w ↔ b0 = w.extractLsb' 24 8 ∧ b1 = w.extractLsb' 16 8 ∧
      b2 = w.extractLsb' 8 8 ∧ b3 = w.extractLsb' 0 8 := by
  have h0 := b0.isLt
  have h1 := b1.isLt
  have h2 := b2.isLt
  have h3 := b3.isLt
  have hw := w.isLt
  simp only [← BitVec.toNat_inj, toNat_be32, BitVec.extractLsb'_toNat, Nat.shiftRight_eq_div_pow]
  omega

/-- The eight bytes of a block (spec/20_memory.md rule R63). -/
def blockBytes (lr : Word × Word) : List Byte := wordBytes lr.1 ++ wordBytes lr.2

/-- A block of memory is `lr` exactly when its bytes are those of `lr`. -/
theorem blockAt_eq_iff {m : List Host.Cell} {a : Nat} {lr : Word × Word} :
    blockAt m a = lr ↔ ∀ k, k < 8 → memRead m (a + k) = (blockBytes lr).getD k 0#8 := by
  obtain ⟨l, r⟩ := lr
  simp only [blockAt, ← be32_eq_ofNat, Prod.mk.injEq, be32_eq_iff, Nat.forall_lt_succ_right,
    blockBytes, wordBytes]
  simp [and_assoc]

/-- Blocks whose bytes agree are equal. -/
theorem blockAt_congr {m m' : List Host.Cell} {a a' : Nat}
    (h : ∀ k, k < 8 → memRead m (a + k) = memRead m' (a' + k)) : blockAt m a = blockAt m' a' :=
  blockAt_eq_iff.mpr fun k hk => (h k hk).trans (blockAt_eq_iff.mp rfl k hk)

/-- Equal blocks have the same bytes. -/
theorem memRead_of_blockAt_eq {m m' : List Host.Cell} {a k : Nat} (h : blockAt m a = blockAt m' a)
    (hk : k < 8) : memRead m (a + k) = memRead m' (a + k) :=
  (blockAt_eq_iff.mp h k hk).trans (blockAt_eq_iff.mp rfl k hk).symm

theorem toNat_add_ofNat {a : Word} {k : Nat} (h : a.toNat + k < Config.addressLimit) :
    (a + BitVec.ofNat 32 k).toNat = a.toNat + k := by
  have hlimit : Config.addressLimit = 2 ^ 32 := rfl
  rw [BitVec.toNat_add, BitVec.toNat_ofNat]
  omega

/-- The block a command reads, where its region does not run past 2^32. -/
theorem readBlock_eq_blockAt {s : State} {a : Word} (h : a.toNat + 8 ≤ Config.addressLimit) :
    readBlock s a = blockAt s.mem a.toNat := by
  have hbyte (k : Nat) (hk : k < 8) :
      s.readByte (a + BitVec.ofNat 32 k) = memRead s.mem (a.toNat + k) := by
    rw [State.readByte, toNat_add_ofNat (by omega)]
  simp only [readBlock, blockAt, ← be32_eq_ofNat]
  rw [hbyte 1 (by decide), hbyte 2 (by decide), hbyte 3 (by decide), hbyte 4 (by decide),
    hbyte 5 (by decide), hbyte 6 (by decide), hbyte 7 (by decide)]
  rfl

/-- What memory holds after a block is written: its bytes there, every other byte as before. -/
theorem memRead_writeBlock {s : State} {a : Word} {lr : Word × Word}
    (h : a.toNat + 8 ≤ Config.addressLimit) (x : Nat) :
    memRead (writeBlock a lr s).mem x =
      if a.toNat ≤ x ∧ x < a.toNat + 8 then (blockBytes lr).getD (x - a.toNat) 0#8
      else memRead s.mem x :=
  memRead_writeBytes (blockBytes lr) a s x h

theorem blockAt_writeBlock {s : State} {a : Word} {lr : Word × Word}
    (h : a.toNat + 8 ≤ Config.addressLimit) : blockAt (writeBlock a lr s).mem a.toNat = lr :=
  blockAt_eq_iff.mpr fun k hk => by
    rw [memRead_writeBlock h, if_pos ⟨by omega, by omega⟩, Nat.add_sub_cancel_left]

/-! ### A run of blocks -/

/-- The last block of a run comes after all the others. -/
theorem cryptBlocks_succ (f : State → Word × Word → Word × Word) (n : Nat) (src dst : Word)
    (s : State) :
    cryptBlocks f (n + 1) src dst s =
      let t := cryptBlocks f n src dst s
      writeBlock (dst + BitVec.ofNat 32 (8 * n))
        (f t (readBlock t (src + BitVec.ofNat 32 (8 * n)))) t := by
  induction n generalizing src dst s with
  | zero => simp [cryptBlocks]
  | succ n ih =>
    have hnext (a : Word) :
        a + 8#32 + BitVec.ofNat 32 (8 * n) = a + BitVec.ofNat 32 (8 * (n + 1)) := by
      rw [BitVec.add_assoc, ← BitVec.ofNat_add, Nat.mul_succ, Nat.add_comm 8]
    rw [cryptBlocks, ih, hnext, hnext]
    rfl

/-- The memory of `t` holds at `dst` the cipher `g` of each block of the `len` bytes at `src` in `s`,
and is that of `s` outside the `len` bytes at `dst`. -/
def BlocksCiphered (g : Word × Word → Word × Word) (len src dst : Nat) (s t : State) : Prop :=
  SameOutside s t { base := dst, len := len } ∧
    ∀ k, k < len / 8 → blockAt t.mem (dst + 8 * k) = g (blockAt s.mem (src + 8 * k))

/-- A run of blocks between regions that are identical or share no byte, by a cipher that does not
look at memory: each block is read before any write reaches it (spec/42_blowfish.md rule R188). -/
theorem blocksCiphered_cryptBlocks {f : State → Word × Word → Word × Word}
    {g : Word × Word → Word × Word} {n : Nat} {src dst : Word} {s : State}
    (hf : ∀ m, f { s with mem := m } = g)
    (hsrc : src.toNat + 8 * n ≤ Config.addressLimit)
    (hdst : dst.toNat + 8 * n ≤ Config.addressLimit)
    (hplace : src.toNat = dst.toNat ∨ src.toNat + 8 * n ≤ dst.toNat ∨
      dst.toNat + 8 * n ≤ src.toNat) :
    BlocksCiphered g (8 * n) src.toNat dst.toNat s (cryptBlocks f n src dst s) := by
  induction n with
  | zero => exact ⟨fun _ _ => rfl, fun k hk => absurd hk (Nat.not_lt_zero k)⟩
  | succ n ih =>
    obtain ⟨houtside, hblocks⟩ := ih (by omega) (by omega) (by omega)
    have hsrcLast := toNat_add_ofNat (a := src) (k := 8 * n) (by omega)
    have hdstLast := toNat_add_ofNat (a := dst) (k := 8 * n) (by omega)
    have hfits : (dst + BitVec.ofNat 32 (8 * n)).toNat + 8 ≤ Config.addressLimit := by omega
    have hunread : blockAt (cryptBlocks f n src dst s).mem (src.toNat + 8 * n) =
        blockAt s.mem (src.toNat + 8 * n) :=
      blockAt_congr fun k hk => houtside _ (by dsimp only; omega)
    have hcipher : f (cryptBlocks f n src dst s) = g := by rw [cryptBlocks_frame, hf]
    rw [cryptBlocks_succ]
    dsimp only
    rw [hcipher, readBlock_eq_blockAt (by omega), hsrcLast, hunread]
    refine ⟨fun x hx => ?outside, fun k hk => ?block⟩
    case outside =>
      dsimp only at hx
      rw [memRead_writeBlock hfits, hdstLast, if_neg (by omega)]
      exact houtside x (by dsimp only; omega)
    case block =>
      by_cases hlast : k = n
      · rw [hlast, ← hdstLast, blockAt_writeBlock hfits]
      · rw [← hblocks k (by omega)]
        exact blockAt_congr fun i hi => by
          rw [memRead_writeBlock hfits, hdstLast, if_neg (by omega)]

/-- A cipher and then its inverse, in place, restore every byte (spec/42_blowfish.md rule R191). -/
theorem memRead_of_blocksCiphered_twice {g g' : Word × Word → Word × Word} {len a : Nat}
    {s t u : State} (hinverse : ∀ lr, g' (g lr) = lr) (hlen : len % 8 = 0)
    (hst : BlocksCiphered g len a a s t) (htu : BlocksCiphered g' len a a t u) (x : Nat) :
    memRead u.mem x = memRead s.mem x := by
  obtain ⟨hstOutside, hstBlocks⟩ := hst
  obtain ⟨htuOutside, htuBlocks⟩ := htu
  by_cases hx : a ≤ x ∧ x < a + len
  · have hk : (x - a) / 8 < len / 8 := by omega
    have hsplit : a + 8 * ((x - a) / 8) + (x - a) % 8 = x := by omega
    have hblock := htuBlocks _ hk
    rw [hstBlocks _ hk, hinverse] at hblock
    rw [← hsplit]
    exact memRead_of_blockAt_eq hblock (Nat.mod_lt _ (by decide))
  · exact (htuOutside x hx).trans (hstOutside x hx)

/-! ### The cipher commands -/

/-- What a cipher command on `len` bytes answers: the blocks ciphered, `ERR` 0, and nothing else
changed (spec/42_blowfish.md rules R186 to R189). -/
def CiphersRegion (g : Word × Word → Word × Word) (len : Nat) (s : State) (o : Outcome) : Prop :=
  ∃ t, o = .next t ∧ t = { s with mem := t.mem, status := { s.status with err := .ok } } ∧
    BlocksCiphered g len s.srcAddr.toNat s.dstAddr.toNat s t

/-- Regions that are identical or share no byte pass the overlap check of the cipher commands
(spec/20_memory.md rule R71). -/
theorem spansPartlyOverlap_of_place {r q : Span} (h : r = q ∨ SpansApart r q) :
    spansPartlyOverlap r q = false := by
  obtain rfl | hapart := h
  · simp [spansPartlyOverlap]
  · rw [spansPartlyOverlap, spansOverlap_of_spansApart hapart, Bool.false_and]

section
variable {f : State → Word × Word → Word × Word} {g : Word × Word → Word × Word} {s : State}
  {len : Nat}

/-- The checks and the run of blocks that the cipher commands share. -/
theorem ciphersRegion_launch (hf : ∀ m, f { s with mem := m } = g) (hlen : len % 8 = 0)
    (hsrc : SpanReady s.platform (srcSpan s len)) (hdst : SpanReady s.platform (dstSpan s len))
    (hplace : s.srcAddr = s.dstAddr ∨ SpansApart (srcSpan s len) (dstSpan s len)) :
    CiphersRegion g len s (launch s [srcSpan s len, dstSpan s len]
      (spansPartlyOverlap (srcSpan s len) (dstSpan s len))
      fun s => .next (cryptBlocks f (len / 8) s.srcAddr s.dstAddr s).succeed) := by
  have hclash := spansPartlyOverlap_of_place (hplace.imp_left fun h =>
    show srcSpan s len = dstSpan s len by rw [srcSpan, dstSpan, h])
  have hwhole : 8 * (len / 8) = len := by omega
  have hplaceNat : s.srcAddr.toNat = s.dstAddr.toNat ∨
      s.srcAddr.toNat + len ≤ s.dstAddr.toNat ∨ s.dstAddr.toNat + len ≤ s.srcAddr.toNat := by
    obtain heq | hapart := hplace
    · exact .inl (congrArg BitVec.toNat heq)
    · simp only [SpansApart, srcSpan, dstSpan] at hapart
      omega
  have hblocks := blocksCiphered_cryptBlocks (n := len / 8) hf (hwhole.symm ▸ hsrc.1)
    (hwhole.symm ▸ hdst.1) (hwhole.symm ▸ hplaceNat)
  rw [hwhole] at hblocks
  refine ⟨_, launch_pair_of_ready hsrc hdst hclash, ?_, hblocks⟩
  rw [cryptBlocks_frame]
  rfl

/-- A cipher command on one block (spec/42_blowfish.md rules R186, R187). -/
theorem ciphersRegion_cryptOne (hf : ∀ m, f { s with mem := m } = g)
    (hkey : s.status.keyvalid = true)
    (hsrc : SpanReady s.platform (srcSpan s 8)) (hdst : SpanReady s.platform (dstSpan s 8))
    (hplace : s.srcAddr = s.dstAddr ∨ SpansApart (srcSpan s 8) (dstSpan s 8)) :
    CiphersRegion g 8 s (cryptOne f s) := by
  rw [cryptOne, if_neg (by simp [hkey])]
  exact ciphersRegion_launch hf rfl hsrc hdst hplace

/-- A bulk cipher command (spec/42_blowfish.md rules R188, R189). -/
theorem ciphersRegion_cryptBulk (hf : ∀ m, f { s with mem := m } = g)
    (hkey : s.status.keyvalid = true) (hlen : s.srcLen.toNat % 8 = 0)
    (hsrc : SpanReady s.platform (srcSpan s s.srcLen.toNat))
    (hdst : SpanReady s.platform (dstSpan s s.srcLen.toNat))
    (hplace : s.srcAddr = s.dstAddr ∨
      SpansApart (srcSpan s s.srcLen.toNat) (dstSpan s s.srcLen.toNat)) :
    CiphersRegion g s.srcLen.toNat s (cryptBulk f s) := by
  unfold cryptBulk
  rw [if_neg (by simp [hkey]), if_neg (not_not_intro hlen)]
  exact ciphersRegion_launch hf hlen hsrc hdst hplace

end

/-- A bulk command and then its inverse, in place: the first leaves the key, the operand registers
and the platform to the second (spec/42_blowfish.md rule R191). -/
theorem cryptBulk_roundTrip {f f' : State → Word × Word → Word × Word}
    {g g' : Word × Word → Word × Word} {s : State}
    (hf : ∀ m, f { s with mem := m } = g)
    (hf' : ∀ m st, f' { s with mem := m, status := st } = g')
    (hinverse : ∀ lr, g' (g lr) = lr) (hkey : s.status.keyvalid = true)
    (hlen : s.srcLen.toNat % 8 = 0) (hplace : s.srcAddr = s.dstAddr)
    (hready : SpanReady s.platform (srcSpan s s.srcLen.toNat)) :
    ∃ t u : State, cryptBulk f s = .next t ∧ cryptBulk f' t = .next u ∧
      ∀ a, memRead u.mem a = memRead s.mem a := by
  have hdst : SpanReady s.platform (dstSpan s s.srcLen.toNat) := by
    rwa [dstSpan, ← hplace]
  obtain ⟨t, htExec, htFrame, htBlocks⟩ :=
    ciphersRegion_cryptBulk hf hkey hlen hready hdst (.inl hplace)
  have hsecond : CiphersRegion g' s.srcLen.toNat t (cryptBulk f' t) := by
    rw [htFrame]
    exact ciphersRegion_cryptBulk (fun m => hf' m _) hkey hlen hready hdst (.inl hplace)
  obtain ⟨u, huExec, -, huBlocks⟩ := hsecond
  have hsrcKept : t.srcAddr = s.srcAddr := by rw [htFrame]
  have hdstKept : t.dstAddr = s.dstAddr := by rw [htFrame]
  rw [hsrcKept, hdstKept, ← hplace] at huBlocks
  rw [← hplace] at htBlocks
  exact ⟨t, u, htExec, huExec,
    memRead_of_blocksCiphered_twice hinverse hlen htBlocks huBlocks⟩

/-- Settles O38: both commands are the one command on a block, with `Enc` and with `Dec`. -/
theorem oneBlockCommandsCipherTheBlock : Obligations.OneBlockCommandsCipherTheBlock := by
  unfold Obligations.OneBlockCommandsCipherTheBlock
  intro s hkey hsrc hdst hplace
  obtain ⟨t, htExec, htFrame, htOutside, htBlocks⟩ :=
    ciphersRegion_cryptOne (f := encWithKey) (g := encHalves s.kpAt s.ksAt) (fun _ => rfl)
      hkey hsrc hdst hplace
  obtain ⟨u, huExec, huFrame, huOutside, huBlocks⟩ :=
    ciphersRegion_cryptOne (f := decWithKey) (g := decHalves s.kpAt s.ksAt) (fun _ => rfl)
      hkey hsrc hdst hplace
  exact ⟨t, u, htExec, htFrame, htOutside, htBlocks 0 (by decide),
    huExec, huFrame, huOutside, huBlocks 0 (by decide)⟩

/-- Settles O39: both commands are the one bulk command, with `Enc` and with `Dec`. -/
theorem bulkCommandsCipherBlockByBlock : Obligations.BulkCommandsCipherBlockByBlock := by
  unfold Obligations.BulkCommandsCipherBlockByBlock
  intro s hkey hlen hsrc hdst hplace
  obtain ⟨t, htExec, htFrame, htOutside, htBlocks⟩ :=
    ciphersRegion_cryptBulk (f := encWithKey) (g := encHalves s.kpAt s.ksAt) (fun _ => rfl)
      hkey hlen hsrc hdst hplace
  obtain ⟨u, huExec, huFrame, huOutside, huBlocks⟩ :=
    ciphersRegion_cryptBulk (f := decWithKey) (g := decHalves s.kpAt s.ksAt) (fun _ => rfl)
      hkey hlen hsrc hdst hplace
  exact ⟨t, u, htExec, htFrame, htOutside, htBlocks, huExec, huFrame, huOutside, huBlocks⟩

/-- Settles O40: each cipher is the inverse of the other, in either order. -/
theorem bulkRoundTripRestoresMemory : Obligations.BulkRoundTripRestoresMemory := by
  unfold Obligations.BulkRoundTripRestoresMemory
  intro s hkey hlen hplace hready
  exact ⟨cryptBulk_roundTrip (f := encWithKey) (f' := decWithKey) (fun _ => rfl) (fun _ _ => rfl)
      (decHalves_encHalves s.kpAt s.ksAt) hkey hlen hplace hready,
    cryptBulk_roundTrip (f := decWithKey) (f' := encWithKey) (fun _ => rfl) (fun _ _ => rfl)
      (encHalves_decHalves s.kpAt s.ksAt) hkey hlen hplace hready⟩

/-! ### The key discarded -/

/-- `BF.CLRKEY` (spec/42_blowfish.md rule R190). -/
theorem exec_bfClrkey (s : State) : exec .bfClrkey s =
    .next { s.forgetKey with status := { s.status with keyvalid := false, err := .ok } } := rfl

/-- `BF.ENCB` finds no key before it checks anything else (spec/60_exceptions.md rules R296,
R303). -/
theorem exec_bfEncb_of_noKey {s : State} (h : s.status.keyvalid = false) :
    exec .bfEncb s = .next (s.raise .noKey) :=
  if_pos h

/-- Settles O44: the free values are those of the draw, and the cipher command finds no key. -/
theorem clrkeyDiscardsTheSchedule : Obligations.ClrkeyDiscardsTheSchedule := by
  unfold Obligations.ClrkeyDiscardsTheSchedule
  exact ⟨rfl, fun s => ⟨_, Config.freeP s.draws, Config.freeS s.draws, s.draws + 1,
    exec_bfClrkey s, rfl, exec_bfEncb_of_noKey rfl⟩⟩

end Sys2Proof.Proofs
end

