-- ==== Sys2Proof/Proofs/StreamCommands.lean ====
section
/-! PROOF. The LCW stream commands inside a run (spec/44_lcw.md rules R220, R223, R224, R230 to
R235): one pass of the loop, the checks in their order, and what a completed command stores. -/

namespace Sys2Proof.Proofs

open Sys2Proof Sys2Proof.Machine Sys2Proof.Laws

/-! ### One pass of the loop -/

/-- The command byte stands at `sp` (spec/44_lcw.md rule R220). -/
theorem srcByte_zero (s : State) (r : LcwRun) : srcByte s r 0 = s.readByte (s.srcAddr + r.sp) := by
  rw [srcByte, BitVec.add_zero]

/-- Where the source is used up, a pass ends the run with `SRC_END` (spec/44_lcw.md rule R226). -/
theorem step_of_sourceEnd {s : State} {r : LcwRun} (hrun : s.lcw = some r)
    (h : s.srcLen.toNat ≤ r.sp.toNat) : step s = .next (stopRun s r .srcEnd) := by
  simp only [step, hrun, streamStep, if_pos h]

/-- Where a command byte is left, a pass is the command it selects (spec/44_lcw.md rule R220). -/
theorem step_of_commandByte {s : State} {r : LcwRun} (hrun : s.lcw = some r)
    (h : r.sp.toNat < s.srcLen.toNat) : step s = exec (decodeStreamByte (srcByte s r 0)) s := by
  simp only [step, hrun, streamStep, if_neg (Nat.not_le.mpr h), decode]

/-- Settles O8. -/
theorem stepRunsTheStreamCommandAtSp : Obligations.StepRunsTheStreamCommandAtSp := by
  unfold Obligations.StepRunsTheStreamCommandAtSp
  intro s r i hrun
  refine ⟨fun hsp hi => ?_, fun hsp => step_of_sourceEnd hrun hsp.ge⟩
  rw [← srcByte_zero] at hi
  rw [step_of_commandByte hrun hsp, Except.ok.inj hi]

/-! ### The checks of a command, in their order -/

section
variable {s : State} {r : LcwRun} (hrun : s.lcw = some r)
include hrun

theorem exec_rel (ccc : BitVec 3) (dddd : BitVec 4) : exec (.rel ccc dddd) s =
    if srcLeft s r < 2 then .next (stopRun s r .abortSrc)
    else
      let distance := relDistance dddd (srcByte s r 1)
      backReference s r 2 (distance != 0 && decide (distance ≤ r.dp.toNat))
        (r.dp.toNat - distance) (relCount ccc) :=
  inRun_some hrun

theorem exec_endMark : exec .endMark s = .next (stopRun s { r with sp := r.sp + 1#32 } .endMark) :=
  inRun_some hrun

theorem exec_lit (n : BitVec 6) : exec (.lit n) s =
    if srcLeft s r < 1 + litCount n then .next (stopRun s r .abortSrc)
    else if dstLeft s r < litCount n then .next (stopRun s r .abortDst)
    else .next (advanceRun (copyBytes (s.srcAddr + r.sp + 1#32) (s.dstAddr + r.dp) (litCount n) s)
      r (1 + litCount n) (litCount n)) :=
  inRun_some hrun

theorem exec_abs (n : BitVec 6) : exec (.abs n) s =
    if srcLeft s r < 3 then .next (stopRun s r .abortSrc)
    else
      let pos := le16 (srcByte s r 1) (srcByte s r 2)
      backReference s r 3 (decide (pos < r.dp.toNat)) pos (absCount n) :=
  inRun_some hrun

theorem exec_fill : exec .fill s =
    if srcLeft s r < 4 then .next (stopRun s r .abortSrc)
    else
      let n := min (le16 (srcByte s r 1) (srcByte s r 2)) (dstLeft s r)
      .next (advanceRun (fillBytes (s.dstAddr + r.dp) (srcByte s r 3) n s) r 4 n) :=
  inRun_some hrun

theorem exec_labs : exec .labs s =
    if srcLeft s r < 5 then .next (stopRun s r .abortSrc)
    else
      let pos := le16 (srcByte s r 3) (srcByte s r 4)
      backReference s r 5 (decide (pos < r.dp.toNat)) pos
        (le16 (srcByte s r 1) (srcByte s r 2)) :=
  inRun_some hrun

end

/-- Settles O49. -/
theorem endStopsTheRun : Obligations.EndStopsTheRun := by
  unfold Obligations.EndStopsTheRun
  exact ⟨rfl, fun s r hrun => exec_endMark hrun⟩

section
variable {s : State} {r : LcwRun} {size offset count : Nat} {valid : Bool}

/-- An invalid reference stops before the space is looked at (spec/44_lcw.md rule R223). -/
theorem backReference_of_invalid (h : valid = false) :
    backReference s r size valid offset count = .next (stopRun s r .abortRef) :=
  if_pos h

theorem backReference_of_noSpace (hvalid : valid = true) (h : dstLeft s r < count) :
    backReference s r size valid offset count = .next (stopRun s r .abortDst) := by
  rw [backReference, if_neg (by simp [hvalid]), if_pos h]

theorem backReference_of_fits (hvalid : valid = true) (h : count ≤ dstLeft s r) :
    backReference s r size valid offset count = .next (advanceRun
      (copyBytes (s.dstAddr + BitVec.ofNat 32 offset) (s.dstAddr + r.dp) count s)
      r size count) := by
  rw [backReference, if_neg (by simp [hvalid]), if_neg (Nat.not_lt.mpr h)]

end

/-- The reference check of `REL` (spec/44_lcw.md rule R230). -/
theorem relValid_iff {distance dp : Nat} :
    (distance != 0 && decide (distance ≤ dp)) = true ↔ 1 ≤ distance ∧ distance ≤ dp := by
  simp only [Bool.and_eq_true, bne_iff_ne, decide_eq_true_eq, Nat.one_le_iff_ne_zero]

/-- Settles O50: each clause takes the branch of its check, those before it passed. -/
theorem streamCommandsStopInOrder : Obligations.StreamCommandsStopInOrder := by
  unfold Obligations.StreamCommandsStopInOrder
  intro s r hrun left space byte stop
  have passed {n m : Nat} (h : n ≤ m) : ¬m < n := Nat.not_lt.mpr h
  refine ⟨fun ccc dddd => ?rel, fun n => ?lit, fun n => ?abs, fun h => ?fill, ?labs⟩
  case rel =>
    refine ⟨fun h => (exec_rel hrun ..).trans (if_pos h), fun hleft href => ?_,
      fun hleft hmin hmax hspace => ?_⟩
    all_goals refine (exec_rel hrun ..).trans ((if_neg (passed hleft)).trans ?_)
    · refine backReference_of_invalid ?_
      rw [← Bool.not_eq_true, relValid_iff]
      change dddd.toNat * 256 + byte 1 = 0 ∨ _ < dddd.toNat * 256 + byte 1 at href
      change ¬(1 ≤ dddd.toNat * 256 + byte 1 ∧ dddd.toNat * 256 + byte 1 ≤ _)
      omega
    · exact backReference_of_noSpace (relValid_iff.mpr ⟨hmin, hmax⟩) hspace
  case lit =>
    exact ⟨fun h => (exec_lit hrun n).trans (if_pos h), fun hleft hspace =>
      (exec_lit hrun n).trans ((if_neg (passed hleft)).trans (if_pos hspace))⟩
  case abs =>
    refine ⟨fun h => (exec_abs hrun n).trans (if_pos h), fun hleft href => ?_,
      fun hleft href hspace => ?_⟩
    all_goals refine (exec_abs hrun n).trans ((if_neg (passed hleft)).trans ?_)
    · exact backReference_of_invalid (decide_eq_false (passed href))
    · exact backReference_of_noSpace (decide_eq_true href) hspace
  case fill => exact (exec_fill hrun).trans (if_pos h)
  case labs =>
    refine ⟨fun h => (exec_labs hrun).trans (if_pos h), fun hleft href => ?_,
      fun hleft href hspace => ?_⟩
    all_goals refine (exec_labs hrun).trans ((if_neg (passed hleft)).trans ?_)
    · exact backReference_of_invalid (decide_eq_false (passed href))
    · exact backReference_of_noSpace (decide_eq_true href) hspace

/-! ### Addresses inside the regions of a run -/

/-- What a run of `LCW.DEC` keeps: offsets inside its regions (spec/44_lcw.md rule R236 (i)), which
do not run past 2^32 and share no byte. -/
structure RunInside (s : State) (r : LcwRun) : Prop where
  sp_le : r.sp.toNat ≤ s.srcLen.toNat
  dp_le : r.dp.toNat ≤ s.dstLen.toNat
  src_fits : s.srcAddr.toNat + s.srcLen.toNat ≤ Config.addressLimit
  dst_fits : s.dstAddr.toNat + s.dstLen.toNat ≤ Config.addressLimit
  apart : SpansApart (srcSpan s s.srcLen.toNat) (dstSpan s s.dstLen.toNat)

/-- A region named by two registers that passes the range check ends inside the address space; an
empty one does so wherever it is. -/
theorem fits_of_spanInRange {a : Word} {n : Nat}
    (h : spanInRange { base := a.toNat, len := n } = true) :
    a.toNat + n ≤ Config.addressLimit := by
  have ha := toNat_lt_addressLimit a
  obtain h | h := (spanInRange_iff ..).mp h <;> omega

/-- Regions that do not overlap share no byte. -/
theorem spansApart_of_spansOverlap {r q : Span} (h : spansOverlap r q = false) :
    SpansApart r q := by
  rw [← Bool.not_eq_true] at h
  simp only [spansOverlap, Bool.and_eq_true, bne_iff_ne, decide_eq_true_eq] at h
  unfold SpansApart
  omega

theorem runInside_of_good {s : State} {r : LcwRun} (hs : s.good = true) (hrun : s.lcw = some r) :
    RunInside s r := by
  obtain ⟨-, -, hwithin⟩ := good_iff.mp hs
  obtain ⟨hsp, hdp, hpass, -⟩ := runWithin_iff.mp (hwithin r hrun)
  obtain ⟨hrange, hclash, -⟩ := portError_eq_none.mp hpass
  simp only [List.all_cons, List.all_nil, Bool.and_true, Bool.and_eq_true] at hrange
  obtain ⟨hsrc, hdst⟩ := hrange
  exact ⟨hsp, hdp, fits_of_spanInRange hsrc, fits_of_spanInRange hdst,
    spansApart_of_spansOverlap hclash⟩

theorem toNat_add_of_fits {a b : Word} (h : a.toNat + b.toNat < Config.addressLimit) :
    (a + b).toNat = a.toNat + b.toNat := by
  rw [BitVec.toNat_add]
  exact Nat.mod_eq_of_lt h

section
variable {s : State} {r : LcwRun} (h : RunInside s r)
include h

theorem sp_add_le_of_left {size : Nat} (hleft : size ≤ srcLeft s r) :
    r.sp.toNat + size ≤ s.srcLen.toNat := by
  have hsp := h.sp_le
  unfold srcLeft at hleft
  omega

theorem dp_add_le_of_space {count : Nat} (hspace : count ≤ dstLeft s r) :
    r.dp.toNat + count ≤ s.dstLen.toNat := by
  have hdp := h.dp_le
  unfold dstLeft at hspace
  omega

/-- The address of the command byte, where there is one. -/
theorem toNat_srcAddr_add_sp (hsp : r.sp.toNat < s.srcLen.toNat) :
    (s.srcAddr + r.sp).toNat = s.srcAddr.toNat + r.sp.toNat := by
  have hfits := h.src_fits
  exact toNat_add_of_fits (by omega)

/-- The address of the next output byte, where there is room for one. -/
theorem toNat_dstAddr_add_dp (hdp : r.dp.toNat < s.dstLen.toNat) :
    (s.dstAddr + r.dp).toNat = s.dstAddr.toNat + r.dp.toNat := by
  have hfits := h.dst_fits
  exact toNat_add_of_fits (by omega)

/-- `src[sp + k]` of a byte that is there (spec/44_lcw.md rule R236 (ii)). -/
theorem srcByte_eq_memRead {k : Nat} (hk : r.sp.toNat + k < s.srcLen.toNat) :
    srcByte s r k = memRead s.mem (s.srcAddr.toNat + r.sp.toNat + k) := by
  have hfits := h.src_fits
  have hbase := toNat_srcAddr_add_sp h (by omega)
  rw [srcByte, State.readByte, toNat_add_ofNat (by omega), hbase]

end

/-! ### A command that completes -/

/-- The offsets after a command of `size` bytes that stored `count` (spec/44_lcw.md rule R237). -/
def advancedRun (r : LcwRun) (size count : Nat) : LcwRun :=
  { sp := r.sp + BitVec.ofNat 32 size, dp := r.dp + BitVec.ofNat 32 count }

/-- A stream command has completed: the offsets advanced, memory changed in the `count` bytes from
`dp` on at most, nothing else changed (spec/44_lcw.md rules R236 (iii), R237). -/
def Advances (s : State) (r : LcwRun) (size count : Nat) (t : State) : Prop :=
  t = { s with mem := t.mem, lcw := some (advancedRun r size count) } ∧
    SameOutside s t { base := s.dstAddr.toNat + r.dp.toNat, len := count }

theorem advances_of_no_output (s : State) (r : LcwRun) (size : Nat) :
    Advances s r size 0 (advanceRun s r size 0) :=
  ⟨rfl, fun _ _ => rfl⟩

section
variable {s : State} {r : LcwRun} {count : Nat} (h : RunInside s r)
  (hspace : r.dp.toNat + count ≤ s.dstLen.toNat)
include h hspace

theorem advances_copyBytes (src : Word) (size : Nat) :
    Advances s r size count
      (advanceRun (copyBytes src (s.dstAddr + r.dp) count s) r size count) := by
  obtain rfl | hcount := Nat.eq_zero_or_pos count
  · exact advances_of_no_output s r size
  have hfits := h.dst_fits
  have hdst := toNat_dstAddr_add_dp h (by omega)
  refine ⟨by rw [copyBytes_frame]; rfl, fun a ha => ?_⟩
  exact memRead_copyBytes_outside _ _ _ _ _ (by omega) (by simp only at ha; omega)

theorem advances_fillBytes (v : Byte) (size : Nat) :
    Advances s r size count
      (advanceRun (fillBytes (s.dstAddr + r.dp) v count s) r size count) := by
  obtain rfl | hcount := Nat.eq_zero_or_pos count
  · exact advances_of_no_output s r size
  have hfits := h.dst_fits
  have hdst := toNat_dstAddr_add_dp h (by omega)
  refine ⟨by rw [fillBytes_frame]; rfl, fun a ha => ?_⟩
  rw [advanceRun_mem, memRead_fillBytes _ _ _ _ _ (by omega), hdst, if_neg ha]

/-- The bytes `FILL` stores. -/
theorem memRead_fillBytes_dst {k : Nat} (hk : k < count) (v : Byte) :
    memRead (fillBytes (s.dstAddr + r.dp) v count s).mem (s.dstAddr.toNat + r.dp.toNat + k) =
      v := by
  have hfits := h.dst_fits
  have hdst := toNat_dstAddr_add_dp h (by omega)
  rw [memRead_fillBytes _ _ _ _ _ (by omega), hdst, if_pos ⟨by omega, by omega⟩]

/-- The bytes `CopyOut` stores repeat those from `offset` on (spec/44_lcw.md rule R224). -/
theorem memRead_copyBytes_reference {offset k : Nat} (hoffset : offset < r.dp.toNat)
    (hk : k < count) :
    let m := (copyBytes (s.dstAddr + BitVec.ofNat 32 offset) (s.dstAddr + r.dp) count s).mem
    memRead m (s.dstAddr.toNat + r.dp.toNat + k) = memRead m (s.dstAddr.toNat + offset + k) := by
  have hfits := h.dst_fits
  have hdst := toNat_dstAddr_add_dp h (by omega)
  have hsrc : (s.dstAddr + BitVec.ofNat 32 offset).toNat = s.dstAddr.toNat + offset :=
    toNat_add_ofNat (by omega)
  have hcopy := memRead_copyBytes_below count (s.dstAddr + BitVec.ofNat 32 offset)
    (s.dstAddr + r.dp) s k (by omega) (by omega) hk
  rwa [hdst, hsrc] at hcopy

/-- The bytes `LIT` stores: source and destination share no byte (spec/44_lcw.md rule R232). -/
theorem memRead_copyBytes_literal {k : Nat} (hleft : r.sp.toNat + 1 + count ≤ s.srcLen.toNat)
    (hk : k < count) :
    memRead (copyBytes (s.srcAddr + r.sp + 1#32) (s.dstAddr + r.dp) count s).mem
        (s.dstAddr.toNat + r.dp.toNat + k) =
      memRead s.mem (s.srcAddr.toNat + r.sp.toNat + 1 + k) := by
  have hsrcFits := h.src_fits
  have hdstFits := h.dst_fits
  have hapart := h.apart
  simp only [SpansApart, srcSpan, dstSpan] at hapart
  have hdst := toNat_dstAddr_add_dp h (by omega)
  have hbase := toNat_srcAddr_add_sp h (by omega)
  have hsrc : (s.srcAddr + r.sp + 1#32).toNat = s.srcAddr.toNat + r.sp.toNat + 1 := by
    rw [toNat_add_ofNat (by omega), hbase]
  have hcopy := memRead_copyBytes_disjoint count (s.srcAddr + r.sp + 1#32) (s.dstAddr + r.dp) s k
    (by omega) (by omega) (by omega) hk
  rwa [hdst, hsrc] at hcopy

/-- A back-reference that is valid and fits: it completes, and the bytes stored repeat those from
`offset` on (spec/44_lcw.md rules R223, R224). -/
theorem backReference_completes {offset : Nat} {valid : Bool} (size : Nat) (hvalid : valid = true)
    (hoffset : offset < r.dp.toNat) :
    ∃ t, backReference s r size valid offset count = .next t ∧ Advances s r size count t ∧
      ∀ k, k < count → memRead t.mem (s.dstAddr.toNat + r.dp.toNat + k) =
        memRead t.mem (s.dstAddr.toNat + offset + k) :=
  ⟨_, backReference_of_fits hvalid (by unfold dstLeft; omega), advances_copyBytes h hspace _ size,
    fun _ hk => memRead_copyBytes_reference h hspace hoffset hk⟩

end

/-- Settles O45: `distance` bytes back is the offset `dp - distance`. -/
theorem relRepeatsEarlierOutput : Obligations.RelRepeatsEarlierOutput := by
  unfold Obligations.RelRepeatsEarlierOutput
  intro s r ccc dddd hs hrun hleft count distance hmin hmax hspace
  have h := runInside_of_good hs hrun
  have hdistance : relDistance dddd (srcByte s r 1) = distance := by
    rw [srcByte_eq_memRead h (by omega)]
    rfl
  obtain ⟨t, hexec, ⟨hframe, houtside⟩, hbytes⟩ := backReference_completes h hspace 2
    (relValid_iff.mpr ⟨hmin, hmax⟩) (offset := r.dp.toNat - distance) (by omega)
  refine ⟨t, ?_, hframe, houtside, fun k hk => ?_⟩
  · rw [exec_rel hrun, if_neg (by unfold srcLeft; omega), hdistance]
    exact hexec
  · rw [hbytes k hk]
    congr 1
    omega

/-- Settles O46: both commands are the back-reference to `pos`. -/
theorem absoluteReferencesRepeatEarlierOutput :
    Obligations.AbsoluteReferencesRepeatEarlierOutput := by
  unfold Obligations.AbsoluteReferencesRepeatEarlierOutput
  intro s r i size count pos hs hrun hleft hi hpos hspace
  have h := runInside_of_good hs hrun
  have hbyte (k : Nat) (hk : k < size) := srcByte_eq_memRead (k := k) h (by omega)
  obtain ⟨t, hreference, ⟨hframe, houtside⟩, hbytes⟩ :=
    backReference_completes h hspace size (decide_eq_true hpos) hpos
  refine ⟨t, ?_, hframe, houtside, hbytes⟩
  rw [← hreference]
  obtain ⟨n, rfl, rfl, rfl, rfl⟩ | ⟨rfl, rfl, rfl, rfl⟩ := hi
  · rw [exec_abs hrun, if_neg (by unfold srcLeft; omega), hbyte 1 (by decide),
      hbyte 2 (by decide)]
    rfl
  · rw [exec_labs hrun, if_neg (by unfold srcLeft; omega), hbyte 1 (by decide),
      hbyte 2 (by decide), hbyte 3 (by decide), hbyte 4 (by decide)]
    rfl

/-- Settles O47. -/
theorem litCopiesTheLiteralBytes : Obligations.LitCopiesTheLiteralBytes := by
  unfold Obligations.LitCopiesTheLiteralBytes
  intro s r n hs hrun hleft hspace
  have h := runInside_of_good hs hrun
  obtain ⟨hframe, houtside⟩ :=
    advances_copyBytes h hspace (s.srcAddr + r.sp + 1#32) (1 + n.toNat)
  refine ⟨_, ?_, hframe, houtside, fun k hk => memRead_copyBytes_literal h hspace hleft hk⟩
  rw [exec_lit hrun, litCount, if_neg (by unfold srcLeft; omega),
    if_neg (by unfold dstLeft; omega)]

/-- Settles O48: the clipped count always fits. -/
theorem fillIsClippedToTheCapacity : Obligations.FillIsClippedToTheCapacity := by
  unfold Obligations.FillIsClippedToTheCapacity
  intro s r hs hrun hleft byte n
  have h := runInside_of_good hs hrun
  have hspace := dp_add_le_of_space h (Nat.min_le_right _ _ : n ≤ dstLeft s r)
  have hbyte (k : Nat) (hk : k < 4) : srcByte s r k = byte k :=
    srcByte_eq_memRead h (by omega)
  obtain ⟨hframe, houtside⟩ := advances_fillBytes h hspace (byte 3) 4
  refine ⟨_, ?_, hframe, houtside, fun k hk => memRead_fillBytes_dst h hspace hk (byte 3)⟩
  rw [exec_fill hrun, if_neg (by unfold srcLeft; omega), hbyte 1 (by decide),
    hbyte 2 (by decide), hbyte 3 (by decide)]
  rfl

end Sys2Proof.Proofs
end

