-- ==== Sys2Proof/Proofs/Decompressor.lean ====
section
/-! PROOF. `LCW.DEC` (spec/44_lcw.md rules R220, R225, R236): two runs on the same source bytes and
the same capacity go pass by pass alike, and each ends inside its regions. That one run ends inside
its regions is the case of a run beside itself. -/

namespace Sys2Proof.Proofs

open Sys2Proof Sys2Proof.Machine Sys2Proof.Laws

/-! ### Runs alike -/

/-- Two runs at the same offsets with the same source bytes, capacity and output so far
(spec/44_lcw.md rule R236 (vi)). -/
structure RunsAlike (s₁ s₂ : State) (r : LcwRun) : Prop where
  run₁ : s₁.lcw = some r
  run₂ : s₂.lcw = some r
  inside₁ : RunInside s₁ r
  inside₂ : RunInside s₂ r
  srcLen : s₁.srcLen = s₂.srcLen
  dstLen : s₁.dstLen = s₂.dstLen
  source : ∀ k, k < s₁.srcLen.toNat →
    memRead s₁.mem (s₁.srcAddr.toNat + k) = memRead s₂.mem (s₂.srcAddr.toNat + k)
  output : ∀ k, k < r.dp.toNat →
    memRead s₁.mem (s₁.dstAddr.toNat + k) = memRead s₂.mem (s₂.dstAddr.toNat + k)

/-- One pass of each run: both stop for the same reason at the same place, or both complete a
command of the same size with the same new output bytes. -/
inductive PassesAlike (s₁ s₂ : State) (r : LcwRun) : Outcome → Outcome → Prop where
  | stops (sp : Word) (why : LcwStop) (hsp : sp.toNat ≤ s₁.srcLen.toNat) (hwhy : why ≠ .unset) :
    PassesAlike s₁ s₂ r (.next (stopRun s₁ { r with sp := sp } why))
      (.next (stopRun s₂ { r with sp := sp } why))
  | advances {t₁ t₂ : State} (size count : Nat) (hsize : 0 < size) (hleft : size ≤ srcLeft s₁ r)
    (hspace : count ≤ dstLeft s₁ r) (ht₁ : Advances s₁ r size count t₁)
    (ht₂ : Advances s₂ r size count t₂)
    (hbytes : ∀ k, k < count → memRead t₁.mem (s₁.dstAddr.toNat + r.dp.toNat + k) =
      memRead t₂.mem (s₂.dstAddr.toNat + r.dp.toNat + k)) :
    PassesAlike s₁ s₂ r (.next t₁) (.next t₂)

section
variable {s₁ s₂ : State} {r : LcwRun} (h : RunsAlike s₁ s₂ r)
include h

theorem srcLeft_eq_of_alike : srcLeft s₂ r = srcLeft s₁ r := by rw [srcLeft, srcLeft, h.srcLen]

theorem dstLeft_eq_of_alike : dstLeft s₂ r = dstLeft s₁ r := by rw [dstLeft, dstLeft, h.dstLen]

theorem srcByte_eq_of_alike {k : Nat} (hk : k < srcLeft s₁ r) :
    srcByte s₂ r k = srcByte s₁ r k := by
  have hlast : r.sp.toNat + k < s₁.srcLen.toNat := sp_add_le_of_left h.inside₁ hk
  rw [srcByte_eq_memRead h.inside₁ hlast, srcByte_eq_memRead h.inside₂ (h.srcLen ▸ hlast),
    Nat.add_assoc, Nat.add_assoc, h.source _ hlast]

/-- A stop that leaves `sp` where it is. -/
theorem passesAlike_abort {why : LcwStop} (hwhy : why ≠ .unset) :
    PassesAlike s₁ s₂ r (.next (stopRun s₁ r why)) (.next (stopRun s₂ r why)) :=
  .stops r.sp why h.inside₁.sp_le hwhy

/-- Copies of the same bytes already written, or of bytes written by the copies themselves. -/
theorem memRead_eq_of_repeats {t₁ t₂ : State} {size offset count : Nat}
    (ht₁ : Advances s₁ r size count t₁) (ht₂ : Advances s₂ r size count t₂)
    (hoffset : offset < r.dp.toNat)
    (hrepeat₁ : ∀ k, k < count → memRead t₁.mem (s₁.dstAddr.toNat + r.dp.toNat + k) =
      memRead t₁.mem (s₁.dstAddr.toNat + offset + k))
    (hrepeat₂ : ∀ k, k < count → memRead t₂.mem (s₂.dstAddr.toNat + r.dp.toNat + k) =
      memRead t₂.mem (s₂.dstAddr.toNat + offset + k)) (k : Nat) (hk : k < count) :
    memRead t₁.mem (s₁.dstAddr.toNat + r.dp.toNat + k) =
      memRead t₂.mem (s₂.dstAddr.toNat + r.dp.toNat + k) := by
  obtain ⟨-, houtside₁⟩ := ht₁
  obtain ⟨-, houtside₂⟩ := ht₂
  induction k using Nat.strong_induction_on with
  | _ k ih =>
    rw [hrepeat₁ k hk, hrepeat₂ k hk]
    obtain hold | ⟨j, hj⟩ : offset + k < r.dp.toNat ∨ ∃ j, offset + k = r.dp.toNat + j :=
      (Nat.lt_or_ge _ _).imp_right Nat.exists_eq_add_of_le
    · rw [houtside₁ _ (by simp only; omega), houtside₂ _ (by simp only; omega),
        Nat.add_assoc, Nat.add_assoc, h.output _ hold]
    · rw [Nat.add_assoc, Nat.add_assoc, hj, ← Nat.add_assoc, ← Nat.add_assoc,
        ih j (by omega) (by omega)]

theorem passesAlike_backReference {size offset count : Nat} {valid : Bool} (hsize : 0 < size)
    (hleft : ¬srcLeft s₁ r < size) (hoffset : valid = true → offset < r.dp.toNat) :
    PassesAlike s₁ s₂ r (backReference s₁ r size valid offset count)
      (backReference s₂ r size valid offset count) := by
  by_cases hvalid : valid = true
  case neg =>
    have hvalid : valid = false := by simpa using hvalid
    rw [backReference_of_invalid hvalid, backReference_of_invalid hvalid]
    exact passesAlike_abort h (by decide)
  by_cases hspace : dstLeft s₁ r < count
  case pos =>
    rw [backReference_of_noSpace hvalid hspace,
      backReference_of_noSpace hvalid (by rwa [dstLeft_eq_of_alike h])]
    exact passesAlike_abort h (by decide)
  have hfits := dp_add_le_of_space h.inside₁ (Nat.not_lt.mp hspace)
  obtain ⟨t₁, hexec₁, ht₁, hrepeat₁⟩ :=
    backReference_completes h.inside₁ hfits size hvalid (hoffset hvalid)
  obtain ⟨t₂, hexec₂, ht₂, hrepeat₂⟩ :=
    backReference_completes h.inside₂ (h.dstLen ▸ hfits) size hvalid (hoffset hvalid)
  rw [hexec₁, hexec₂]
  exact .advances size count hsize (by omega) (by omega) ht₁ ht₂
    (memRead_eq_of_repeats h ht₁ ht₂ (hoffset hvalid) hrepeat₁ hrepeat₂)

theorem passesAlike_literal {count : Nat} (hleft : ¬srcLeft s₁ r < 1 + count)
    (hspace : ¬dstLeft s₁ r < count) :
    PassesAlike s₁ s₂ r
      (.next (advanceRun (copyBytes (s₁.srcAddr + r.sp + 1#32) (s₁.dstAddr + r.dp) count s₁) r
        (1 + count) count))
      (.next (advanceRun (copyBytes (s₂.srcAddr + r.sp + 1#32) (s₂.dstAddr + r.dp) count s₂) r
        (1 + count) count)) := by
  have hsource := sp_add_le_of_left h.inside₁ (Nat.not_lt.mp hleft)
  rw [← Nat.add_assoc] at hsource
  have hfits := dp_add_le_of_space h.inside₁ (Nat.not_lt.mp hspace)
  refine .advances (1 + count) count (by omega) (by omega) (by omega)
    (advances_copyBytes h.inside₁ hfits _ _)
    (advances_copyBytes h.inside₂ (h.dstLen ▸ hfits) _ _) fun k hk => ?_
  rw [advanceRun_mem, advanceRun_mem, memRead_copyBytes_literal h.inside₁ hfits hsource hk,
    memRead_copyBytes_literal h.inside₂ (h.dstLen ▸ hfits) (h.srcLen ▸ hsource) hk]
  simp only [Nat.add_assoc]
  exact h.source _ (by omega)

theorem passesAlike_fill {count : Nat} {v : Byte} (hleft : ¬srcLeft s₁ r < 4)
    (hspace : count ≤ dstLeft s₁ r) :
    PassesAlike s₁ s₂ r
      (.next (advanceRun (fillBytes (s₁.dstAddr + r.dp) v count s₁) r 4 count))
      (.next (advanceRun (fillBytes (s₂.dstAddr + r.dp) v count s₂) r 4 count)) := by
  have hfits := dp_add_le_of_space h.inside₁ hspace
  refine .advances 4 count (by decide) (by omega) hspace (advances_fillBytes h.inside₁ hfits _ _)
    (advances_fillBytes h.inside₂ (h.dstLen ▸ hfits) _ _) fun k hk => ?_
  rw [advanceRun_mem, advanceRun_mem, memRead_fillBytes_dst h.inside₁ hfits hk,
    memRead_fillBytes_dst h.inside₂ (h.dstLen ▸ hfits) hk]

/-- A check on what both runs have alike: both stop, or both go on. -/
theorem passesAlike_check {c : Prop} [Decidable c] {why : LcwStop} {o₁ o₂ : Outcome}
    (hwhy : why ≠ .unset) (ho : ¬c → PassesAlike s₁ s₂ r o₁ o₂) :
    PassesAlike s₁ s₂ r (if c then .next (stopRun s₁ r why) else o₁)
      (if c then .next (stopRun s₂ r why) else o₂) := by
  split
  case isTrue => exact passesAlike_abort h hwhy
  case isFalse hc => exact ho hc

/-- A stream command, by cases on the command: its checks read what both runs have alike. -/
theorem passesAlike_exec {i : Instr} (hi : i.isStream = true)
    (hsp : r.sp.toNat < s₁.srcLen.toNat) : PassesAlike s₁ s₂ r (exec i s₁) (exec i s₂) := by
  have hdp := h.inside₁.dp_le
  have hbyte {n k : Nat} (hn : ¬srcLeft s₁ r < n) (hk : k < n) : srcByte s₂ r k = srcByte s₁ r k :=
    srcByte_eq_of_alike h (by omega)
  cases i
  case rel ccc dddd =>
    rw [exec_rel h.run₁, exec_rel h.run₂, srcLeft_eq_of_alike h]
    refine passesAlike_check h (by decide) fun hleft => ?_
    rw [hbyte hleft (by decide)]
    refine passesAlike_backReference h (by decide) hleft fun hvalid => ?_
    obtain ⟨hmin, hmax⟩ := relValid_iff.mp hvalid
    omega
  case endMark =>
    rw [exec_endMark h.run₁, exec_endMark h.run₂]
    exact .stops _ _ (toNat_add_ofNat_le h.inside₁.sp_le (by omega)) (by decide)
  case lit n =>
    rw [exec_lit h.run₁, exec_lit h.run₂, srcLeft_eq_of_alike h, dstLeft_eq_of_alike h]
    exact passesAlike_check h (by decide) fun hleft =>
      passesAlike_check h (by decide) fun hspace => passesAlike_literal h hleft hspace
  case abs n =>
    rw [exec_abs h.run₁, exec_abs h.run₂, srcLeft_eq_of_alike h]
    refine passesAlike_check h (by decide) fun hleft => ?_
    rw [hbyte hleft (k := 1) (by decide), hbyte hleft (k := 2) (by decide)]
    exact passesAlike_backReference h (by decide) hleft of_decide_eq_true
  case fill =>
    rw [exec_fill h.run₁, exec_fill h.run₂, srcLeft_eq_of_alike h, dstLeft_eq_of_alike h]
    refine passesAlike_check h (by decide) fun hleft => ?_
    rw [hbyte hleft (k := 1) (by decide), hbyte hleft (k := 2) (by decide),
      hbyte hleft (k := 3) (by decide)]
    exact passesAlike_fill h hleft (Nat.min_le_right ..)
  case labs =>
    rw [exec_labs h.run₁, exec_labs h.run₂, srcLeft_eq_of_alike h]
    refine passesAlike_check h (by decide) fun hleft => ?_
    rw [hbyte hleft (k := 1) (by decide), hbyte hleft (k := 2) (by decide),
      hbyte hleft (k := 3) (by decide), hbyte hleft (k := 4) (by decide)]
    exact passesAlike_backReference h (by decide) hleft of_decide_eq_true
  all_goals exact absurd hi Bool.false_ne_true

/-- One step of each machine: the end of the source, or the same command (spec/44_lcw.md rule
R220). -/
theorem passesAlike_step : PassesAlike s₁ s₂ r (step s₁) (step s₂) := by
  obtain hsp | hend := Nat.lt_or_ge r.sp.toNat s₁.srcLen.toNat
  · rw [step_of_commandByte h.run₁ hsp, step_of_commandByte h.run₂ (h.srcLen ▸ hsp),
      srcByte_eq_of_alike h (by unfold srcLeft; omega)]
    exact passesAlike_exec h (decodeStreamByte_isStream _) hsp
  · rw [step_of_sourceEnd h.run₁ hend, step_of_sourceEnd h.run₂ (h.srcLen ▸ hend)]
    exact passesAlike_abort h (by decide)

end

/-! ### What an advance keeps -/

section
variable {s t : State} {r : LcwRun} {size count : Nat}

theorem samePorts_of_advances (ht : Advances s r size count t) : SamePorts s t := by
  obtain ⟨hframe, -⟩ := ht
  constructor <;> rw [hframe]

theorem lcw_of_advances (ht : Advances s r size count t) :
    t.lcw = some (advancedRun r size count) := by
  obtain ⟨hframe, -⟩ := ht
  rw [hframe]

theorem toNat_advancedRun_sp (h : RunInside s r) (hleft : size ≤ srcLeft s r) :
    (advancedRun r size count).sp.toNat = r.sp.toNat + size :=
  toNat_add_ofNat ((sp_add_le_of_left h hleft).trans_lt (toNat_lt_addressLimit _))

theorem toNat_advancedRun_dp (h : RunInside s r) (hspace : count ≤ dstLeft s r) :
    (advancedRun r size count).dp.toNat = r.dp.toNat + count :=
  toNat_add_ofNat ((dp_add_le_of_space h hspace).trans_lt (toNat_lt_addressLimit _))

/-- The source bytes are not written: the regions share no byte (spec/44_lcw.md rule R220). -/
theorem memRead_source_of_advances (h : RunInside s r) (hspace : count ≤ dstLeft s r)
    (ht : Advances s r size count t) {k : Nat} (hk : k < s.srcLen.toNat) :
    memRead t.mem (s.srcAddr.toNat + k) = memRead s.mem (s.srcAddr.toNat + k) := by
  obtain ⟨-, houtside⟩ := ht
  have hapart := h.apart
  have hend := dp_add_le_of_space h hspace
  simp only [SpansApart, srcSpan, dstSpan] at hapart
  exact houtside _ (by simp only; omega)

theorem runInside_of_advances (h : RunInside s r) (hleft : size ≤ srcLeft s r)
    (hspace : count ≤ dstLeft s r) (ht : Advances s r size count t) :
    RunInside t (advancedRun r size count) := by
  obtain ⟨-, hsrcAddr, hsrcLen, hdstAddr, hdstLen⟩ := samePorts_of_advances ht
  obtain ⟨hsp, hdp, hsrcFits, hdstFits, hapart⟩ := h
  constructor <;> simp only [srcSpan, dstSpan, hsrcAddr, hsrcLen, hdstAddr, hdstLen]
  case sp_le => exact toNat_add_ofNat_le hsp hleft
  case dp_le => exact toNat_add_ofNat_le hdp hspace
  case src_fits => exact hsrcFits
  case dst_fits => exact hdstFits
  case apart => exact hapart

end

/-- After a pass that completes alike, the runs are alike at the new offsets. -/
theorem runsAlike_of_advances {s₁ s₂ t₁ t₂ : State} {r : LcwRun} {size count : Nat}
    (h : RunsAlike s₁ s₂ r) (hleft : size ≤ srcLeft s₁ r) (hspace : count ≤ dstLeft s₁ r)
    (ht₁ : Advances s₁ r size count t₁) (ht₂ : Advances s₂ r size count t₂)
    (hbytes : ∀ k, k < count → memRead t₁.mem (s₁.dstAddr.toNat + r.dp.toNat + k) =
      memRead t₂.mem (s₂.dstAddr.toNat + r.dp.toNat + k)) :
    RunsAlike t₁ t₂ (advancedRun r size count) := by
  have hleft₂ : size ≤ srcLeft s₂ r := by rwa [srcLeft_eq_of_alike h]
  have hspace₂ : count ≤ dstLeft s₂ r := by rwa [dstLeft_eq_of_alike h]
  obtain ⟨-, hsrcAddr₁, hsrcLen₁, hdstAddr₁, hdstLen₁⟩ := samePorts_of_advances ht₁
  obtain ⟨-, hsrcAddr₂, hsrcLen₂, hdstAddr₂, hdstLen₂⟩ := samePorts_of_advances ht₂
  refine ⟨lcw_of_advances ht₁, lcw_of_advances ht₂,
    runInside_of_advances h.inside₁ hleft hspace ht₁,
    runInside_of_advances h.inside₂ hleft₂ hspace₂ ht₂,
    by rw [hsrcLen₁, hsrcLen₂, h.srcLen], by rw [hdstLen₁, hdstLen₂, h.dstLen],
    fun k hk => ?source, fun k hk => ?output⟩
  case source =>
    rw [hsrcLen₁] at hk
    rw [hsrcAddr₁, hsrcAddr₂, memRead_source_of_advances h.inside₁ hspace ht₁ hk,
      memRead_source_of_advances h.inside₂ hspace₂ ht₂ (h.srcLen ▸ hk), h.source k hk]
  case output =>
    rw [toNat_advancedRun_dp h.inside₁ hspace] at hk
    rw [hdstAddr₁, hdstAddr₂]
    obtain hold | ⟨j, rfl⟩ : k < r.dp.toNat ∨ ∃ j, k = r.dp.toNat + j :=
      (Nat.lt_or_ge _ _).imp_right Nat.exists_eq_add_of_le
    · obtain ⟨-, houtside₁⟩ := ht₁
      obtain ⟨-, houtside₂⟩ := ht₂
      rw [houtside₁ _ (by simp only; omega), houtside₂ _ (by simp only; omega), h.output k hold]
    · rw [← Nat.add_assoc, ← Nat.add_assoc, hbytes j (by omega)]

/-! ### The end of a run -/

/-- A run from `s` at `r` has ended in `t` without error, with a stop reason, inside its regions; it
changed the bytes from `dp` to `RESULT` at most (spec/44_lcw.md rule R236 (i), (iii), (v)). -/
structure EndsInside (s : State) (r : LcwRun) (t : State) : Prop where
  idle : t.lcw = none
  err : t.status.err = .ok
  stop : t.status.lcwStop ≠ .unset
  dp_le : r.dp.toNat ≤ t.result.toNat
  result_le : t.result.toNat ≤ s.dstLen.toNat
  lcwSp_le : t.lcwSp.toNat ≤ s.srcLen.toNat
  outside : SameOutside s t
    { base := s.dstAddr.toNat + r.dp.toNat, len := t.result.toNat - r.dp.toNat }

/-- Runs from `s₁` and `s₂` have ended with the same results and the same output (spec/44_lcw.md
rule R236 (vi)). -/
structure EndsAlike (s₁ s₂ t₁ t₂ : State) : Prop where
  result : t₁.result = t₂.result
  lcwSp : t₁.lcwSp = t₂.lcwSp
  stop : t₁.status.lcwStop = t₂.status.lcwStop
  output : ∀ k, k < t₁.result.toNat →
    memRead t₁.mem (s₁.dstAddr.toNat + k) = memRead t₂.mem (s₂.dstAddr.toNat + k)

theorem endsInside_stopRun {s : State} {r : LcwRun} {sp : Word} {why : LcwStop} (h : RunInside s r)
    (hsp : sp.toNat ≤ s.srcLen.toNat) (hwhy : why ≠ .unset) :
    EndsInside s r (stopRun s { r with sp := sp } why) :=
  ⟨rfl, rfl, hwhy, le_rfl, h.dp_le, hsp, fun _ _ => rfl⟩

/-- A command that completes, and the rest of the run. -/
theorem endsInside_of_advances {s u t : State} {r : LcwRun} {size count : Nat} (h : RunInside s r)
    (hspace : count ≤ dstLeft s r) (hu : Advances s r size count u)
    (ht : EndsInside u (advancedRun r size count) t) : EndsInside s r t := by
  obtain ⟨-, -, hsrcLen, hdstAddr, hdstLen⟩ := samePorts_of_advances hu
  obtain ⟨-, houtside⟩ := hu
  obtain ⟨hidle, herr, hstop, hdp, hresult, hsp, hrest⟩ := ht
  rw [toNat_advancedRun_dp h hspace] at hdp hrest
  rw [hdstAddr] at hrest
  refine ⟨hidle, herr, hstop, by omega, hdstLen ▸ hresult, hsrcLen ▸ hsp, fun a ha => ?_⟩
  simp only at ha
  rw [hrest a (by simp only; omega), houtside a (by simp only; omega)]

theorem endsAlike_of_advances {s₁ s₂ u₁ u₂ t₁ t₂ : State} {r : LcwRun} {size count : Nat}
    (hu₁ : Advances s₁ r size count u₁) (hu₂ : Advances s₂ r size count u₂)
    (ht : EndsAlike u₁ u₂ t₁ t₂) : EndsAlike s₁ s₂ t₁ t₂ := by
  obtain ⟨hresult, hsp, hstop, houtput⟩ := ht
  rw [(samePorts_of_advances hu₁).dstAddr, (samePorts_of_advances hu₂).dstAddr] at houtput
  exact ⟨hresult, hsp, hstop, houtput⟩

/-- Runs alike end alike, and one pass more than source bytes are left is enough: each pass stops or
advances `sp` (spec/44_lcw.md rule R225). -/
theorem runLoop_alike {passes : Nat} {s₁ s₂ : State} {r : LcwRun} (h : RunsAlike s₁ s₂ r)
    (hpasses : srcLeft s₁ r < passes) :
    ∃ t₁ t₂, runLoop passes s₁ = .next t₁ ∧ runLoop passes s₂ = .next t₂ ∧
      EndsInside s₁ r t₁ ∧ EndsAlike s₁ s₂ t₁ t₂ := by
  induction passes generalizing s₁ s₂ r with
  | zero => exact absurd hpasses (Nat.not_lt_zero _)
  | succ passes ih =>
    rw [runLoop_succ_of_run _ h.run₁, runLoop_succ_of_run _ h.run₂]
    have hpass := passesAlike_step h
    generalize step s₁ = o₁, step s₂ = o₂ at hpass ⊢
    cases hpass with
    | stops sp why hsp hwhy =>
      exact ⟨_, _, runLoop_of_idle _ rfl, runLoop_of_idle _ rfl,
        endsInside_stopRun h.inside₁ hsp hwhy, rfl, rfl, rfl, h.output⟩
    | @advances u₁ u₂ size count hsize hleft hspace hu₁ hu₂ hbytes =>
      have hfewer : srcLeft u₁ (advancedRun r size count) < passes := by
        have hsp := toNat_advancedRun_sp (count := count) h.inside₁ hleft
        have hlen := (samePorts_of_advances hu₁).srcLen
        unfold srcLeft at *
        rw [hsp, hlen]
        omega
      obtain ⟨t₁, t₂, hrun₁, hrun₂, hends, halike⟩ :=
        ih (runsAlike_of_advances h hleft hspace hu₁ hu₂ hbytes) hfewer
      exact ⟨t₁, t₂, hrun₁, hrun₂, endsInside_of_advances h.inside₁ hspace hu₁ hends,
        endsAlike_of_advances hu₁ hu₂ halike⟩

/-! ### The command -/

/-- The regions of `LCW.DEC` are usable and share no byte (spec/44_lcw.md rule R220). -/
def LcwReady (s : State) : Prop :=
  SpanReady s.platform (srcSpan s s.srcLen.toNat) ∧
    SpanReady s.platform (dstSpan s s.dstLen.toNat) ∧
    SpansApart (srcSpan s s.srcLen.toNat) (dstSpan s s.dstLen.toNat)

theorem runInside_startRun {s : State} (h : LcwReady s) :
    RunInside (startRun s) { sp := 0#32, dp := 0#32 } := by
  obtain ⟨⟨hsrc, -⟩, ⟨hdst, -⟩, hapart⟩ := h
  exact ⟨Nat.zero_le _, Nat.zero_le _, hsrc, hdst, hapart⟩

/-- `LCW.DEC` twice, on the same source bytes with the same capacity. -/
theorem exec_lcwDec_alike {s₁ s₂ : State} (h₁ : LcwReady s₁) (h₂ : LcwReady s₂)
    (hsrcLen : s₁.srcLen = s₂.srcLen) (hdstLen : s₁.dstLen = s₂.dstLen)
    (hsource : ∀ k, k < s₁.srcLen.toNat →
      memRead s₁.mem (s₁.srcAddr.toNat + k) = memRead s₂.mem (s₂.srcAddr.toNat + k)) :
    ∃ t₁ t₂, exec .lcwDec s₁ = .next t₁ ∧ exec .lcwDec s₂ = .next t₂ ∧
      EndsInside (startRun s₁) { sp := 0#32, dp := 0#32 } t₁ ∧ EndsAlike s₁ s₂ t₁ t₂ := by
  have halike : RunsAlike (startRun s₁) (startRun s₂) { sp := 0#32, dp := 0#32 } :=
    ⟨rfl, rfl, runInside_startRun h₁, runInside_startRun h₂, hsrcLen, hdstLen, hsource,
      fun k hk => absurd hk (Nat.not_lt_zero k)⟩
  obtain ⟨t₁, t₂, hrun₁, hrun₂, hends, hresult, hsp, hstop, houtput⟩ :=
    runLoop_alike halike (Nat.lt_succ_self s₁.srcLen.toNat)
  obtain ⟨hsrc₁, hdst₁, hapart₁⟩ := h₁
  obtain ⟨hsrc₂, hdst₂, hapart₂⟩ := h₂
  refine ⟨t₁, t₂, ?_, ?_, hends, hresult, hsp, hstop, houtput⟩
  · rw [exec_lcwDec_of_ready hsrc₁ hdst₁ hapart₁, hrun₁]
  · rw [exec_lcwDec_of_ready hsrc₂ hdst₂ hapart₂, ← hsrcLen, hrun₂]

/-- Settles O51: a run beside itself. -/
theorem lcwDecStaysInsideItsRegions : Obligations.LcwDecStaysInsideItsRegions := by
  unfold Obligations.LcwDecStaysInsideItsRegions
  intro s hsrc hdst hapart
  have hready : LcwReady s := ⟨hsrc, hdst, hapart⟩
  obtain ⟨t, -, hexec, -, ⟨hidle, herr, hstop, -, hresult, hsp, houtside⟩, -⟩ :=
    exec_lcwDec_alike hready hready rfl rfl fun _ _ => rfl
  have hframe : LcwFrame s t := by
    rw [exec_lcwDec_of_ready hsrc hdst hapart] at hexec
    exact lcwFrame_trans (lcwFrame_startRun s) (lcwFrame_runLoop hexec)
  rw [LcwFrame, hidle, herr] at hframe
  exact ⟨t, hexec, hframe, hstop, hresult, hsp, houtside⟩

/-- Settles O53. -/
theorem lcwDecDependsOnSourceAndCapacityOnly :
    Obligations.LcwDecDependsOnSourceAndCapacityOnly := by
  unfold Obligations.LcwDecDependsOnSourceAndCapacityOnly
  intro s₁ s₂ t₁ t₂ hready hsrcLen hdstLen hsource hexec₁ hexec₂
  obtain ⟨u₁, u₂, hu₁, hu₂, -, hresult, hsp, hstop, houtput⟩ :=
    exec_lcwDec_alike (hready s₁ (.inl rfl)) (hready s₂ (.inr rfl)) hsrcLen hdstLen hsource
  obtain rfl := eq_of_next_eq_next (hu₁.symm.trans hexec₁)
  obtain rfl := eq_of_next_eq_next (hu₂.symm.trans hexec₂)
  exact ⟨hresult, hsp, hstop, houtput⟩

end Sys2Proof.Proofs
end

