-- ==== Sys2Proof/Proofs/System.lean ====
section
/-! PROOF. The system commands (spec/45_system.md rules R260, R261): what they do, and what a word
with their opcode and a must-be-zero bit set does. -/

namespace Sys2Proof.Proofs

open Sys2Proof Sys2Proof.Machine Sys2Proof.Laws

/-- A word that stands for no command only records the error (spec/60_exceptions.md rules R292,
R294). -/
theorem runCommand_of_not_decodes {w : Word} (s : State) (h : ∀ i, decode (.cmd w) ≠ .ok i) :
    runCommand w s = .next (s.raise .illegal) := by
  unfold runCommand
  split
  case h_1 i hi => exact absurd hi (h i)
  case h_2 => rfl

/-- In a format `Z` row of the opcode map, every word but the format's own is illegal
(spec/30_encoding.md rules R91, R98). -/
theorem runCommand_of_ne_formatZ {w : Word} {i : Instr} (s : State)
    (hrow : decode (.cmd w) = ifZero w 0x00FFFFFF#32 i) (hw : w ≠ formatZ (fieldOp w)) :
    runCommand w s = .next (s.raise .illegal) := by
  refine runCommand_of_not_decodes s fun j hj => hw ?_
  obtain ⟨hzero, -⟩ := ifZero_eq_ok_iff.1 (hrow.symm.trans hj)
  exact (mustBeZero_iff_formatZ w).1 hzero

theorem decode_of_opcode_sysNop {w : Word} (h : fieldOp w = 0x00#8) :
    decode (.cmd w) = ifZero w 0x00FFFFFF#32 .sysNop := by
  rw [decode, decodeCmd, h]
  rfl

theorem decode_of_opcode_sysClrerr {w : Word} (h : fieldOp w = 0x01#8) :
    decode (.cmd w) = ifZero w 0x00FFFFFF#32 .sysClrerr := by
  rw [decode, decodeCmd, h]
  rfl

/-- Settles O17: both commands stand in format `Z` rows, so a word with their opcode that is not
theirs has a must-be-zero bit set. -/
theorem systemCommandsWriteTheErrorRecord : Obligations.SystemCommandsWriteTheErrorRecord := by
  unfold Obligations.SystemCommandsWriteTheErrorRecord
  refine ⟨rfl, rfl, fun s => rfl, fun s => rfl, fun w s h => ?illegal⟩
  case illegal =>
    obtain ⟨hw, hop⟩ | ⟨hw, hop⟩ := h
    · exact runCommand_of_ne_formatZ s (decode_of_opcode_sysNop hop) (by rw [hop]; exact hw)
    · exact runCommand_of_ne_formatZ s (decode_of_opcode_sysClrerr hop) (by rw [hop]; exact hw)

end Sys2Proof.Proofs
end

