-- ==== Sys2Proof/Proofs/ErrorRecord.lean ====
section
/-! PROOF. The error record (spec/60_exceptions.md rules R290 to R294): its codes, what an illegal
word does to it, and how every command ends. -/

namespace Sys2Proof.Proofs

open Sys2Proof Sys2Proof.Machine Sys2Proof.Laws

/-! ### The codes -/

/-- Settles O54: the two tables, code by code. -/
theorem errorAndStopCodes : Obligations.ErrorAndStopCodes := by
  unfold Obligations.ErrorAndStopCodes
  exact ⟨rfl, rfl⟩

/-! ### Illegal words -/

/-- Settles O9: a word that decodes matches a row, so a word that matches none does not decode. -/
theorem illegalWordOnlyRecordsTheError : Obligations.IllegalWordOnlyRecordsTheError := by
  unfold Obligations.IllegalWordOnlyRecordsTheError
  intro s w rest hidle hbase hin hnoRow
  rw [step_of_command hidle hbase hin]
  refine runCommand_of_not_decodes _ fun i hi => ?_
  obtain ⟨hrows, -⟩ := legalWordsAreTheRowsOfTheOpcodeMap w
  obtain ⟨row, hrow, -, hmatch⟩ := hrows i hi
  exact hnoRow row hrow hmatch

/-! ### The regions of `LCW.DEC` past its checks -/

/-- A region that passes the three checks of a launch is usable. -/
theorem spanReady_of_passes {p : Config.Platform} {a : Word} {n : Nat}
    (hrange : spanInRange { base := a.toNat, len := n } = true)
    (hvalid : spanValid p { base := a.toNat, len := n } = true)
    (hdevice : spanTouchesDevice p { base := a.toNat, len := n } = false) :
    SpanReady p { base := a.toNat, len := n } := by
  refine ⟨fits_of_spanInRange hrange, fun x hlo hhi =>
    ⟨(spanValid_iff p _).mp hvalid x hlo hhi, ?_⟩⟩
  rw [← Bool.not_eq_true]
  intro hx
  exact Bool.false_ne_true (hdevice.symm.trans (spanTouchesDevice_of_isDevice hlo hhi hx))

theorem lcwReady_of_lcwRegionsPass {s : State} (h : LcwRegionsPass s) : LcwReady s := by
  obtain ⟨hpass, hdevice⟩ := h
  obtain ⟨hrange, hclash, hvalid⟩ := portError_eq_none.mp hpass
  simp only [List.all_cons, List.all_nil, List.any_cons, List.any_nil, Bool.and_true, Bool.or_false,
    Bool.and_eq_true, Bool.or_eq_false_iff] at hrange hvalid hdevice
  obtain ⟨hsrcRange, hdstRange⟩ := hrange
  obtain ⟨hsrcValid, hdstValid⟩ := hvalid
  obtain ⟨hsrcDevice, hdstDevice⟩ := hdevice
  exact ⟨spanReady_of_passes hsrcRange hsrcValid hsrcDevice,
    spanReady_of_passes hdstRange hdstValid hdstDevice, spansApart_of_spansOverlap hclash⟩

/-- `LCW.DEC` is the launch of its loop on its two regions (spec/44_lcw.md rule R220). -/
theorem execLcwDec_eq_launch (s : State) : execLcwDec s =
    launch s [srcSpan s s.srcLen.toNat, dstSpan s s.dstLen.toNat]
      (spansOverlap (srcSpan s s.srcLen.toNat) (dstSpan s s.dstLen.toNat))
      fun s' => runLoop (s'.srcLen.toNat + 1) (startRun s') := by
  rw [execLcwDec]

/-! ### How a command ends -/

/-- How a command ends: with an error that is recorded and nothing else; without error, `ERRS` kept
or, by `SYS.CLRERR`, cleared, and no run left that was not there; or refused, on a platform with a
device (spec/60_exceptions.md rules R290, R292, R293, spec/20_memory.md rule R68). -/
inductive CommandEnds (i : Instr) (s : State) : Outcome → Prop where
  | raises (e : Err) (he : e ≠ .ok) : CommandEnds i s (.next (s.raise e))
  | succeeds (t : State) (herr : t.status.err = .ok)
    (herrs : t.status.errs = if i = .sysClrerr then false else s.status.errs)
    (hidle : s.lcw = none → t.lcw = none) : CommandEnds i s (.next t)
  | refuses (hdevice : noDevices s.platform = false) : CommandEnds i s (.refused .deviceRegion)

section
variable {i : Instr} {s : State}

/-- A command that writes fields of its own and then records success. -/
theorem commandEnds_succeed {u : State} (hi : i ≠ .sysClrerr) (hstatus : u.status = s.status)
    (hlcw : u.lcw = s.lcw) : CommandEnds i s (.next u.succeed) :=
  .succeeds _ rfl (by rw [if_neg hi, succeed_status, hstatus]) (by rw [succeed_lcw, hlcw]; exact id)

/-- A check before a command: the error it takes, or the rest of the command. -/
theorem commandEnds_check {c : Prop} [Decidable c] {e : Err} {o : Outcome} (he : e ≠ .ok)
    (ho : CommandEnds i s o) : CommandEnds i s (if c then .next (s.raise e) else o) := by
  split
  case isTrue => exact .raises e he
  case isFalse => exact ho

/-- A memory command ends as its body does where its regions pass. -/
theorem commandEnds_launch {spans : List Span} {clash : Bool} {run : State → Outcome}
    (hrun : portError s.platform spans clash = none →
      spans.any (spanTouchesDevice s.platform) = false → CommandEnds i s (run s)) :
    CommandEnds i s (launch s spans clash run) := by
  cases hport : portError s.platform spans clash with
  | some e =>
    have he : e ≠ .ok := by obtain rfl | rfl | rfl := portError_code hport <;> decide
    simpa only [launch, hport] using CommandEnds.raises e he
  | none =>
    cases hdevice : spans.any (spanTouchesDevice s.platform) with
    | false => exact launch_passes hport hdevice ▸ hrun hport hdevice
    | true =>
      rw [launch_of_device hport hdevice]
      refine .refuses ?_
      rw [← Bool.not_eq_true]
      intro hnone
      obtain ⟨r, -, hr⟩ := List.any_eq_true.mp hdevice
      exact Bool.false_ne_true ((noDevices_spanTouchesDevice hnone r).symm.trans hr)

theorem commandEnds_loadBig {image : List Byte → Nat} {rd : Reg} {len : BitVec 16}
    (hi : i ≠ .sysClrerr) : CommandEnds i s (loadBig image rd len s) :=
  commandEnds_check (by decide) (commandEnds_launch fun _ _ => commandEnds_succeed hi rfl rfl)

theorem commandEnds_storeBig {image : Big → Nat → List Byte} {ra : Reg} {len : BitVec 16}
    (hi : i ≠ .sysClrerr) : CommandEnds i s (storeBig image ra len s) :=
  commandEnds_check (by decide) (commandEnds_launch fun _ _ => commandEnds_succeed hi
    (by rw [writeBytes_frame]) (by rw [writeBytes_frame]))

theorem commandEnds_cryptBlocks {f : State → Word × Word → Word × Word} {n : Nat} {src dst : Word}
    (hi : i ≠ .sysClrerr) : CommandEnds i s (.next (cryptBlocks f n src dst s).succeed) :=
  commandEnds_succeed hi (by rw [cryptBlocks_frame]) (by rw [cryptBlocks_frame])

theorem commandEnds_cryptOne {f : State → Word × Word → Word × Word} (hi : i ≠ .sysClrerr) :
    CommandEnds i s (cryptOne f s) :=
  commandEnds_check (by decide) (commandEnds_launch fun _ _ => commandEnds_cryptBlocks hi)

theorem commandEnds_cryptBulk {f : State → Word × Word → Word × Word} (hi : i ≠ .sysClrerr) :
    CommandEnds i s (cryptBulk f s) :=
  commandEnds_check (by decide) (commandEnds_check (by decide)
    (commandEnds_launch fun _ _ => commandEnds_cryptBlocks hi))

theorem commandEnds_execBfSetkey : CommandEnds .bfSetkey s (execBfSetkey s) :=
  commandEnds_check (by decide) (commandEnds_launch fun _ _ => .succeeds _ rfl rfl id)

/-- `LCW.DEC`, once its regions pass, ends its run without error (spec/44_lcw.md rule R225). -/
theorem commandEnds_execLcwDec : CommandEnds .lcwDec s (execLcwDec s) := by
  rw [execLcwDec_eq_launch]
  refine commandEnds_launch fun hpass hdevice => ?_
  obtain ⟨hsrc, hdst, hapart⟩ := lcwReady_of_lcwRegionsPass ⟨hpass, hdevice⟩
  obtain ⟨t, hexec, hframe, -⟩ := lcwDecStaysInsideItsRegions s hsrc hdst hapart
  rw [exec_lcwDec_of_ready hsrc hdst hapart] at hexec
  rw [hexec, hframe]
  exact .succeeds _ rfl rfl fun _ => rfl

/-- Every command ends, by cases on the command. -/
theorem commandEnds_exec (hi : i.isStream = false) : CommandEnds i s (exec i s) := by
  cases i
  case sysClrerr | bfClrkey => exact .succeeds _ rfl rfl id
  case sysNop | biLdi | biMov | biCmp | biAdd | biSub | biShl1 | biShr1 | biBit | biHsb | biTstz
      | biMull | biMulh => exact commandEnds_succeed nofun rfl rfl
  case biLdbe | biLdle => exact commandEnds_loadBig nofun
  case biStbe | biStle => exact commandEnds_storeBig nofun
  case modMul | modExp => exact commandEnds_check (by decide) (commandEnds_succeed nofun rfl rfl)
  case bfSetkey => exact commandEnds_execBfSetkey
  case bfEncb | bfDecb => exact commandEnds_cryptOne nofun
  case bfEnc | bfDec => exact commandEnds_cryptBulk nofun
  case lcwDec => exact commandEnds_execLcwDec
  all_goals exact absurd hi.symm Bool.false_ne_true

end

/-- Settles O13: of the ways a command ends, the one with an error records it. -/
theorem failedCommandChangesOnlyTheErrorRecord :
    Obligations.FailedCommandChangesOnlyTheErrorRecord := by
  unfold Obligations.FailedCommandChangesOnlyTheErrorRecord
  intro i s t hi hexec herror
  have hends := commandEnds_exec (s := s) hi
  rw [hexec] at hends
  cases hends with
  | raises e he => rfl
  | succeeds t herr herrs hidle => exact absurd herr herror

/-- Settles O14: of the ways a command ends, the one without error says what `ERRS` is. -/
theorem successKeepsTheStickyBit : Obligations.SuccessKeepsTheStickyBit := by
  unfold Obligations.SuccessKeepsTheStickyBit
  intro i s t hi hexec hok
  have hends := commandEnds_exec (s := s) hi
  rw [hexec] at hends
  cases hends with
  | raises e he => exact absurd hok he
  | succeeds t herr herrs hidle => exact herrs

/-- Settles O15: without a device a command does not end in the refusal, and no way to end leaves a
run behind. -/
theorem everyCommandEnds : Obligations.EveryCommandEnds := by
  unfold Obligations.EveryCommandEnds
  intro i s hi hidle hplain
  have hends := commandEnds_exec (s := s) hi
  generalize exec i s = o at hends
  cases hends with
  | raises e he => exact ⟨s.raise e, rfl, hidle⟩
  | succeeds t herr herrs hkept => exact ⟨t, rfl, hkept hidle⟩
  | refuses hdevice => exact absurd (hdevice.symm.trans hplain) Bool.false_ne_true

end Sys2Proof.Proofs
end

