-- ==== Sys2Proof/Proofs/CommandChecks.lean ====
section
/-! PROOF. The checks of the Blowfish memory commands and of `LCW.DEC`, in their order
(spec/60_exceptions.md rules R296, R298 to R303): the key, the length, then the regions. -/

namespace Sys2Proof.Proofs

open Sys2Proof Sys2Proof.Machine Sys2Proof.Laws

/-! ### The key and the length -/

/-- Settles O37: the length is the first check of `BF.SETKEY`. -/
theorem setkeyRefusesTheKeyLength : Obligations.SetkeyRefusesTheKeyLength := by
  unfold Obligations.SetkeyRefusesTheKeyLength
  intro s hlen
  exact if_pos (by omega)

section
variable {f : State → Word × Word → Word × Word} {s : State}

theorem cryptOne_of_noKey (h : s.status.keyvalid = false) :
    cryptOne f s = .next (s.raise .noKey) := if_pos h

theorem cryptBulk_of_noKey (h : s.status.keyvalid = false) :
    cryptBulk f s = .next (s.raise .noKey) := if_pos h

/-- With a key, the length is the next check of a bulk command (spec/60_exceptions.md rule R303). -/
theorem cryptBulk_of_badLength (hkey : s.status.keyvalid = true) (hlen : s.srcLen.toNat % 8 ≠ 0) :
    cryptBulk f s = .next (s.raise .length) := by
  rw [cryptBulk, if_neg (by simp [hkey]), if_pos hlen]

/-- With a key and a legal length, a bulk command is its launch. -/
theorem cryptBulk_of_legalLength (hkey : s.status.keyvalid = true)
    (hlen : s.srcLen.toNat % 8 = 0) :
    cryptBulk f s = launch s [srcSpan s s.srcLen.toNat, dstSpan s s.srcLen.toNat]
      (spansPartlyOverlap (srcSpan s s.srcLen.toNat) (dstSpan s s.srcLen.toNat))
      fun s' => .next (cryptBlocks f (s.srcLen.toNat / 8) s'.srcAddr s'.dstAddr s').succeed := by
  rw [cryptBulk, if_neg (by simp [hkey]), if_neg (not_not_intro hlen)]

/-- An empty region is usable wherever it is (spec/20_memory.md rule R70). -/
theorem spanReady_empty (p : Config.Platform) (a : Word) :
    SpanReady p { base := a.toNat, len := 0 } :=
  ⟨(toNat_lt_addressLimit a).le, fun _ hlo hhi => absurd hhi (Nat.not_lt.mpr hlo)⟩

/-- No bytes: no block is read or written (spec/60_exceptions.md rule R302). -/
theorem cryptBulk_of_empty (hkey : s.status.keyvalid = true) (hlen : s.srcLen.toNat = 0) :
    cryptBulk f s = .next s.succeed := by
  rw [cryptBulk_of_legalLength hkey (by omega), hlen]
  exact launch_pair_of_ready (spanReady_empty _ _) (spanReady_empty _ _)
    (spansPartlyOverlap_of_place (.inr (.inl rfl)))

end

/-- Settles O41: the key is the first check of the four commands. -/
theorem cipherCommandsNeedAKey : Obligations.CipherCommandsNeedAKey := by
  unfold Obligations.CipherCommandsNeedAKey
  intro s hkey i hi
  obtain rfl | rfl | rfl | rfl := hi
  case inl | inr.inl => exact cryptOne_of_noKey hkey
  case inr.inr.inl | inr.inr.inr => exact cryptBulk_of_noKey hkey

/-- Settles O42: both commands are the one bulk command. -/
theorem bulkLengthMustBeAMultipleOfEight : Obligations.BulkLengthMustBeAMultipleOfEight := by
  unfold Obligations.BulkLengthMustBeAMultipleOfEight
  exact fun s hkey =>
    ⟨fun hlen => ⟨cryptBulk_of_badLength hkey hlen, cryptBulk_of_badLength hkey hlen⟩,
      fun hlen => ⟨cryptBulk_of_empty hkey hlen, cryptBulk_of_empty hkey hlen⟩⟩

/-! ### The regions -/

/-- Two regions clash: they share a byte and are not the identical regions that a command working in
place allows (spec/20_memory.md rule R71). -/
def RegionsClash (identical : Bool) (r q : Span) : Prop :=
  r.len ≠ 0 ∧ q.len ≠ 0 ∧ r.base < q.base + q.len ∧ q.base < r.base + r.len ∧
    ¬(identical = true ∧ r.base = q.base)

theorem spansOverlap_iff (r q : Span) : spansOverlap r q = true ↔ RegionsClash false r q := by
  simp only [spansOverlap, RegionsClash, Bool.and_eq_true, bne_iff_ne, decide_eq_true_eq, and_assoc,
    Bool.false_eq_true, false_and, not_false_eq_true, and_true]

theorem spansPartlyOverlap_iff {r q : Span} (hlen : r.len = q.len) :
    spansPartlyOverlap r q = true ↔ RegionsClash true r q := by
  obtain ⟨a, n⟩ := r
  obtain ⟨b, m⟩ := q
  obtain rfl : n = m := hlen
  simp [spansPartlyOverlap, spansOverlap_iff, RegionsClash, and_assoc]

/-- The outcome is that of a command whose next checks are those of these two regions. -/
def ChecksRegions (s : State) (r q : Span) (identical : Bool) (o : Outcome) : Prop :=
  ∃ clash run, o = launch s [r, q] clash run ∧ (clash = true ↔ RegionsClash identical r q)

/-- A command on one region checks it beside an empty one: that is in range, overlaps nothing, and
has no byte to be absent or a device's. -/
theorem launch_single_eq_pair (s : State) (r : Span) (b : Nat) (run : State → Outcome) :
    launch s [r] false run = launch s [r, { base := b, len := 0 }] false run := by
  have hvalid : spanValid s.platform { base := b, len := 0 } = true :=
    (spanValid_iff _ _).mpr fun a hlo hhi => absurd hhi (Nat.not_lt.mpr hlo)
  have hdevice : spanTouchesDevice s.platform { base := b, len := 0 } = false := by
    simp [spanTouchesDevice, spansOverlap]
  simp [launch, portError, spanInRange, hvalid, hdevice]

theorem checksRegions_cryptOne {f : State → Word × Word → Word × Word} {s : State}
    (hkey : s.status.keyvalid = true) :
    ChecksRegions s (srcSpan s 8) (dstSpan s 8) true (cryptOne f s) :=
  ⟨_, _, if_neg (by simp [hkey]), spansPartlyOverlap_iff rfl⟩

theorem checksRegions_cryptBulk {f : State → Word × Word → Word × Word} {s : State}
    (hkey : s.status.keyvalid = true) (hlen : s.srcLen.toNat % 8 = 0) :
    ChecksRegions s (srcSpan s s.srcLen.toNat) (dstSpan s s.srcLen.toNat) true (cryptBulk f s) :=
  ⟨_, _, cryptBulk_of_legalLength hkey hlen, spansPartlyOverlap_iff rfl⟩

theorem checksRegions_execBfSetkey {s : State} (hmin : 1 ≤ s.srcLen.toNat)
    (hmax : s.srcLen.toNat ≤ 56) :
    ChecksRegions s (srcSpan s s.srcLen.toNat) (dstSpan s 0) false (execBfSetkey s) :=
  ⟨_, _, (if_neg (by omega)).trans (launch_single_eq_pair s _ s.dstAddr.toNat _),
    by simp [RegionsClash, dstSpan]⟩

theorem checksRegions_execLcwDec (s : State) :
    ChecksRegions s (srcSpan s s.srcLen.toNat) (dstSpan s s.dstLen.toNat) false (execLcwDec s) :=
  ⟨_, _, execLcwDec_eq_launch s, spansOverlap_iff _ _⟩

/-- Regions in range that overlap in a way the command forbids (spec/60_exceptions.md rules R300,
R303). -/
theorem launch_of_clash {s : State} {spans : List Span} {run : State → Outcome}
    (hrange : spans.all spanInRange = true) :
    launch s spans true run = .next (s.raise .overlap) := by
  simp [launch, portError, hrange]

section
variable {p : Config.Platform} {A n B m : Nat}

theorem all_spanInRange_pair_iff : [Span.mk A n, Span.mk B m].all spanInRange = true ↔
    (n = 0 ∨ A + n ≤ 2 ^ 32) ∧ (m = 0 ∨ B + m ≤ 2 ^ 32) := by
  simp only [List.all_cons, List.all_nil, Bool.and_true, Bool.and_eq_true, spanInRange_iff]
  rfl

theorem all_spanValid_pair_iff : [Span.mk A n, Span.mk B m].all (spanValid p) = true ↔
    ∀ a, (A ≤ a ∧ a < A + n ∨ B ≤ a ∧ a < B + m) → memValid p a = true := by
  simp only [List.all_cons, List.all_nil, Bool.and_true, Bool.and_eq_true, spanValid_iff, or_imp,
    and_imp, forall_and]

theorem any_spanTouchesDevice_pair {a : Nat} (hdevice : isDevice p a = true)
    (ha : A ≤ a ∧ a < A + n ∨ B ≤ a ∧ a < B + m) :
    [Span.mk A n, Span.mk B m].any (spanTouchesDevice p) = true := by
  simp only [List.any_cons, List.any_nil, Bool.or_false, Bool.or_eq_true]
  exact ha.imp (fun ⟨hlo, hhi⟩ => spanTouchesDevice_of_isDevice hlo hhi hdevice)
    (fun ⟨hlo, hhi⟩ => spanTouchesDevice_of_isDevice hlo hhi hdevice)

end

/-- Settles O43: each command checks two regions, `BF.SETKEY` an empty one beside its own, and each
clause is the first check of the launch that fails. -/
theorem regionErrorsInOrder : Obligations.RegionErrorsInOrder := by
  unfold Obligations.RegionErrorsInOrder
  intro s i n m identical h A B touched inRange clash
  have hchecks : ChecksRegions s (Span.mk A n) (Span.mk B m) identical (exec i s) := by
    obtain ⟨hi, rfl, rfl, rfl, hkey⟩ | ⟨hi, rfl, rfl, rfl, hkey, hlen⟩ |
      ⟨rfl, rfl, hmin, hmax, rfl, rfl⟩ | ⟨rfl, rfl, rfl, rfl⟩ := h
    · obtain rfl | rfl := hi <;> exact checksRegions_cryptOne hkey
    · obtain rfl | rfl := hi <;> exact checksRegions_cryptBulk hkey hlen
    · exact checksRegions_execBfSetkey hmin hmax
    · exact checksRegions_execLcwDec s
  obtain ⟨c, run, hexec, hclash⟩ := hchecks
  have hapart (hn : ¬clash) : c = false := Bool.eq_false_iff.mpr (mt hclash.mp hn)
  rw [hexec]
  refine ⟨fun hpast => ?range, fun hin hboth => ?overlap, fun hin hn ⟨a, ha, habsent⟩ => ?bus,
    fun hin hn hvalid ⟨a, ha, hdevice⟩ => ?device⟩
  case range =>
    exact launch_of_outOfRange (Bool.eq_false_iff.mpr (mt all_spanInRange_pair_iff.mp hpast))
  case overlap =>
    rw [hclash.mpr hboth]
    exact launch_of_clash (all_spanInRange_pair_iff.mpr hin)
  case bus =>
    rw [hapart hn]
    refine launch_of_invalid (all_spanInRange_pair_iff.mpr hin) (Bool.eq_false_iff.mpr ?_)
    exact fun hv => Bool.false_ne_true (habsent.symm.trans (all_spanValid_pair_iff.mp hv a ha))
  case device =>
    exact launch_of_device (portError_eq_none.mpr ⟨all_spanInRange_pair_iff.mpr hin, hapart hn,
      all_spanValid_pair_iff.mpr hvalid⟩) (any_spanTouchesDevice_pair hdevice ha)

end Sys2Proof.Proofs
end

