-- ==== Sys2Proof/Proofs/Reset.lean ====
section
/-! PROOF. Reset (spec/70_reset_and_hazards.md rules R330, R331): of an idle block, and of one whose
command it cuts short, where each byte of memory is the old one or the one the command would have
left. -/

namespace Sys2Proof.Proofs

open Sys2Proof Sys2Proof.Machine Sys2Proof.Laws

/-! ### A mix of two memories, byte by byte -/

theorem memRead_of_not_listed {m : List Host.Cell} {a : Nat} (h : a ∉ m.map Prod.fst) :
    memRead m a = Config.unlistedByte := by
  induction m with
  | nil => rfl
  | cons c rest ih =>
    obtain ⟨hne, hrest⟩ := not_or.mp (List.mem_cons.not.mp h)
    simp only [memRead, if_neg (Ne.symm hne), ih hrest]

/-- Memory after each listed address is written with its byte of `f`: a later write of the same
address writes the same byte. -/
theorem memRead_foldl_memWrite (f : Nat → Byte) (keys : List Nat) (m : List Host.Cell) (a : Nat) :
    memRead (keys.foldl (fun m b => memWrite m b (f b)) m) a =
      if a ∈ keys then f a else memRead m a := by
  induction keys generalizing m with
  | nil => rfl
  | cons b rest ih =>
    rw [List.foldl_cons, ih, memRead_memWrite]
    by_cases hrest : a ∈ rest
    · simp [hrest]
    · by_cases hb : b = a
      · simp [hb]
      · simp [hrest, hb, Ne.symm hb]

/-- Each byte of a mix is the new one where `pick` says so, else the old one; an address listed in
neither memory reads the same in both. -/
theorem memRead_memMix (pick : Nat → Bool) (old new : List Host.Cell) (a : Nat) :
    memRead (memMix pick old new) a = if pick a then memRead new a else memRead old a := by
  unfold memMix
  rw [memRead_foldl_memWrite fun b => if pick b then memRead new b else memRead old b]
  split
  case isTrue => rfl
  case isFalse hkeys =>
    obtain ⟨hold, hnew⟩ := not_or.mp (List.mem_append.not.mp hkeys)
    rw [memRead_of_not_listed hold, memRead_of_not_listed hnew, ite_self]

/-! ### The two resets -/

/-- Settles O59: the step takes the reset, which leaves `State.resetBlock`. -/
theorem resetPutsTheBlockAtItsResetState : Obligations.ResetPutsTheBlockAtItsResetState := by
  unfold Obligations.ResetPutsTheBlockAtItsResetState
  intro s rest hidle hin
  exact ⟨_, _, _, step_of_input hidle hin⟩

/-- A word written to `CMD` leaves the platform, the host's actions and the record of its reads. -/
theorem runCommand_frame {s t : State} {w : Word} (h : runCommand w s = .next t) :
    t.platform = s.platform ∧ t.inputs = s.inputs ∧ t.hostReads = s.hostReads := by
  obtain rfl | ⟨i, h⟩ := runCommand_next h
  · exact ⟨rfl, rfl, rfl⟩
  · obtain ⟨-, -, -, -, -, -, -, -, -, -, -, -, hframe⟩ := commandsKeepToTheirState i s t h
    exact hframe

/-- A step that takes a reset during a command which would have answered `u`
(spec/70_reset_and_hazards.md rule R331). -/
theorem step_of_resetDuring {s u : State} {w : Word} {rest : List Input} (hidle : s.lcw = none)
    (hin : s.inputs = .resetDuring w :: rest)
    (h : runCommand w { s with inputs := rest } = .next u) :
    step s = .next { u.resetBlock with
      mem := memMix (Config.resetKeepsNew u.draws) s.mem u.mem } := by
  rw [step_of_input hidle hin]
  simp only [perform, resetDuringCommand, h]

/-- Settles O60: the block is at its reset state on the command's own frame, and memory is a mix of
the old one and the command's. -/
theorem resetDuringACommandLeavesOldOrNewBytes :
    Obligations.ResetDuringACommandLeavesOldOrNewBytes := by
  unfold Obligations.ResetDuringACommandLeavesOldOrNewBytes
  intro s u w rest hidle hin hu
  obtain ⟨hplatform, hinputs, hreads⟩ := runCommand_frame hu
  refine ⟨_, Config.freeP u.draws, Config.freeS u.draws, u.draws + 1,
    step_of_resetDuring hidle hin hu, ?registers, fun a => ?byte⟩
  case registers => simp only [State.resetBlock, hplatform, hinputs, hreads]
  case byte =>
    rw [memRead_memMix]
    split
    · exact .inr rfl
    · exact .inl rfl

end Sys2Proof.Proofs
end
